-- ==== Sys2Proof/Word.lean ====
section
/-! DEFINITION. The word types of the block, each of the width 00_scope.md R5 gives. -/

namespace Sys2Proof

/-- A command word or a readback word (CMD_W = RB_DATA_W = 64). -/
abbrev Word := BitVec 64

/-- An element of an output channel, and a body byte. -/
abbrev Byte := BitVec 8

/-- The ARG field of a command word (30_encoding.md R71): a symbol or a byte. -/
abbrev Arg := BitVec 9

/-- A FREQ entry (CNT_W = 32). -/
abbrev Freq := BitVec 32

/-- A node COUNT (SUM_W = 41). -/
abbrev Count := BitVec 41

/-- A node index (IDX_W = 10). -/
abbrev NodeIdx := BitVec 10

/-- A readback address (RB_ADDR_W = 16). -/
abbrev RbAddr := BitVec 16

end Sys2Proof
end

