-- ==== Sys2Proof/Syntax.lean ====
section
/-! DEFINITION. The ten commands of the block (30_encoding.md R73), one constructor each. -/

namespace Sys2Proof

/-- A decoded command. An operand keeps all the bits of its field ("ARG keeps its full 9 bits in LDFREQ, ENC
and DEC_BYTE; the range check is the command's", 30_encoding.md R76). -/
inductive Instr where
  /-- NOP (44_control.md R170). -/
  | nop
  /-- CLEAR (40_freq_table.md R100). -/
  | clear
  /-- LDFREQ sym, count (40_freq_table.md R102). -/
  | ldfreq (sym : Arg) (count : Freq)
  /-- BUILD (41_tree_builder.md R110). -/
  | build
  /-- ENC byte (42_encoder.md R130). -/
  | enc (arg : Arg)
  /-- ENC_END (42_encoder.md R134). -/
  | encEnd
  /-- DEC_START (43_decoder.md R150). -/
  | decStart
  /-- DEC_BYTE byte (43_decoder.md R152). -/
  | decByte (arg : Arg)
  /-- DEC_END (43_decoder.md R158). -/
  | decEnd
  /-- CLRERR (44_control.md R172). -/
  | clrerr
  deriving DecidableEq, Repr

end Sys2Proof
end

