-- ==== Sys2Proof/Decode.lean ====
section
/-! DEFINITION. The decoder of command words, total on all 2^64 of them (30_encoding.md R76), and the encoder
(R71, R73). -/

namespace Sys2Proof

/-- Why a word is illegal. The block itself records only ILLEGAL (60_exceptions.md R180). -/
inductive DecodeError where
  /-- RSV, bits 59:41, is not 0 (30_encoding.md R74). -/
  | reservedBits
  /-- OP is 0xA..0xF (30_encoding.md R75). -/
  | reservedOpcode
  /-- A field the command does not use is not 0 (30_encoding.md R74). -/
  | unusedField
  deriving DecidableEq, Repr

/-- OP, bits 63:60 (30_encoding.md R71). -/
def opField (w : Word) : BitVec 4 := w.extractLsb' 60 4

/-- RSV, bits 59:41 (30_encoding.md R71). -/
def rsvField (w : Word) : BitVec 19 := w.extractLsb' 41 19

/-- ARG, bits 40:32 (30_encoding.md R71). -/
def argField (w : Word) : Arg := w.extractLsb' 32 9

/-- DATA, bits 31:0 (30_encoding.md R71). -/
def dataField (w : Word) : Freq := w.extractLsb' 0 32

/-- A command that uses neither ARG nor DATA (30_encoding.md R76). -/
def decodePlain (w : Word) (i : Instr) : Except DecodeError Instr :=
  if argField w = 0#9 ∧ dataField w = 0#32 then .ok i else .error .unusedField

/-- A command that uses ARG alone (30_encoding.md R76). -/
def decodeArg (w : Word) (mk : Arg → Instr) : Except DecodeError Instr :=
  if dataField w = 0#32 then .ok (mk (argField w)) else .error .unusedField

/-- The decoding function of 30_encoding.md R76. -/
def decode (w : Word) : Except DecodeError Instr :=
  if rsvField w ≠ 0#19 then .error .reservedBits
  else
    match (opField w).toNat with
    | 0x0 => decodePlain w .nop
    | 0x1 => decodePlain w .clear
    | 0x2 => .ok (.ldfreq (argField w) (dataField w))
    | 0x3 => decodePlain w .build
    | 0x4 => decodeArg w .enc
    | 0x5 => decodePlain w .encEnd
    | 0x6 => decodePlain w .decStart
    | 0x7 => decodeArg w .decByte
    | 0x8 => decodePlain w .decEnd
    | 0x9 => decodePlain w .clrerr
    | _ => .error .reservedOpcode

/-- `word = (OP << 60) | (RSV << 41) | (ARG << 32) | DATA` with RSV = 0 (30_encoding.md R71). -/
def commandWord (op : BitVec 4) (arg : Arg) (data : Freq) : Word :=
  op ++ 0#19 ++ arg ++ data

/-- The OP value of each command (30_encoding.md R73). -/
def opcode : Instr → BitVec 4
  | .nop => 0x0#4
  | .clear => 0x1#4
  | .ldfreq _ _ => 0x2#4
  | .build => 0x3#4
  | .enc _ => 0x4#4
  | .encEnd => 0x5#4
  | .decStart => 0x6#4
  | .decByte _ => 0x7#4
  | .decEnd => 0x8#4
  | .clrerr => 0x9#4

/-- The ARG field of each command: its symbol or byte, 0 where the command does not use it (R73, R74). -/
def encodedArg : Instr → Arg
  | .ldfreq sym _ => sym
  | .enc arg => arg
  | .decByte arg => arg
  | .nop | .clear | .build | .encEnd | .decStart | .decEnd | .clrerr => 0#9

/-- The DATA field of each command: the count of LDFREQ, else 0 (R73, R74). -/
def encodedData : Instr → Freq
  | .ldfreq _ count => count
  | .nop | .clear | .build | .enc _ | .encEnd | .decStart | .decByte _ | .decEnd | .clrerr => 0#32

/-- The one word of a command (30_encoding.md R70, R71, R73). -/
def encode (i : Instr) : Word := commandWord (opcode i) (encodedArg i) (encodedData i)

/-- What the decoder reads from the word whose low `nbits` bits are those of `w` and whose other bits are 0. A
command is one whole 64-bit word inside the block, where no byte order applies (20_memory.md R53, R54). -/
def decodeTableWord (nbits w : Nat) : Option Instr :=
  match decode (BitVec.ofNat 64 (w % 2 ^ nbits)) with
  | .ok i => some i
  | .error _ => none

end Sys2Proof
end

