-- ==== Sys2Proof/Config.lean ====
section
/-! DEFINITION. The block's parameters (00_scope.md R5) and its free values. -/

namespace Sys2Proof

/-- NSYM: the number of symbols, 0..256 (R5). -/
abbrev Config.nsym : Nat := 257

/-- EOB: the end-of-block symbol (R5). -/
abbrev Config.eob : Nat := 256

/-- NBYTE: the number of raw byte symbols, 0..255 (R5). -/
abbrev Config.nbyte : Nat := 256

/-- NNODE: the number of node slots, leaves 0..256 and internal slots 257..512 (R5). -/
abbrev Config.nnode : Nat := 513

/-- The number of internal node slots, 257..512 (R5, NNODE). -/
abbrev Config.ninternal : Nat := 256

/-- MAXLEN: the longest code, in bits (R5). -/
abbrev Config.maxlen : Nat := 256

/-- NONE: the index value that means "no node" (R5, 10_state.md R25). -/
abbrev Config.noNode : NodeIdx := 0x3FF#10

/-- HOST_BUS_ORDER (R5, 20_memory.md R53): which byte of a 64-bit word, counted from its least significant
byte, each of the eight byte lanes of a host bus carries. The spec leaves it OPEN; no rule of the block
reads it. Free (log 8, DESIGN CHOICE, safe). -/
opaque Config.hostBusOrder : Equiv.Perm (Fin 8)

/-- The `n`-th word drawn for a readback whose value the spec leaves open: "any value (a draw, under no
law)" (20_memory.md R56). Free (log 6, DEDUCED, safe). -/
opaque Config.anyWord : Nat → Word

end Sys2Proof
end

