-- ==== Sys2Proof/Machine/State.lean ====
section
/-! DEFINITION. The state of the block (10_state.md), its value after reset (R47), and the reasons a step stops. -/

namespace Sys2Proof.Machine

/-- An internal node slot (10_state.md R27). -/
structure Node where
  /-- LEFT, the child reached by bit 0. -/
  left : NodeIdx
  /-- RIGHT, the child reached by bit 1. -/
  right : NodeIdx
  /-- COUNT, 41 bits, unsigned. -/
  count : Count
  deriving DecidableEq, Repr

/-- An entry of the code table (10_state.md R33). -/
structure CodeEntry where
  /-- CODE_VALID: the code is present. -/
  valid : Bool
  /-- CODE_LEN: its length, 0..256. -/
  len : BitVec 9
  /-- CODE_BITS: the code as a number, its first bit at `CODE_BITS[CODE_LEN - 1]` (00_scope.md R8). -/
  bits : BitVec 256
  deriving DecidableEq, Repr

/-- DEC_STATE, the state of the tree walk; its values 5..7 never occur (10_state.md R37; log 15). -/
inductive DecState where
  /-- 0: no stream started since reset. -/
  | idle
  /-- 1: walking. -/
  | run
  /-- 2: reached the end-of-block leaf. -/
  | done
  /-- 3: exhausted before the end-of-block leaf. -/
  | trunc
  /-- 4: the walk reached a null child. -/
  | malformed
  deriving DecidableEq, Repr

/-- ERR_CODE; its values 7..15 never occur (60_exceptions.md R180; log 15). -/
inductive ErrCode where
  /-- 0: no error since reset or the last CLRERR. -/
  | none
  /-- 1: the word is illegal. -/
  | illegal
  /-- 2: ARG outside the command's range. -/
  | badarg
  /-- 3: TREE_VALID = 0. -/
  | notree
  /-- 4: every FREQ entry is 0. -/
  | empty
  /-- 5: the command is out of sequence. -/
  | seq
  /-- 6: the symbol to encode has no code; fatal. -/
  | nocode
  deriving DecidableEq, Repr

/-- Everything the block holds between commands (10_state.md), with the host's program (R21). Plain data. -/
structure State where
  /-- The command words the host writes, in order (R21, 70_reset_and_hazards.md R211). -/
  prog : List Word
  /-- The program position: the index in `prog` of the next word (R21). -/
  pos : Nat
  /-- FREQ[0..256] (R24). -/
  freq : Vector Freq Config.nsym
  /-- The internal node slots: index k is slot 257 + k (R25, R27). Leaf slots have no storage (R26). -/
  nodes : Vector Node Config.ninternal
  /-- ROOT (R28). -/
  root : NodeIdx
  /-- NLEAF (R29). -/
  nleaf : BitVec 9
  /-- TREE_VALID (R30). -/
  treeValid : Bool
  /-- The code table, entries 0..256 (R33). -/
  code : Vector CodeEntry Config.nsym
  /-- ACC, the shift accumulator (R36). -/
  acc : BitVec 8
  /-- ACC_CNT, the number of bits in ACC (R36). -/
  accCnt : BitVec 3
  /-- ENC_OPEN: an encode stream is open (R36). -/
  encOpen : Bool
  /-- EOUT_REG, the last byte the encoder emitted (R36). -/
  eoutReg : Byte
  /-- DEC_STATE (R37). -/
  decState : DecState
  /-- CUR, the cursor (R38). -/
  cur : NodeIdx
  /-- DOUT_REG, the last byte the decoder emitted (R39). -/
  doutReg : Byte
  /-- EOUT, the encoder's output channel, oldest byte first (R40). -/
  eout : List Byte
  /-- DOUT, the decoder's output channel, oldest byte first (R40). -/
  dout : List Byte
  /-- ERR_CODE (R42). -/
  errCode : ErrCode
  /-- FATAL (R42). -/
  fatal : Bool
  /-- BUSY (R44): 0 at every state the model reaches (log 3). -/
  busy : Bool
  /-- The model's own, not the spec's: how many readbacks there have been since power-on, each with a free word of its
  own (log 7). -/
  draws : Nat
  deriving DecidableEq, Repr

/-- The state after reset (10_state.md R47). The internal node slots and the code table are unspecified there:
the model holds zeros in them (DESIGN CHOICE, unsafe: log 4, log 5), and the readback port answers a free value
for them (20_memory.md R56). No word has been written yet (log 1), and no readback has been made (log 7). -/
def State.reset : State where
  prog := []
  pos := 0
  freq := (Vector.replicate Config.nsym 0#32).set Config.eob 1#32
  nodes := Vector.replicate Config.ninternal ⟨0#10, 0#10, 0#41⟩
  root := Config.noNode
  nleaf := 0#9
  treeValid := false
  code := Vector.replicate Config.nsym ⟨false, 0#9, 0#256⟩
  acc := 0#8
  accCnt := 0#3
  encOpen := false
  eoutReg := 0#8
  decState := .idle
  cur := Config.noNode
  doutReg := 0#8
  eout := []
  dout := []
  errCode := .none
  fatal := false
  busy := false
  draws := 0

/-- Why a step stops with a fault. -/
inductive Fault where
  /-- Raised by DEC_BYTE when it must read the children of CUR and CUR names no node slot (513..1023), which
  10_state.md R25 says never occurs. Safe: no state that a run reaches raises it (log 12). -/
  | noSuchNode (index : NodeIdx)
  deriving DecidableEq, Repr

/-- Why a step is refused. -/
inductive Refusal where
  /-- Raised by `exec` for an instruction that has no meaning yet; no arm raises it now. Safe. -/
  | notModelled (mnemonic : String)
  deriving DecidableEq, Repr

end Sys2Proof.Machine
end

