-- ==== Sys2Proof/Machine/Flags.lean ====
section
/-! DEFINITION. The status fields: their codes, the STATUS register (10_state.md R43), and the conditions that the
commands check. -/

namespace Sys2Proof.Machine

/-- The 3-bit value of DEC_STATE (10_state.md R37). -/
def decStateBits : DecState → BitVec 3
  | .idle => 0#3
  | .run => 1#3
  | .done => 2#3
  | .trunc => 3#3
  | .malformed => 4#3

/-- The 4-bit value of ERR_CODE (60_exceptions.md R180). -/
def errCodeBits : ErrCode → BitVec 4
  | .none => 0#4
  | .illegal => 1#4
  | .badarg => 2#4
  | .notree => 3#4
  | .empty => 4#4
  | .seq => 5#4
  | .nocode => 6#4

/-- Which errors are fatal: NOCODE alone (60_exceptions.md R180). -/
def errIsFatal : ErrCode → Bool
  | .nocode => true
  | .none | .illegal | .badarg | .notree | .empty | .seq => false

/-- The stopped states of the decoder: DONE, TRUNC, MALFORMED (10_state.md R37). -/
def decStopped : DecState → Bool
  | .idle | .run => false
  | .done | .trunc | .malformed => true

/-- A stream is open: `ENC_OPEN = 1` or `DEC_STATE = RUN` (70_reset_and_hazards.md R206). -/
def streamOpen (s : State) : Bool := s.encOpen || decide (s.decState = .run)

/-- STATUS, a view of the registers: bits 63:14 read 0 (10_state.md R43). -/
def statusWord (s : State) : Word :=
  0#50 ++ BitVec.ofBool s.busy ++ BitVec.ofBool s.fatal ++ errCodeBits s.errCode ++ decStateBits s.decState
    ++ s.accCnt ++ BitVec.ofBool s.encOpen ++ BitVec.ofBool s.treeValid

end Sys2Proof.Machine
end

