-- ==== Sys2Proof/Machine/Operands.lean ====
section
/-! DEFINITION. The operand forms of the commands: immediates only (30_encoding.md R72), and the bit order of a
byte and of a code. -/

namespace Sys2Proof.Machine

/-- ARG names a symbol: 0..256 (30_encoding.md R72, LDFREQ). -/
def symbolInRange (arg : Arg) : Bool := decide (arg.toNat < Config.nsym)

/-- ARG is a byte: 0..255 (30_encoding.md R72, ENC and DEC_BYTE). -/
def byteInRange (arg : Arg) : Bool := decide (arg.toNat < Config.nbyte)

/-- The byte an ARG in range holds. -/
def argByte (arg : Arg) : Byte := arg.setWidth 8

/-- Bits `n-1` down to 0 of a word, in the order a shifter takes them: `for j from n - 1 downto 0`. -/
def bitsDown {w : Nat} (v : BitVec w) : Nat → List Bool
  | 0 => []
  | j + 1 => v.getLsbD j :: bitsDown v j

/-- The bits of a body byte, most significant first (20_memory.md R51, R52). -/
def byteBits (b : Byte) : List Bool := bitsDown b 8

/-- The bits of a code, first bit first: `CODE_BITS[CODE_LEN - 1]` down to `CODE_BITS[0]` (10_state.md R33,
42_encoder.md R132). -/
def codeBits (e : CodeEntry) : List Bool := bitsDown e.bits e.len.toNat

/-- One bit as a word of width `w`. -/
def bitValue (w : Nat) (v : Bool) : BitVec w := (BitVec.ofBool v).setWidth w

end Sys2Proof.Machine
end

