-- ==== Sys2Proof/Machine/Ops.lean ====
section
/-! DEFINITION. The shared operations: access to the tables, the output channels, and raising and clearing an error
(60_exceptions.md). -/

namespace Sys2Proof.Machine

/-- What a command answers. -/
abbrev Result := Host.Outcome State Fault Refusal

/-- Entry `i` of a table; `d` where the table has no such entry. -/
def entry {α : Type} {n : Nat} (d : α) (v : Vector α n) (i : Nat) : α := (v[i]?).getD d

/-- FREQ[s] (10_state.md R24). -/
def freqAt (s : State) (sym : Nat) : Freq := entry 0#32 s.freq sym

/-- FREQ[s] <- count. -/
def setFreq (s : State) (sym : Nat) (count : Freq) : State :=
  { s with freq := s.freq.setIfInBounds sym count }

/-- An absent code table entry holds CODE_LEN = 0 and CODE_BITS = 0 (10_state.md R33). -/
def absentCode : CodeEntry := ⟨false, 0#9, 0#256⟩

/-- The code table entry of a symbol (10_state.md R33). -/
def codeAt (s : State) (sym : Nat) : CodeEntry := entry absentCode s.code sym

/-- What `internalNode` answers for an index that names no internal slot; no command uses it. -/
def noSlot : Node := ⟨Config.noNode, Config.noNode, 0#41⟩

/-- The internal slot of node index `i`, 257..512 (10_state.md R25, R27). -/
def internalNode (s : State) (i : NodeIdx) : Node := entry noSlot s.nodes (i.toNat - Config.nsym)

/-- The node index is that of a leaf, 0..256 (10_state.md R26). -/
def isLeaf (i : NodeIdx) : Bool := decide (i.toNat < Config.nsym)

/-- The node index names a slot, 0..512 (10_state.md R25). -/
def namesSlot (i : NodeIdx) : Bool := decide (i.toNat < Config.nnode)

/-- LEFT[i]; a leaf's reads as NONE (10_state.md R26, R27). -/
def nodeLeft (s : State) (i : NodeIdx) : NodeIdx :=
  if isLeaf i then Config.noNode else (internalNode s i).left

/-- RIGHT[i]; a leaf's reads as NONE (10_state.md R26, R27). -/
def nodeRight (s : State) (i : NodeIdx) : NodeIdx :=
  if isLeaf i then Config.noNode else (internalNode s i).right

/-- COUNT[i]; a leaf's is `zext_41(FREQ[i])` (10_state.md R26, R27). -/
def nodeCount (s : State) (i : NodeIdx) : Count :=
  if isLeaf i then (freqAt s i.toNat).setWidth 41 else (internalNode s i).count

/-- Write the internal slot 257 + k (10_state.md R27). -/
def setNode (s : State) (k : Nat) (n : Node) : State := { s with nodes := s.nodes.setIfInBounds k n }

/-- The child a bit leads to: left on 0, right on 1 (10_state.md R27). -/
def childOn (s : State) (v : Bool) (i : NodeIdx) : NodeIdx := if v then nodeRight s i else nodeLeft s i

/-- IN_TREE of node `i`: a leaf iff `FREQ[i] > 0`, an internal slot iff `i <= 255 + NLEAF`, while TREE_VALID
(10_state.md R26, R27). -/
def inTree (s : State) (i : Nat) : Bool :=
  s.treeValid && (if i < Config.nsym then decide (0 < (freqAt s i).toNat) else decide (i ≤ 255 + s.nleaf.toNat))

/-- `emit_E(b)`: append to EOUT and write EOUT_REG (10_state.md R40). -/
def emitE (b : Byte) (s : State) : State := { s with eout := s.eout ++ [b], eoutReg := b }

/-- `emit_D(b)`: append to DOUT and write DOUT_REG (10_state.md R40). -/
def emitD (b : Byte) (s : State) : State := { s with dout := s.dout ++ [b], doutReg := b }

/-- `raise Error(E)`: only the first error since reset or CLRERR is recorded (60_exceptions.md R181). -/
def raiseError (e : ErrCode) (s : State) : State :=
  if s.errCode = .none then { s with errCode := e } else s

/-- `raise Fatal(NOCODE)`: `ERR_CODE <- 6` whatever it held, `FATAL <- 1` (60_exceptions.md R183). -/
def raiseFatal (s : State) : State := { s with errCode := .nocode, fatal := true }

/-- Taking an error, the block's only exception: fatal or not by its code, no other state changes
(60_exceptions.md R180, R181, R183, R188). -/
def raiseErr (e : ErrCode) (s : State) : State := if errIsFatal e then raiseFatal s else raiseError e s

/-- The return from an error: `ERR_CODE <- 0`; nothing else to restore (60_exceptions.md R189). -/
def clearErr (s : State) : State := { s with errCode := .none }

/-- The first check of a list that fails, by its error code. -/
def firstFailing : List (Bool × ErrCode) → Option ErrCode
  | [] => none
  | (fails, e) :: rest => if fails then some e else firstFailing rest

/-- The frame of every command (60_exceptions.md R184): dropped while FATAL (R185); else the first of its checks
that fails raises its error; else the command is performed. -/
def checked (s : State) (checks : List (Bool × ErrCode)) (perform : Result) : Result :=
  if s.fatal then .next s
  else
    match firstFailing checks with
    | some e => .next (raiseErr e s)
    | none => perform

/-- A word that is illegal: ILLEGAL, no other effect; dropped while FATAL (30_encoding.md R74, R75;
60_exceptions.md R184). -/
def rejectIllegal (s : State) : Result := checked s [(true, .illegal)] (.next s)

end Sys2Proof.Machine
end

