-- ==== Sys2Proof/Machine/Control.lean ====
section
/-! DEFINITION. NOP and CLRERR (44_control.md). -/

namespace Sys2Proof.Machine

/-- NOP: no state is written (44_control.md R170). -/
def execNop (s : State) : Result := checked s [] (.next s)

/-- CLRERR: `ERR_CODE <- 0` (44_control.md R172). -/
def execClrerr (s : State) : Result := checked s [] (.next (clearErr s))

end Sys2Proof.Machine
end

