-- ==== Sys2Proof/Machine/Decoder.lean ====
section
/-! DEFINITION. The bit-shift decoder: DEC_START, DEC_BYTE and DEC_END (43_decoder.md). -/

namespace Sys2Proof.Machine

/-- `emit_byte(s)`, s in 0..255 (43_decoder.md R154). -/
def emitByte (sym : NodeIdx) (s : State) : State := emitD (sym.setWidth 8) s

/-- `step(v)`: one move of the cursor (43_decoder.md R151). A CUR that names no slot has no children to read
(10_state.md R25): a fault (log 12). -/
def walkBit (v : Bool) (s : State) : Result :=
  if namesSlot s.cur then
    let nxt := childOn s v s.cur
    if nxt = Config.noNode then .next { s with decState := .malformed }
    else if nxt.toNat = Config.eob then .next { s with cur := nxt, decState := .done }
    else if nxt.toNat < Config.nbyte then .next { emitByte nxt s with cur := s.root }
    else .next { s with cur := nxt }
  else .fault (.noSuchNode s.cur)

/-- `for each bit: if DEC_STATE = RUN: step(bit)` (43_decoder.md R152). -/
def walkBits : List Bool → State → Result
  | [], s => .next s
  | v :: rest, s =>
    if s.decState = .run then
      match walkBit v s with
      | .next t => walkBits rest t
      | .fault r => .fault r
      | .refused r => .refused r
    else walkBits rest s

/-- DEC_START (43_decoder.md R150). -/
def execDecStart (s : State) : Result :=
  checked s [(!s.treeValid, .notree)]
    (.next { s with cur := s.root, decState := if s.root.toNat = Config.eob then .done else .run })

/-- DEC_BYTE byte (43_decoder.md R152). -/
def execDecByte (arg : Arg) (s : State) : Result :=
  checked s [(!byteInRange arg, .badarg), (decide (s.decState = .idle), .seq)]
    (walkBits (byteBits (argByte arg)) s)

/-- DEC_END (43_decoder.md R158). -/
def execDecEnd (s : State) : Result :=
  checked s [(decide (s.decState = .idle), .seq)]
    (.next (if s.decState = .run then { s with decState := .trunc } else s))

end Sys2Proof.Machine
end

