-- ==== Sys2Proof/Machine/Encoder.lean ====
section
/-! DEFINITION. The bit-shift encoder: ENC and ENC_END (42_encoder.md). -/

namespace Sys2Proof.Machine

/-- `put_bit(v)`: shift a bit into ACC; the eighth emits the byte (42_encoder.md R131). -/
def putBit (v : Bool) (s : State) : State :=
  let shifted := (s.acc <<< 1) ||| bitValue 8 v
  let count := s.accCnt.toNat + 1
  if count = 8 then { emitE shifted s with acc := 0#8, accCnt := 0#3 }
  else { s with acc := shifted, accCnt := BitVec.ofNat 3 count }

/-- Put a list of bits, first bit first. -/
def putBits : List Bool → State → State
  | [], s => s
  | v :: rest, s => putBits rest (putBit v s)

/-- `write_code(s)`: the code of a symbol, its first bit first (42_encoder.md R132). -/
def writeCode (sym : Nat) (s : State) : State := putBits (codeBits (codeAt s sym)) s

/-- `close()`: pad the partial byte with zero bits and flush it (42_encoder.md R135). -/
def closeStream (s : State) : State :=
  if 0 < s.accCnt.toNat then
    { emitE (s.acc <<< (8 - s.accCnt.toNat)) s with acc := 0#8, accCnt := 0#3 }
  else s

/-- ENC byte (42_encoder.md R130). -/
def execEnc (arg : Arg) (s : State) : Result :=
  checked s [(!byteInRange arg, .badarg), (!s.treeValid, .notree), (!(codeAt s arg.toNat).valid, .nocode)]
    (.next { writeCode arg.toNat s with encOpen := true })

/-- ENC_END: the end-of-block code, padding, flush, close (42_encoder.md R134). -/
def execEncEnd (s : State) : Result :=
  checked s [(!s.treeValid, .notree), (!(codeAt s Config.eob).valid, .nocode)]
    (.next { closeStream (writeCode Config.eob s) with encOpen := false })

end Sys2Proof.Machine
end

