-- ==== Sys2Proof/Machine/FreqTable.lean ====
section
/-! DEFINITION. CLEAR and LDFREQ (40_freq_table.md). -/

namespace Sys2Proof.Machine

/-- The pre-scan table: 0 for every byte, 1 for the end-of-block symbol (40_freq_table.md R100). -/
def preScanTable : Vector Freq Config.nsym := (Vector.replicate Config.nsym 0#32).set Config.eob 1#32

/-- CLEAR: FREQ <- the pre-scan table, `TREE_VALID <- 0` (40_freq_table.md R100). -/
def execClear (s : State) : Result :=
  checked s [(streamOpen s, .seq)] (.next { s with freq := preScanTable, treeValid := false })

/-- LDFREQ sym, count: `FREQ[sym] <- count`, `TREE_VALID <- 0` (40_freq_table.md R102). -/
def execLdfreq (sym : Arg) (count : Freq) (s : State) : Result :=
  checked s [(!symbolInRange sym, .badarg), (streamOpen s, .seq)]
    (.next { setFreq s sym.toNat count with treeValid := false })

end Sys2Proof.Machine
end

