-- ==== Sys2Proof/Machine/TreeBuilder.lean ====
section
/-! DEFINITION. BUILD: the priority-queue arbiter, the merges and the code table (41_tree_builder.md). The queue Q and
the merge counter k exist only inside one BUILD (10_state.md R45): here they are arguments. -/

namespace Sys2Proof.Machine

/-- One leaf per nonzero count of a list of counts, the first count being that of the symbol `sym`
(41_tree_builder.md R111). -/
def leavesFrom : Nat → List Freq → List NodeIdx
  | _, [] => []
  | sym, count :: rest =>
    if 0 < count.toNat then BitVec.ofNat 10 sym :: leavesFrom (sym + 1) rest else leavesFrom (sym + 1) rest

/-- The leaf queue: one leaf per symbol with a nonzero count, in symbol order (41_tree_builder.md R111). Q is a set;
its order as a list is not visible (log 13). -/
def leafQueue (s : State) : List NodeIdx := leavesFrom 0 s.freq.toList

/-- Node `i` precedes node `j`: the pair (COUNT, index) is lexicographically less, both unsigned
(41_tree_builder.md R112). -/
def precedes (s : State) (i j : NodeIdx) : Bool :=
  decide ((nodeCount s i).toNat < (nodeCount s j).toNat ∨
    ((nodeCount s i).toNat = (nodeCount s j).toNat ∧ i.toNat < j.toNat))

/-- The node of least key among `i` and the list (41_tree_builder.md R112). -/
def leastKeyed (s : State) : NodeIdx → List NodeIdx → NodeIdx
  | i, [] => i
  | i, j :: rest => leastKeyed s (if precedes s j i then j else i) rest

/-- `a <- grant(Q); Q <- Q \ {a}`: the granted node and the queue without it; none for the empty queue
(41_tree_builder.md R110, R112). -/
def grant (s : State) : List NodeIdx → Option (NodeIdx × List NodeIdx)
  | [] => none
  | i :: rest => some (leastKeyed s i rest, (i :: rest).erase (leastKeyed s i rest))

/-- The index of the slot the k-th merge writes: 257 + k (10_state.md R27). -/
def mergeIndex (k : Nat) : NodeIdx := BitVec.ofNat 10 (Config.nsym + k)

/-- The merge loop, `while |Q| > 1` (41_tree_builder.md R110, R113): the first granted node becomes LEFT, the second
RIGHT, COUNT is their sum. The first argument bounds the merges; |Q| is enough (R114; log 13). -/
def mergeLoop : Nat → List NodeIdx → Nat → State → List NodeIdx × State
  | 0, q, _, s => (q, s)
  | fuel + 1, q, k, s =>
    match grant s q with
    | none => (q, s)
    | some (a, q₁) =>
      match grant s q₁ with
      | none => (q, s)
      | some (b, q₂) =>
        mergeLoop fuel (mergeIndex k :: q₂) (k + 1) (setNode s k ⟨a, b, nodeCount s a + nodeCount s b⟩)

/-- `ROOT <- the only element of Q` (41_tree_builder.md R114). -/
def onlyElement : List NodeIdx → NodeIdx
  | [] => Config.noNode
  | i :: _ => i

/-- `visit(i, len, bits)` (41_tree_builder.md R117): a leaf records the path so far as its code, an internal node
visits left appending 0 and right appending 1 (`(bits << 1) | b` is `2 * bits + b`). The first argument bounds the
depth, which R122 bounds by 256 steps below the root (log 13). It reads the tree of `s` and writes the code table. -/
def visit (s : State) : Nat → NodeIdx → Nat → Nat → Vector CodeEntry Config.nsym → Vector CodeEntry Config.nsym
  | 0, _, _, _, table => table
  | depth + 1, i, len, bits, table =>
    if i = Config.noNode then table
    else if isLeaf i then table.setIfInBounds i.toNat ⟨true, BitVec.ofNat 9 len, BitVec.ofNat 256 bits⟩
    else
      visit s depth (nodeRight s i) (len + 1) (2 * bits + 1)
        (visit s depth (nodeLeft s i) (len + 1) (2 * bits) table)

/-- `gen_codes()`: every entry absent, then the traversal from ROOT (41_tree_builder.md R117). -/
def genCodes (s : State) : Vector CodeEntry Config.nsym :=
  visit s (Config.maxlen + 1) s.root 0 0 (Vector.replicate Config.nsym absentCode)

/-- The whole of BUILD after its checks (41_tree_builder.md R110): merges, NLEAF, ROOT, codes, TREE_VALID. -/
def buildTree (s : State) : State :=
  let q := leafQueue s
  let merged := mergeLoop q.length q 0 s
  let tree := { merged.2 with nleaf := BitVec.ofNat 9 q.length, root := onlyElement merged.1 }
  { tree with code := genCodes tree, treeValid := true }

/-- BUILD (41_tree_builder.md R110). -/
def execBuild (s : State) : Result :=
  checked s [(streamOpen s, .seq), ((leafQueue s).isEmpty, .empty)] (.next (buildTree s))

end Sys2Proof.Machine
end

