-- ==== Sys2Proof/Machine/Dispatch.lean ====
section
/-! DEFINITION. One arm per command (30_encoding.md R73). -/

namespace Sys2Proof.Machine

def exec (i : Instr) (s : State) : Host.Outcome State Fault Refusal :=
  match i with
  | .nop => Sys2Proof.Machine.execNop s
  | .clear => Sys2Proof.Machine.execClear s
  | .ldfreq sym count => Sys2Proof.Machine.execLdfreq sym count s
  | .build => Sys2Proof.Machine.execBuild s
  | .enc arg => Sys2Proof.Machine.execEnc arg s
  | .encEnd => Sys2Proof.Machine.execEncEnd s
  | .decStart => Sys2Proof.Machine.execDecStart s
  | .decByte arg => Sys2Proof.Machine.execDecByte arg s
  | .decEnd => Sys2Proof.Machine.execDecEnd s
  | .clrerr => Sys2Proof.Machine.execClrerr s

end Sys2Proof.Machine
end

