-- ==== Sys2Proof/Machine/Fetch.lean ====
section
/-! DEFINITION. The command port: which word the sequencer takes next, and the program position (10_state.md R21). -/

namespace Sys2Proof.Machine

/-- The next word at the command port: none when the host has written none beyond the position, and none while
BUSY = 1, when "the command port does not take the next word" (70_reset_and_hazards.md R209; log 2, log 3). -/
def nextWord (s : State) : Option Word := if s.busy then none else s.prog[s.pos]?

/-- The position advances by exactly 1 (10_state.md R21). -/
def advance (s : State) : State := { s with pos := s.pos + 1 }

/-- After the command: the position has advanced, whether it was rejected, dropped or performed (10_state.md R21). -/
def afterCommand : Result → Result
  | .next s => .next (advance s)
  | .fault r => .fault r
  | .refused r => .refused r

/-- The host writes one word to the command port (60_exceptions.md R195). -/
def writeCommand (w : Word) (s : State) : State := { s with prog := s.prog ++ [w] }

/-- Put `w` where the next step takes its word, padding a list that ends before the position with NOP words, and
BUSY = 0 (log 14). -/
def placeWord (w : Word) (s : State) : State :=
  { s with
    prog := s.prog.take s.pos ++ List.replicate (s.pos - s.prog.length) 0#64 ++ [w] ++ s.prog.drop (s.pos + 1)
    busy := false }

end Sys2Proof.Machine
end

