-- ==== Sys2Proof/Machine/Perform.lean ====
section
/-! DEFINITION. Performing one command word: its command, or ILLEGAL. -/

namespace Sys2Proof.Machine

/-- Perform one command word: its command, or ILLEGAL (30_encoding.md R74 to R76). -/
def performWord (w : Word) (s : State) : Host.Outcome State Fault Refusal :=
  match decode w with
  | .ok i => exec i s
  | .error _ => rejectIllegal s

end Sys2Proof.Machine
end

