-- ==== Sys2Proof/Machine/Step.lean ====
section
/-! DEFINITION. One step: take one command word and perform it to completion (20_memory.md R61). -/

namespace Sys2Proof.Machine

/-- One step of the block. With no word to take, the block "holds its state unchanged" (60_exceptions.md R196;
log 2). -/
def step (s : State) : Host.Outcome State Fault Refusal :=
  match nextWord s with
  | none => .next s
  | some w => afterCommand (performWord w s)

/-- `s` with the word whose low `nbits` bits are those of `w` (the others 0) as the next one the step takes
(log 14). -/
def State.withFetchWord (s : State) (nbits w : Nat) : State := placeWord (BitVec.ofNat 64 (w % 2 ^ nbits)) s

end Sys2Proof.Machine
end

