-- ==== Sys2Proof/WellFormed.lean ====
section
/-! DEFINITION. Which instructions are well formed: the operand ranges of 30_encoding.md R72, which an
assembler enforces (R78). An ill-formed instruction still has an encoding and a meaning: the error BADARG. -/

namespace Sys2Proof

/-- Every operand is in its command's valid range: a symbol 0..256 for LDFREQ, a byte 0..255 for ENC and
DEC_BYTE (30_encoding.md R72, R78). -/
def Instr.wellFormed : Instr → Bool
  | .nop => true
  | .clear => true
  | .ldfreq sym _ => decide (sym.toNat < Config.nsym)
  | .build => true
  | .enc arg => decide (arg.toNat < Config.nbyte)
  | .encEnd => true
  | .decStart => true
  | .decByte arg => decide (arg.toNat < Config.nbyte)
  | .decEnd => true
  | .clrerr => true

end Sys2Proof
end

