-- ==== Sys2Proof/Machine/Assembler.lean ====
section
/-! DEFINITION. The assembler of 30_encoding.md: its pseudo-commands (R79) and its syntax, one command a line (R78). Nothing
of the machine depends on it. -/

namespace Sys2Proof.Machine

/-- A byte as the ARG of ENC or DEC_BYTE. -/
def byteArg (b : Byte) : Arg := b.setWidth 9

/-- The pseudo-commands (30_encoding.md R79). -/
inductive Pseudo where
  /-- LDTABLE f0, ..., f256: exactly 257 counts. -/
  | ldtable (counts : Vector Freq Config.nsym)
  /-- ENCSTREAM b1, ..., bn. -/
  | encstream (bytes : List Byte)
  /-- DECSTREAM d1, ..., dm. -/
  | decstream (body : List Byte)
  deriving DecidableEq, Repr

/-- LDFREQ for each count in turn, from the given symbol on (30_encoding.md R79). -/
def loadCounts : Nat → List Freq → List Instr
  | _, [] => []
  | sym, count :: rest => .ldfreq (BitVec.ofNat 9 sym) count :: loadCounts (sym + 1) rest

/-- The expansion of a pseudo-command (30_encoding.md R79). -/
def expand : Pseudo → List Instr
  | .ldtable counts => loadCounts 0 counts.toList
  | .encstream bytes => bytes.map (fun b => .enc (byteArg b)) ++ [.encEnd]
  | .decstream body => .decStart :: body.map (fun b => .decByte (byteArg b)) ++ [.decEnd]

/-- A token of a line: a word, a character in single quotes, a comma. -/
inductive Token where
  /-- Letters, digits and underscores. -/
  | word (w : List Char)
  /-- A character in single quotes. -/
  | quoted (c : Char)
  /-- The separator of operands. -/
  | comma
  deriving DecidableEq, Repr

/-- A character of a word. -/
def isWordChar (c : Char) : Bool := c.isAlphanum || c == '_'

/-- The word read so far, if any, as a token. -/
def flushWord : List Char → List Token
  | [] => []
  | w => [.word w]

/-- The tokens of a line; `;` starts a comment (R78); none where a character fits no token (log 16). -/
def tokens : List Char → List Char → Option (List Token)
  | [], w => some (flushWord w)
  | '\'' :: c :: '\'' :: rest, w => (tokens rest []).map fun ts => flushWord w ++ .quoted c :: ts
  | c :: rest, w =>
    if c = ';' then some (flushWord w)
    else if c = ',' then (tokens rest []).map fun ts => flushWord w ++ .comma :: ts
    else if c = ' ' ∨ c = '\t' then (tokens rest []).map fun ts => flushWord w ++ ts
    else if isWordChar c then tokens rest (w ++ [c])
    else none

/-- The value of a digit in a base. -/
def digitValue (base : Nat) (c : Char) : Option Nat :=
  let v :=
    if '0' ≤ c ∧ c ≤ '9' then c.toNat - '0'.toNat
    else if 'a' ≤ c ∧ c ≤ 'f' then c.toNat - 'a'.toNat + 10
    else if 'A' ≤ c ∧ c ≤ 'F' then c.toNat - 'A'.toNat + 10
    else base
  if v < base then some v else none

/-- The number a list of digits writes, most significant first. -/
def digitsValue (base : Nat) : Nat → List Char → Option Nat
  | n, [] => some n
  | n, c :: rest =>
    match digitValue base c with
    | some d => digitsValue base (base * n + d) rest
    | none => none

/-- "A number is decimal or `0x` hexadecimal" (30_encoding.md R78). -/
def numberValue : List Char → Option Nat
  | [] => none
  | '0' :: 'x' :: [] => none
  | '0' :: 'x' :: ds => digitsValue 16 0 ds
  | ds => digitsValue 10 0 ds

/-- A number operand. -/
def numberOf : Token → Option Nat
  | .word w => numberValue w
  | .quoted _ => none
  | .comma => none

/-- A byte operand: a number or a quoted character, meaning its ASCII code (30_encoding.md R78). -/
def byteOf : Token → Option Nat
  | .word w => numberValue w
  | .quoted c => if c.toNat < 128 then some c.toNat else none
  | .comma => none

/-- A symbol operand: a byte operand or EOB, the symbol 256 (30_encoding.md R78). -/
def symbolOf : Token → Option Nat
  | .word w => if w = ['E', 'O', 'B'] then some Config.eob else numberValue w
  | .quoted c => byteOf (.quoted c)
  | .comma => none

/-- Operands separated by commas. -/
def operands : List Token → Option (List Token)
  | [] => some []
  | [t] => if t = .comma then none else some [t]
  | t :: sep :: u :: rest =>
    if t ≠ .comma ∧ sep = .comma then (operands (u :: rest)).map (t :: ·) else none
  | [_, _] => none

/-- A value in a range, or a refusal ("an assembler refuses an operand outside these ranges", R78). -/
def inBound (bound : Nat) (v : Option Nat) : Option Nat := v.filter fun n => decide (n < bound)

/-- The values of a list of operands, each below a bound; none if one is not. -/
def valuesOf (value : Token → Option Nat) (bound : Nat) : List Token → Option (List Nat)
  | [] => some []
  | t :: ts =>
    match inBound bound (value t), valuesOf value bound ts with
    | some n, some ns => some (n :: ns)
    | _, _ => none

/-- A command without operands. -/
def plainLine (i : Instr) (ops : List Token) : Option (List Instr) :=
  match ops with
  | [] => some [i]
  | _ :: _ => none

/-- A command with one byte operand. -/
def byteLine (mk : Arg → Instr) (ops : List Token) : Option (List Instr) :=
  match ops with
  | [t] => (inBound Config.nbyte (byteOf t)).map fun n => [mk (BitVec.ofNat 9 n)]
  | _ => none

/-- `LDFREQ sym, count` (30_encoding.md R78). -/
def ldfreqLine (ops : List Token) : Option (List Instr) :=
  match ops with
  | [t, u] =>
    match inBound Config.nsym (symbolOf t), inBound (2 ^ 32) (numberOf u) with
    | some sym, some count => some [.ldfreq (BitVec.ofNat 9 sym) (BitVec.ofNat 32 count)]
    | _, _ => none
  | _ => none

/-- `LDTABLE` with exactly 257 counts (30_encoding.md R79). -/
def ldtableLine (ops : List Token) : Option (List Instr) :=
  match valuesOf numberOf (2 ^ 32) ops with
  | some ns =>
    if h : (ns.map (BitVec.ofNat 32)).length = Config.nsym then
      some (expand (.ldtable ⟨(ns.map (BitVec.ofNat 32)).toArray, by simpa using h⟩))
    else none
  | none => none

/-- `ENCSTREAM` or `DECSTREAM` (30_encoding.md R79). -/
def streamLine (mk : List Byte → Pseudo) (ops : List Token) : Option (List Instr) :=
  (valuesOf byteOf Config.nbyte ops).map fun ns => expand (mk (ns.map (BitVec.ofNat 8)))

/-- The commands of one line by its mnemonic; none for a mnemonic that does not exist or operands it refuses. -/
def commandLine (mnemonic : List Char) (ops : List Token) : Option (List Instr) :=
  if mnemonic = "NOP".toList then plainLine .nop ops
  else if mnemonic = "CLEAR".toList then plainLine .clear ops
  else if mnemonic = "LDFREQ".toList then ldfreqLine ops
  else if mnemonic = "BUILD".toList then plainLine .build ops
  else if mnemonic = "ENC".toList then byteLine .enc ops
  else if mnemonic = "ENC_END".toList then plainLine .encEnd ops
  else if mnemonic = "DEC_START".toList then plainLine .decStart ops
  else if mnemonic = "DEC_BYTE".toList then byteLine .decByte ops
  else if mnemonic = "DEC_END".toList then plainLine .decEnd ops
  else if mnemonic = "CLRERR".toList then plainLine .clrerr ops
  else if mnemonic = "LDTABLE".toList then ldtableLine ops
  else if mnemonic = "ENCSTREAM".toList then streamLine .encstream ops
  else if mnemonic = "DECSTREAM".toList then streamLine .decstream ops
  else none

/-- The commands of one line of assembly text; an empty line gives none of them (30_encoding.md R78, R79). -/
def assembleLine (line : List Char) : Option (List Instr) :=
  match tokens line [] with
  | none => none
  | some [] => some []
  | some (.word m :: rest) => (operands rest).bind (commandLine m)
  | some (.quoted _ :: _) => none
  | some (.comma :: _) => none

/-- The command words of a program text, line by line. -/
def assemble : List (List Char) → Option (List Word)
  | [] => some []
  | line :: rest =>
    match assembleLine line, assemble rest with
    | some is, some ws => some (is.map encode ++ ws)
    | _, _ => none

end Sys2Proof.Machine
end

