-- ==== Sys2Proof/Machine/Port.lean ====
section
/-! DEFINITION. The host interface (60_exceptions.md R195): the readback port, draining a channel, reset, and the host
bus. These are the host's moves; none of them is a step of the machine. -/

namespace Sys2Proof.Machine

/-- The NODE word of slot `i`, 0..512 (20_memory.md R55): COUNT at 63:23, bit 22 is 0, IN_TREE, IS_LEAF, RIGHT at
19:10, LEFT at 9:0. LEFT, RIGHT and COUNT of an internal slot that is not in the tree are any value (R56), taken
from `any`. -/
def nodeWord (any : Word) (s : State) (i : Nat) : Word :=
  let idx : NodeIdx := BitVec.ofNat 10 i
  let defined := isLeaf idx || inTree s i
  let left : NodeIdx := if defined then nodeLeft s idx else any.extractLsb' 0 10
  let right : NodeIdx := if defined then nodeRight s idx else any.extractLsb' 10 10
  let count : Count := if defined then nodeCount s idx else any.extractLsb' 23 41
  count ++ 0#1 ++ BitVec.ofBool (inTree s i) ++ BitVec.ofBool (isLeaf idx) ++ right ++ left

/-- The CODE_META word of a symbol (20_memory.md R55): CODE_LEN at 8:0, CODE_VALID at 9. -/
def codeMetaWord (s : State) (sym : Nat) : Word :=
  0#54 ++ BitVec.ofBool (codeAt s sym).valid ++ (codeAt s sym).len

/-- Word k of CODE_BITS of a symbol, k = 0..3 (20_memory.md R55). -/
def codeBitsWord (s : State) (sym k : Nat) : Word := (codeAt s sym).bits.extractLsb' (64 * k) 64

/-- `MemRead(addr, 8)`: the readback map (20_memory.md R55), with the any-value cases of R56 answered by `any`.
A word of the code table while `TREE_VALID = 0` is any value whole (log 6). -/
def memRead (any : Word) (s : State) (addr : RbAddr) : Word :=
  let a := addr.toNat
  if a = 0x0000 then statusWord s
  else if s.busy then any
  else if a = 0x0001 then s.root.setWidth 64
  else if a = 0x0002 then s.nleaf.setWidth 64
  else if a = 0x0003 then s.acc.setWidth 64
  else if a = 0x0004 then s.cur.setWidth 64
  else if a = 0x0005 then s.eoutReg.setWidth 64
  else if a = 0x0006 then s.doutReg.setWidth 64
  else if 0x0100 ≤ a ∧ a ≤ 0x0200 then (freqAt s (a - 0x0100)).setWidth 64
  else if 0x1000 ≤ a ∧ a ≤ 0x1200 then nodeWord any s (a - 0x1000)
  else if 0x2000 ≤ a ∧ a ≤ 0x2100 then
    if s.treeValid then codeMetaWord s (a - 0x2000) else any
  else if 0x3000 ≤ a ∧ a ≤ 0x3403 then
    if s.treeValid then codeBitsWord s ((a - 0x3000) / 4) ((a - 0x3000) % 4) else any
  else 0#64

/-- The host reads the readback port: the any-value word is the next free draw, and only the model's own counter of
draws moves ("no readback has a side effect", 20_memory.md R57). Every read takes a draw of its own, so that no two
reads need agree in the any-value cases (log 7). -/
def readPort (addr : RbAddr) (s : State) : Word × State :=
  (memRead (Config.anyWord s.draws) s addr, { s with draws := s.draws + 1 })

/-- The host drains EOUT: the oldest byte, removed (10_state.md R40, 60_exceptions.md R195); none from an empty
channel (log 10). -/
def drainE (s : State) : Option Byte × State :=
  match s.eout with
  | [] => (none, s)
  | b :: rest => (some b, { s with eout := rest })

/-- The host drains DOUT: the oldest byte, removed (10_state.md R40, 60_exceptions.md R195). -/
def drainD (s : State) : Option Byte × State :=
  match s.dout with
  | [] => (none, s)
  | b :: rest => (some b, { s with dout := rest })

/-- The host asserts reset, at any time, from any state, FATAL included (70_reset_and_hazards.md R200). It leaves the
reset state: the tables that R47 leaves unspecified hold the model's own values (DESIGN CHOICE, unsafe: log 4, log 5),
and the host's list of words is empty (DESIGN CHOICE, log 11). The model's counter of free draws goes on, so that no
read after the reset repeats a draw made before it (DESIGN CHOICE, log 7; 20_memory.md R57). -/
def assertReset (s : State) : State := { State.reset with draws := s.draws }

/-- What the host can do to the block (60_exceptions.md R195). -/
inductive HostMove where
  /-- Write one command word. -/
  | write (w : Word)
  /-- Read the readback port. -/
  | read (addr : RbAddr)
  /-- Drain one byte of EOUT. -/
  | drainEout
  /-- Drain one byte of DOUT. -/
  | drainDout
  /-- Assert reset. -/
  | reset
  deriving DecidableEq, Repr

/-- What the host gets back (60_exceptions.md R195). -/
inductive HostReply where
  /-- Nothing directly. -/
  | nothing
  /-- A readback word. -/
  | word (w : Word)
  /-- The oldest byte of a channel, none when it is empty. -/
  | byte (b : Option Byte)
  deriving DecidableEq, Repr

/-- A move of the host on the block (60_exceptions.md R195). -/
def hostMove : HostMove → State → HostReply × State
  | .write w, s => (.nothing, writeCommand w s)
  | .read addr, s => (.word (readPort addr s).1, (readPort addr s).2)
  | .drainEout, s => (.byte (drainE s).1, (drainE s).2)
  | .drainDout, s => (.byte (drainD s).1, (drainD s).2)
  | .reset, s => (.nothing, assertReset s)

/-- Byte `j` of a word, byte 0 the least significant. -/
def wordByte (w : Word) (j : Fin 8) : Byte := w.extractLsb' (8 * j.val) 8

/-- A 64-bit word as the eight byte lanes of a host bus of the given order carry it (20_memory.md R53). -/
def wordToBus (order : Equiv.Perm (Fin 8)) (w : Word) : Vector Byte 8 :=
  Vector.ofFn fun lane => wordByte w (order lane)

/-- The 64-bit word the block sees, assembled from the eight byte lanes (20_memory.md R53, R54). -/
def wordFromBus (order : Equiv.Perm (Fin 8)) (lanes : Vector Byte 8) : Word :=
  let byte (j : Fin 8) : Byte := lanes[(order.symm j).val]
  byte 7 ++ byte 6 ++ byte 5 ++ byte 4 ++ byte 3 ++ byte 2 ++ byte 1 ++ byte 0

/-- The host writes a command word over its bus (20_memory.md R53, R54). -/
def busWriteCommand (lanes : Vector Byte 8) (s : State) : State :=
  writeCommand (wordFromBus Config.hostBusOrder lanes) s

/-- The host reads the readback port over its bus (20_memory.md R53). -/
def busRead (addr : RbAddr) (s : State) : Vector Byte 8 × State :=
  (wordToBus Config.hostBusOrder (readPort addr s).1, (readPort addr s).2)

end Sys2Proof.Machine
end

