-- ==== Sys2Proof/Safety.lean ====
section
/-! DEFINITION. Runs and their ends (70_reset_and_hazards.md R211), what a stream has sent, and the invariants that the
states between commands keep (10_state.md R28, R30, R31, R33, R38, R46). -/

namespace Sys2Proof.Machine

/-- Reset, from any state, then the host's list of command words (R211). -/
def loadProgram (s : State) (ws : List Word) : State := { assertReset s with prog := ws }

/-- The run of a list of command words from a reset in any state, one step a word (R211, 20_memory.md R61). -/
def runWords (s : State) (ws : List Word) : Host.Outcome State Fault Refusal :=
  Sys2Proof.core.run ws.length (loadProgram s ws)

/-- "The run ends when the program position equals n" (R211). -/
abbrev atEnd (s : State) : Prop := s.pos = s.prog.length

/-- "A run ends cleanly when FATAL = 0 at its end" (R211). -/
abbrev endsCleanly (s : State) : Prop := atEnd s ∧ s.fatal = false

/-- "It ends faulted when FATAL = 1" (R211); the fatal state is never a final one (60_exceptions.md R185). -/
abbrev endsFaulted (s : State) : Prop := atEnd s ∧ s.fatal = true

/-- "A decode stream inside a run has finished when DEC_STATE is DONE, TRUNC or MALFORMED" (R211). -/
abbrev decodeFinished (s : State) : Prop := decStopped s.decState = true

/-- R56: the readback of this address is any value, in one of its fields or whole. -/
def readsAnyValue (s : State) (addr : RbAddr) : Bool :=
  (decide (addr ≠ 0#16) && s.busy)
    || (decide (0x1000 + Config.nsym ≤ addr.toNat ∧ addr.toNat ≤ 0x1200) && !inTree s (addr.toNat - 0x1000))
    || (decide ((0x2000 ≤ addr.toNat ∧ addr.toNat ≤ 0x2100) ∨ (0x3000 ≤ addr.toNat ∧ addr.toNat ≤ 0x3403))
        && !s.treeValid)

/-- Every bit the encoder has written that the host has not drained: the bytes of EOUT, most significant bit first,
then the bits that wait in ACC, oldest first (10_state.md R36, 20_memory.md R51). -/
def sentBits (s : State) : List Bool := s.eout.flatMap byteBits ++ bitsDown s.acc s.accCnt.toNat

/-- The node that a bit string leads to from a node, by LEFT on 0 and RIGHT on 1; NONE once off the tree. -/
def pathEnd (s : State) : NodeIdx → List Bool → NodeIdx
  | i, [] => i
  | i, v :: rest => pathEnd s (childOn s v i) rest

/-- The invariants of 10_state.md R46, R36 and R44 over the registers. -/
abbrev RegistersConsistent (s : State) : Prop :=
  (s.decState = .run → s.treeValid = true) ∧
  (s.encOpen = true → s.treeValid = true) ∧
  (s.fatal = true → s.errCode = .nocode) ∧
  (s.encOpen = false → s.accCnt = 0#3) ∧
  s.acc.toNat < 2 ^ s.accCnt.toNat ∧
  s.busy = false

/-- 10_state.md R28, R29: NLEAF counts the leaves, and ROOT is the one leaf or the last internal slot. -/
def RootIsTop (s : State) : Prop :=
  s.treeValid = true →
    s.nleaf.toNat = (leafQueue s).length ∧
    0 < s.nleaf.toNat ∧
    inTree s s.root.toNat = true ∧
    (if s.nleaf.toNat = 1 then isLeaf s.root = true else s.root.toNat = 255 + s.nleaf.toNat)

/-- 10_state.md R31: both children of every internal node in the tree are in the tree, and were made before it
(41_tree_builder.md R113). -/
def TreeIsFull (s : State) : Prop :=
  s.treeValid = true →
    ∀ i : NodeIdx, Config.nsym ≤ i.toNat → inTree s i.toNat = true →
      inTree s (nodeLeft s i).toNat = true ∧ inTree s (nodeRight s i).toNat = true ∧
      (nodeLeft s i).toNat < i.toNat ∧ (nodeRight s i).toNat < i.toNat

/-- `j` is a child of the internal node `i` in the tree. -/
def isParent (s : State) (i j : NodeIdx) : Prop :=
  Config.nsym ≤ i.toNat ∧ inTree s i.toNat = true ∧ (nodeLeft s i = j ∨ nodeRight s i = j)

/-- 10_state.md R31: "every node in the tree but ROOT is the child of exactly one internal node". -/
def OneParent (s : State) : Prop :=
  s.treeValid = true →
    ∀ j : NodeIdx, inTree s j.toNat = true → j ≠ s.root →
      ∃ i, isParent s i j ∧ ∀ i', isParent s i' j → i' = i

/-- 10_state.md R27, 41_tree_builder.md R116: COUNT of an internal node is the exact sum of its children's. -/
def CountsAreSums (s : State) : Prop :=
  s.treeValid = true →
    ∀ i : NodeIdx, Config.nsym ≤ i.toNat → inTree s i.toNat = true →
      (nodeCount s i).toNat = (nodeCount s (nodeLeft s i)).toNat + (nodeCount s (nodeRight s i)).toNat

/-- 10_state.md R33, 41_tree_builder.md R117: a code is present exactly for the leaves in the tree, it is the path from
ROOT to its leaf, the bits above its length are 0, and an absent entry holds length 0 and bits 0. -/
def CodesFollowTree (s : State) : Prop :=
  s.treeValid = true →
    ∀ sym : Nat, sym < Config.nsym →
      ((codeAt s sym).valid = true ↔ inTree s sym = true) ∧
      ((codeAt s sym).valid = true → (pathEnd s s.root (codeBits (codeAt s sym))).toNat = sym) ∧
      (codeAt s sym).bits.toNat < 2 ^ (codeAt s sym).len.toNat ∧
      ((codeAt s sym).valid = false → codeAt s sym = absentCode)

/-- 41_tree_builder.md R122: every present code has length at most NLEAF - 1. -/
def CodesAreShort (s : State) : Prop :=
  s.treeValid = true →
    ∀ sym : Nat, sym < Config.nsym → (codeAt s sym).valid = true → (codeAt s sym).len.toNat < s.nleaf.toNat

/-- 10_state.md R30: "While it is 1, the tree and the code table are the ones BUILD computed from the current FREQ":
building again changes nothing. -/
def TreeIsBuilt (s : State) : Prop :=
  s.treeValid = true → leafQueue s ≠ [] ∧ buildTree s = s

/-- 10_state.md R38: in RUN the cursor is a node of the tree, in DONE it is 256. -/
def CursorInTree (s : State) : Prop :=
  (s.decState = .run → inTree s s.cur.toNat = true) ∧ (s.decState = .done → s.cur.toNat = Config.eob)

/-- The invariants that together keep a walk on the tree (10_state.md R28, R31, R38, R46). -/
def BlockInvariant (s : State) : Prop := RegistersConsistent s ∧ RootIsTop s ∧ TreeIsFull s ∧ CursorInTree s

/-! ### What errors leave, and streams of commands -/

/-- After a non-fatal error: only ERR_CODE may have changed, and only from 0 (60_exceptions.md R181). -/
def afterError (e : ErrCode) (s : State) : State :=
  { s with errCode := if s.errCode = .none then e else s.errCode }

/-- After the fatal error: `ERR_CODE <- 6`, `FATAL <- 1`, no other state changes (60_exceptions.md R183). -/
def afterFatal (s : State) : State := { s with errCode := .nocode, fatal := true }

/-- The host has filled the block's command port with a list of commands: they are performed left to right
(20_memory.md R61). -/
def execAll : List Instr → State → Host.Outcome State Fault Refusal
  | [], s => .next s
  | i :: rest, s =>
    match exec i s with
    | .next t => execAll rest t
    | .fault r => .fault r
    | .refused r => .refused r

/-- The answer of a command, changed by a function of its next state. -/
def mapNext (f : State → State) : Host.Outcome State Fault Refusal → Host.Outcome State Fault Refusal
  | .next s => .next (f s)
  | .fault r => .fault r
  | .refused r => .refused r

/-- The same state with another decoder: DEC_STATE, CUR, DOUT_REG, DOUT (10_state.md R37 to R40). -/
def withDecoder (d : State) (s : State) : State :=
  { s with decState := d.decState, cur := d.cur, doutReg := d.doutReg, dout := d.dout }

/-- The same state with another encoder: ACC, ACC_CNT, ENC_OPEN, EOUT_REG, EOUT (10_state.md R36, R40). -/
def withEncoder (e : State) (s : State) : State :=
  { s with acc := e.acc, accCnt := e.accCnt, encOpen := e.encOpen, eoutReg := e.eoutReg, eout := e.eout }

/-! ### The tree, declaratively -/

/-- Before the k-th merge node `j` is queued: it is a leaf with a nonzero count or a slot already written, and no
earlier merge took it (41_tree_builder.md R111, R113). -/
def queuedBefore (s : State) (k : Nat) (j : NodeIdx) : Prop :=
  ((j.toNat < Config.nsym ∧ 0 < (freqAt s j.toNat).toNat) ∨ (Config.nsym ≤ j.toNat ∧ j.toNat < Config.nsym + k)) ∧
  ∀ m, m < k → nodeLeft s (mergeIndex m) ≠ j ∧ nodeRight s (mergeIndex m) ≠ j

/-- The k-th merge took the two queued nodes of least key, the least as LEFT and the next as RIGHT, and COUNT is
their sum (41_tree_builder.md R112, R113). -/
def mergesTheTwoLeast (s : State) (k : Nat) : Prop :=
  let a := nodeLeft s (mergeIndex k)
  let b := nodeRight s (mergeIndex k)
  queuedBefore s k a ∧ queuedBefore s k b ∧ a ≠ b ∧
  (∀ j, queuedBefore s k j → j ≠ a → precedes s a j = true) ∧
  (∀ j, queuedBefore s k j → j ≠ a → j ≠ b → precedes s b j = true) ∧
  (nodeCount s (mergeIndex k)).toNat = (nodeCount s a).toNat + (nodeCount s b).toNat

/-- Two states that agree in all but what the spec leaves unspecified: the internal slots that are not in the tree, and
the code table while TREE_VALID = 0 (10_state.md R30, R47). -/
def SameButUnspecified (s t : State) : Prop :=
  t = { s with nodes := t.nodes, code := t.code } ∧
  (∀ m, m < Config.ninternal → inTree s (Config.nsym + m) = true → entry noSlot t.nodes m = entry noSlot s.nodes m) ∧
  (s.treeValid = true → t.code = s.code)

end Sys2Proof.Machine
end

