-- ==== Sys2Proof/Certificates/Slice0/Obligations.lean ====
section
/-! DEFINITION. The statements about the block, for the provers. Each docstring names the rule it formalises. -/

open Sys2Proof Sys2Proof.Machine

/-! ### Encoding -/

/-- Decode and encode agree on every instruction, with every operand its fields admit (30_encoding.md R71, R73, R76). -/
def Obligations.DecodeOfEncodeIsTheInstruction : Prop :=
  ∀ i : Instr, decode (encode i) = .ok i

/-- Each legal word has one meaning: it is the word of the instruction it decodes to (30_encoding.md R71, R76). -/
def Obligations.EncodeOfDecodeIsTheWord : Prop :=
  ∀ (w : Word) (i : Instr), decode w = .ok i → encode i = w

/-- 30_encoding.md R74: which words are legal, in the table's match and mask form; RSV or an unused field that is not 0
makes a word illegal; an illegal word raises ILLEGAL and has no other effect. -/
def Obligations.LegalWordsMatchTheTable : Prop :=
  ∀ w : Word,
    (decode w = .ok .nop ↔ w = 0x0000000000000000#64) ∧
    (decode w = .ok .clear ↔ w = 0x1000000000000000#64) ∧
    ((∃ sym count, decode w = .ok (.ldfreq sym count)) ↔ w &&& 0xFFFFFE0000000000#64 = 0x2000000000000000#64) ∧
    (decode w = .ok .build ↔ w = 0x3000000000000000#64) ∧
    ((∃ arg, decode w = .ok (.enc arg)) ↔ w &&& 0xFFFFFE00FFFFFFFF#64 = 0x4000000000000000#64) ∧
    (decode w = .ok .encEnd ↔ w = 0x5000000000000000#64) ∧
    (decode w = .ok .decStart ↔ w = 0x6000000000000000#64) ∧
    ((∃ arg, decode w = .ok (.decByte arg)) ↔ w &&& 0xFFFFFE00FFFFFFFF#64 = 0x7000000000000000#64) ∧
    (decode w = .ok .decEnd ↔ w = 0x8000000000000000#64) ∧
    (decode w = .ok .clrerr ↔ w = 0x9000000000000000#64) ∧
    (w.extractLsb' 41 19 ≠ 0#19 → ∀ i, decode w ≠ .ok i) ∧
    (w.extractLsb' 60 4 ≠ 0x2#4 → w.extractLsb' 0 32 ≠ 0#32 → ∀ i, decode w ≠ .ok i) ∧
    (w.extractLsb' 60 4 ≠ 0x2#4 → w.extractLsb' 60 4 ≠ 0x4#4 → w.extractLsb' 60 4 ≠ 0x7#4 →
      w.extractLsb' 32 9 ≠ 0#9 → ∀ i, decode w ≠ .ok i) ∧
    ((∀ i, decode w ≠ .ok i) → ∀ s : State, s.fatal = false → performWord w s = .next (afterError .illegal s))

/-- 30_encoding.md R75: every word with OP 0xA to 0xF is illegal, with no other effect than ILLEGAL; none of them
behaves as a NOP. -/
def Obligations.ReservedOpcodesAreIllegal : Prop :=
  ∀ w : Word, 0xA ≤ (w.extractLsb' 60 4).toNat →
    (∀ i, decode w ≠ .ok i) ∧
    ∀ s : State, s.fatal = false → performWord w s = .next (afterError .illegal s)

/-- 30_encoding.md R80: the encoding examples, the illegal words, and the legal words with a BADARG value. -/
def Obligations.ExampleWordsDecodeAsWritten : Prop :=
  decode 0x0000000000000000#64 = .ok .nop ∧
  decode 0x1000000000000000#64 = .ok .clear ∧
  decode 0x2000006100000002#64 = .ok (.ldfreq 97#9 2#32) ∧
  decode 0x2000010000000001#64 = .ok (.ldfreq 256#9 1#32) ∧
  decode 0x3000000000000000#64 = .ok .build ∧
  decode 0x4000006100000000#64 = .ok (.enc 0x61#9) ∧
  decode 0x5000000000000000#64 = .ok .encEnd ∧
  decode 0x6000000000000000#64 = .ok .decStart ∧
  decode 0x7000002C00000000#64 = .ok (.decByte 0x2C#9) ∧
  decode 0x8000000000000000#64 = .ok .decEnd ∧
  decode 0x9000000000000000#64 = .ok .clrerr ∧
  decode 0xA000000000000000#64 = .error .reservedOpcode ∧
  decode 0x3000000000000001#64 = .error .unusedField ∧
  decode 0x4000006100000001#64 = .error .unusedField ∧
  decode 0x1000020000000000#64 = .error .reservedBits ∧
  decode 0x2000010100000005#64 = .ok (.ldfreq 257#9 5#32) ∧
  decode 0x4000010000000000#64 = .ok (.enc 256#9)

/-! ### Steps -/

/-- A step runs the decoded command: when the word at the program position decodes to `i`, the step is `exec i`, and the
position advances by 1 (10_state.md R20, R21; 20_memory.md R61). -/
def Obligations.StepRunsTheDecodedCommand : Prop :=
  ∀ (s : State) (w : Word) (i : Instr), s.busy = false → s.prog[s.pos]? = some w → decode w = .ok i →
    step s = mapNext (fun t => { t with pos := t.pos + 1 }) (exec i s)

/-- A step on an illegal word raises ILLEGAL, or drops the word while FATAL; the position advances by 1 all the same
(30_encoding.md R74, 60_exceptions.md R184, 10_state.md R21). -/
def Obligations.StepRejectsAnIllegalWord : Prop :=
  ∀ (s : State) (w : Word), s.busy = false → s.prog[s.pos]? = some w → (∀ i, decode w ≠ .ok i) →
    step s = .next { (if s.fatal = true then s else afterError .illegal s) with pos := s.pos + 1 }

/-- The position advances by exactly 1 for every word, "rejected, dropped or performed", and no command changes the
host's list of words (10_state.md R21). -/
def Obligations.PositionAdvancesByOne : Prop :=
  ∀ (s t : State) (w : Word), s.busy = false → s.prog[s.pos]? = some w → step s = .next t →
    t.pos = s.pos + 1 ∧ t.prog = s.prog

/-- With no word to take, and while BUSY = 1, a step holds the state (the model's reading of 60_exceptions.md R196 and
70_reset_and_hazards.md R209: log 2, log 3). -/
def Obligations.StepWithoutAWordHoldsTheState : Prop :=
  ∀ s : State, (s.busy = true ∨ s.prog.length ≤ s.pos) → step s = .next s

/-! ### NOP and CLRERR -/

/-- 44_control.md R170: NOP is the all-zero word and writes no state. -/
def Obligations.NopFollowsItsRule : Prop :=
  encode .nop = 0x0000000000000000#64 ∧
  (∀ s : State, exec .nop s = .next s) ∧
  ∀ (w : Word) (s : State), w.extractLsb' 60 4 = 0x0#4 → w ≠ 0x0000000000000000#64 → s.fatal = false →
    performWord w s = .next (afterError .illegal s)

/-- 44_control.md R172: CLRERR writes ERR_CODE <- 0 and nothing else; it is dropped while FATAL = 1. -/
def Obligations.ClrerrFollowsItsRule : Prop :=
  encode .clrerr = 0x9000000000000000#64 ∧
  (∀ s : State, s.fatal = true → exec .clrerr s = .next s) ∧
  (∀ s : State, s.fatal = false → exec .clrerr s = .next { s with errCode := .none }) ∧
  ∀ (w : Word) (s : State), w.extractLsb' 60 4 = 0x9#4 → w ≠ 0x9000000000000000#64 → s.fatal = false →
    performWord w s = .next (afterError .illegal s)

/-! ### CLEAR and LDFREQ -/

/-- 40_freq_table.md R100: CLEAR, with its checks in order. -/
def Obligations.ClearFollowsItsRule : Prop :=
  encode .clear = 0x1000000000000000#64 ∧
  (∀ s : State, s.fatal = true → exec .clear s = .next s) ∧
  (∀ s : State, s.fatal = false → (s.encOpen = true ∨ s.decState = .run) →
    exec .clear s = .next (afterError .seq s)) ∧
  (∀ s : State, s.fatal = false → s.encOpen = false → s.decState ≠ .run →
    ∃ t, exec .clear s = .next t ∧ t = { s with freq := t.freq, treeValid := false } ∧
      (∀ k, k < 256 → freqAt t k = 0#32) ∧ freqAt t 256 = 1#32 ∧
      (s.busy = false → ∀ any, memRead any t 0x0200#16 = 1#64 ∧ memRead any t 0x0161#16 = 0#64)) ∧
  ∀ (w : Word) (s : State), w.extractLsb' 60 4 = 0x1#4 → w ≠ 0x1000000000000000#64 → s.fatal = false →
    performWord w s = .next (afterError .illegal s)

/-- 40_freq_table.md R102: LDFREQ, with its checks in order; ARG above 256 raises BADARG. -/
def Obligations.LdfreqFollowsItsRule : Prop :=
  (∀ (sym : Arg) (count : Freq),
    encode (.ldfreq sym count) = 0x2000000000000000#64 ||| (sym.setWidth 64 <<< 32) ||| count.setWidth 64) ∧
  (∀ (sym : Arg) (count : Freq) (s : State), s.fatal = true → exec (.ldfreq sym count) s = .next s) ∧
  (∀ (sym : Arg) (count : Freq) (s : State), s.fatal = false → 256 < sym.toNat →
    exec (.ldfreq sym count) s = .next (afterError .badarg s)) ∧
  (∀ (sym : Arg) (count : Freq) (s : State), s.fatal = false → sym.toNat ≤ 256 →
    (s.encOpen = true ∨ s.decState = .run) → exec (.ldfreq sym count) s = .next (afterError .seq s)) ∧
  (∀ (sym : Arg) (count : Freq) (s : State), s.fatal = false → sym.toNat ≤ 256 → s.encOpen = false →
    s.decState ≠ .run →
    ∃ t, exec (.ldfreq sym count) s = .next t ∧ t = { s with freq := t.freq, treeValid := false } ∧
      freqAt t sym.toNat = count ∧ ∀ k, k < 257 → k ≠ sym.toNat → freqAt t k = freqAt s k) ∧
  ∀ (w : Word) (s : State), w.extractLsb' 60 4 = 0x2#4 → w.extractLsb' 41 19 ≠ 0#19 → s.fatal = false →
    performWord w s = .next (afterError .illegal s)

/-! ### BUILD -/

/-- 41_tree_builder.md R110, with R111 (leaf queue), R112 and R113 (the arbiter's merges), R114 (root) and R117 (codes):
BUILD's checks in order; NLEAF counts the symbols with a nonzero count; merge k makes slot 257 + k of the two queued
nodes of least key; ROOT is the one leaf or the last slot; each leaf's code is its path from ROOT; the slots above
255 + NLEAF are not written. -/
def Obligations.BuildFollowsItsRule : Prop :=
  encode .build = 0x3000000000000000#64 ∧
  (∀ s : State, s.fatal = true → exec .build s = .next s) ∧
  (∀ s : State, s.fatal = false → (s.encOpen = true ∨ s.decState = .run) →
    exec .build s = .next (afterError .seq s)) ∧
  (∀ s : State, s.fatal = false → s.encOpen = false → s.decState ≠ .run →
    (∀ k, k < 257 → freqAt s k = 0#32) → exec .build s = .next (afterError .empty s)) ∧
  (∀ s : State, s.fatal = false → s.encOpen = false → s.decState ≠ .run →
    (∃ k, k < 257 ∧ freqAt s k ≠ 0#32) →
    ∃ t, exec .build s = .next t ∧
      t = { s with nodes := t.nodes, root := t.root, nleaf := t.nleaf, code := t.code, treeValid := true } ∧
      t.nleaf.toNat = ((List.range 257).filter fun k => decide (freqAt s k ≠ 0#32)).length ∧
      (∀ k, 257 + k ≤ 255 + t.nleaf.toNat → mergesTheTwoLeast t k) ∧
      (∀ k, k < 256 → 255 + t.nleaf.toNat < 257 + k → entry noSlot t.nodes k = entry noSlot s.nodes k) ∧
      RootIsTop t ∧ CodesFollowTree t) ∧
  ∀ (w : Word) (s : State), w.extractLsb' 60 4 = 0x3#4 → w ≠ 0x3000000000000000#64 → s.fatal = false →
    performWord w s = .next (afterError .illegal s)

/-- 41_tree_builder.md R119: BUILD's results are a function of the 257 FREQ values alone. -/
def Obligations.BuildDependsOnFreqAlone : Prop :=
  ∀ s s' : State, s.freq = s'.freq → s.fatal = false → s.encOpen = false → s.decState ≠ .run →
    s'.fatal = false → s'.encOpen = false → s'.decState ≠ .run → (∃ k, k < 257 ∧ freqAt s k ≠ 0#32) →
    ∃ t t', exec .build s = .next t ∧ exec .build s' = .next t' ∧
      t.nleaf = t'.nleaf ∧ t.root = t'.root ∧ t.code = t'.code ∧
      ∀ i : NodeIdx, 257 ≤ i.toNat → i.toNat ≤ 255 + t.nleaf.toNat →
        nodeLeft t i = nodeLeft t' i ∧ nodeRight t i = nodeRight t' i ∧ nodeCount t i = nodeCount t' i

/-- 41_tree_builder.md R118: with exactly one nonzero count there is no merge, ROOT is that symbol's leaf, and its code
is present with length 0. -/
def Obligations.OneSymbolGivesASingleLeaf : Prop :=
  ∀ (s : State) (sym : Nat), s.fatal = false → s.encOpen = false → s.decState ≠ .run → sym < 257 →
    (∀ k, k < 257 → (freqAt s k ≠ 0#32 ↔ k = sym)) →
    ∃ t, exec .build s = .next t ∧ t.nleaf = 1#9 ∧ t.root.toNat = sym ∧ t.nodes = s.nodes ∧
      codeAt t sym = ⟨true, 0#9, 0#256⟩ ∧ ∀ k, k < 257 → k ≠ sym → (codeAt t k).valid = false

/-- 41_tree_builder.md R121: one byte value and the end-of-block symbol give two leaves; the leaf of lesser key, the
byte in a tie, is LEFT; the two codes are "0" and "1". -/
def Obligations.TwoSymbolsGiveTwoLeaves : Prop :=
  ∀ (s : State) (b : Nat), s.fatal = false → s.encOpen = false → s.decState ≠ .run → b < 256 →
    (∀ k, k < 257 → (freqAt s k ≠ 0#32 ↔ (k = b ∨ k = 256))) →
    ∃ t, exec .build s = .next t ∧ t.nleaf = 2#9 ∧ t.root = 257#10 ∧
      (nodeCount t 257#10).toNat = (freqAt s b).toNat + (freqAt s 256).toNat ∧
      (if (freqAt s 256).toNat < (freqAt s b).toNat then
        (nodeLeft t 257#10).toNat = 256 ∧ (nodeRight t 257#10).toNat = b ∧
          codeBits (codeAt t 256) = [false] ∧ codeBits (codeAt t b) = [true]
      else
        (nodeLeft t 257#10).toNat = b ∧ (nodeRight t 257#10).toNat = 256 ∧
          codeBits (codeAt t b) = [false] ∧ codeBits (codeAt t 256) = [true])

/-- 10_state.md R34: while the tree is valid no present code is a proper prefix of another, and a present code of length
0 is the code of a single leaf. The premises are invariants of the model, stated on their own below. -/
def Obligations.PresentCodesAreAPrefixCode : Prop :=
  ∀ s : State, s.treeValid = true → RootIsTop s → CodesFollowTree s →
    (∀ a b, a < 257 → b < 257 → (codeAt s a).valid = true → (codeAt s b).valid = true →
      codeBits (codeAt s a) <+: codeBits (codeAt s b) → a = b) ∧
    ∀ a, a < 257 → (codeAt s a).valid = true → (codeAt s a).len = 0#9 → s.nleaf = 1#9

/-- 41_tree_builder.md R120, its first sentence: BUILD's present codes are a prefix code on the symbols with a nonzero
count, and no prefix code `c` on those symbols has a lesser sum of FREQ times length. -/
def Obligations.BuiltCodesCostTheLeast : Prop :=
  ∀ (s : State) (c : Nat → List Bool), s.fatal = false → s.encOpen = false → s.decState ≠ .run →
    (∃ k, k < 257 ∧ freqAt s k ≠ 0#32) →
    (∀ a b, a < 257 → b < 257 → freqAt s a ≠ 0#32 → freqAt s b ≠ 0#32 → c a <+: c b → a = b) →
    ∃ t, exec .build s = .next t ∧
      (∀ a b, a < 257 → b < 257 → freqAt s a ≠ 0#32 → freqAt s b ≠ 0#32 →
        codeBits (codeAt t a) <+: codeBits (codeAt t b) → a = b) ∧
      ((List.range 257).map fun k => (freqAt s k).toNat * (codeAt t k).len.toNat).sum ≤
        ((List.range 257).map fun k => (freqAt s k).toNat * (c k).length).sum

/-! ### ENC and ENC_END -/

/-- The bits of a code run from CODE_BITS[CODE_LEN - 1] down to CODE_BITS[0] (10_state.md R33, 42_encoder.md R132), and
those of a byte from bit 7 down to bit 0 (20_memory.md R51, R52). -/
def Obligations.BitsRunFromTheTop : Prop :=
  (∀ e : CodeEntry, codeBits e = ((List.range e.len.toNat).reverse).map e.bits.getLsbD) ∧
  ∀ b : Byte, byteBits b = [b.getLsbD 7, b.getLsbD 6, b.getLsbD 5, b.getLsbD 4, b.getLsbD 3, b.getLsbD 2, b.getLsbD 1,
    b.getLsbD 0]

/-- 42_encoder.md R131: `put_bit(v)` shifts the bit in below the waiting ones; the eighth bit emits the byte, its first
bit in bit 7, and empties ACC. -/
def Obligations.PutBitFollowsItsRule : Prop :=
  ∀ (v : Bool) (s : State),
    (s.accCnt.toNat < 7 → ∃ t, putBit v s = t ∧ t = { s with acc := t.acc, accCnt := t.accCnt } ∧
      t.accCnt.toNat = s.accCnt.toNat + 1 ∧ t.acc.getLsbD 0 = v ∧ ∀ j, j < 7 → t.acc.getLsbD (j + 1) = s.acc.getLsbD j) ∧
    (s.accCnt.toNat = 7 → ∃ b : Byte,
      putBit v s = { s with acc := 0#8, accCnt := 0#3, eoutReg := b, eout := s.eout ++ [b] } ∧
      b.getLsbD 0 = v ∧ ∀ j, j < 7 → b.getLsbD (j + 1) = s.acc.getLsbD j)

/-- 42_encoder.md R130, with R132 and R133: ENC's checks in order; the code's bits follow those already sent, each
completed byte goes to EOUT and EOUT_REG, and the stream is open. -/
def Obligations.EncFollowsItsRule : Prop :=
  (∀ arg : Arg, encode (.enc arg) = 0x4000000000000000#64 ||| (arg.setWidth 64 <<< 32)) ∧
  (∀ (arg : Arg) (s : State), s.fatal = true → exec (.enc arg) s = .next s) ∧
  (∀ (arg : Arg) (s : State), s.fatal = false → 255 < arg.toNat → exec (.enc arg) s = .next (afterError .badarg s)) ∧
  (∀ (arg : Arg) (s : State), s.fatal = false → arg.toNat ≤ 255 → s.treeValid = false →
    exec (.enc arg) s = .next (afterError .notree s)) ∧
  (∀ (arg : Arg) (s : State), s.fatal = false → arg.toNat ≤ 255 → s.treeValid = true →
    (codeAt s arg.toNat).valid = false → exec (.enc arg) s = .next (afterFatal s)) ∧
  (∀ (arg : Arg) (s : State), s.fatal = false → arg.toNat ≤ 255 → s.treeValid = true →
    (codeAt s arg.toNat).valid = true →
    ∃ t new, exec (.enc arg) s = .next t ∧
      t = { s with acc := t.acc, accCnt := t.accCnt, encOpen := true, eoutReg := t.eoutReg, eout := s.eout ++ new } ∧
      sentBits t = sentBits s ++ codeBits (codeAt s arg.toNat) ∧
      t.accCnt.toNat = (s.accCnt.toNat + (codeAt s arg.toNat).len.toNat) % 8 ∧
      t.eoutReg = new.getLast?.getD s.eoutReg ∧
      (s.acc.toNat < 2 ^ s.accCnt.toNat → t.acc.toNat < 2 ^ t.accCnt.toNat)) ∧
  ∀ (w : Word) (s : State), w.extractLsb' 60 4 = 0x4#4 → (w.extractLsb' 41 19 ≠ 0#19 ∨ w.extractLsb' 0 32 ≠ 0#32) →
    s.fatal = false → performWord w s = .next (afterError .illegal s)

/-- 42_encoder.md R134, with R135: ENC_END's checks in order; the end-of-block code follows the bits already sent, then
the zero bits that complete the byte; ACC is empty and the stream closed. -/
def Obligations.EncEndFollowsItsRule : Prop :=
  encode .encEnd = 0x5000000000000000#64 ∧
  (∀ s : State, s.fatal = true → exec .encEnd s = .next s) ∧
  (∀ s : State, s.fatal = false → s.treeValid = false → exec .encEnd s = .next (afterError .notree s)) ∧
  (∀ s : State, s.fatal = false → s.treeValid = true → (codeAt s 256).valid = false →
    exec .encEnd s = .next (afterFatal s)) ∧
  (∀ s : State, s.fatal = false → s.treeValid = true → (codeAt s 256).valid = true →
    ∃ t new, exec .encEnd s = .next t ∧
      t = { s with acc := t.acc, accCnt := 0#3, encOpen := false, eoutReg := t.eoutReg, eout := s.eout ++ new } ∧
      sentBits t = sentBits s ++ codeBits (codeAt s 256) ++
        List.replicate ((8 - (s.accCnt.toNat + (codeAt s 256).len.toNat) % 8) % 8) false ∧
      t.eoutReg = new.getLast?.getD s.eoutReg ∧
      (s.acc.toNat < 2 ^ s.accCnt.toNat → t.acc = 0#8)) ∧
  ∀ (w : Word) (s : State), w.extractLsb' 60 4 = 0x5#4 → w ≠ 0x5000000000000000#64 → s.fatal = false →
    performWord w s = .next (afterError .illegal s)

/-- 42_encoder.md R137: the body of a stream is ceil(P / 8) bytes for the payload length P, and its last byte carries
(8 - P mod 8) mod 8 zero padding bits. -/
def Obligations.EncodedBodyHasThePayloadsLength : Prop :=
  ∀ (s : State) (xs : List Byte), s.fatal = false → s.treeValid = true → s.accCnt = 0#3 →
    (∀ x ∈ xs, (codeAt s x.toNat).valid = true) → (codeAt s 256).valid = true →
    ∃ t body, execAll (expand (.encstream xs)) s = .next t ∧ t.eout = s.eout ++ body ∧
      body.length = ((xs.map fun x => (codeAt s x.toNat).len.toNat).sum + (codeAt s 256).len.toNat + 7) / 8 ∧
      body.flatMap byteBits = (xs.flatMap fun x => codeBits (codeAt s x.toNat)) ++ codeBits (codeAt s 256) ++
        List.replicate ((8 - ((xs.map fun x => (codeAt s x.toNat).len.toNat).sum + (codeAt s 256).len.toNat) % 8) % 8)
          false

/-! ### DEC_START, DEC_BYTE and DEC_END -/

/-- 43_decoder.md R150: DEC_START's checks in order; CUR <- ROOT, and DONE when the tree is the end-of-block leaf alone. -/
def Obligations.DecStartFollowsItsRule : Prop :=
  encode .decStart = 0x6000000000000000#64 ∧
  (∀ s : State, s.fatal = true → exec .decStart s = .next s) ∧
  (∀ s : State, s.fatal = false → s.treeValid = false → exec .decStart s = .next (afterError .notree s)) ∧
  (∀ s : State, s.fatal = false → s.treeValid = true → s.root = 256#10 →
    exec .decStart s = .next { s with cur := s.root, decState := .done }) ∧
  (∀ s : State, s.fatal = false → s.treeValid = true → s.root ≠ 256#10 →
    exec .decStart s = .next { s with cur := s.root, decState := .run }) ∧
  ∀ (w : Word) (s : State), w.extractLsb' 60 4 = 0x6#4 → w ≠ 0x6000000000000000#64 → s.fatal = false →
    performWord w s = .next (afterError .illegal s)

/-- 43_decoder.md R151, with R154: one move of the cursor, for a CUR that names a slot: a leaf or a null child ends the
walk, the end-of-block leaf stops it, a byte's leaf emits the byte and returns to ROOT, an internal child is the new
cursor. -/
def Obligations.CursorMoveFollowsItsRule : Prop :=
  ∀ (v : Bool) (s : State), s.decState = .run → s.cur.toNat ≤ 512 →
    (s.cur.toNat ≤ 256 → walkBit v s = .next { s with decState := .malformed }) ∧
    (256 < s.cur.toNat → ∀ nxt : NodeIdx, nxt = (if v then nodeRight s s.cur else nodeLeft s s.cur) →
      (nxt = 0x3FF#10 → walkBit v s = .next { s with decState := .malformed }) ∧
      (nxt.toNat = 256 → walkBit v s = .next { s with cur := 256#10, decState := .done }) ∧
      (nxt.toNat ≤ 255 → walkBit v s =
        .next { s with dout := s.dout ++ [BitVec.ofNat 8 nxt.toNat], doutReg := BitVec.ofNat 8 nxt.toNat,
                       cur := s.root }) ∧
      (256 < nxt.toNat → nxt ≠ 0x3FF#10 → walkBit v s = .next { s with cur := nxt }))

/-- 43_decoder.md R152: DEC_BYTE's checks in order; then eight bits, bit 7 first, each a move of the cursor (R151) while
the decoder is in RUN and nothing otherwise. Its completion rests on the invariants that keep the walk on the tree. -/
def Obligations.DecByteFollowsItsRule : Prop :=
  (∀ arg : Arg, encode (.decByte arg) = 0x7000000000000000#64 ||| (arg.setWidth 64 <<< 32)) ∧
  (∀ (arg : Arg) (s : State), s.fatal = true → exec (.decByte arg) s = .next s) ∧
  (∀ (arg : Arg) (s : State), s.fatal = false → 255 < arg.toNat →
    exec (.decByte arg) s = .next (afterError .badarg s)) ∧
  (∀ (arg : Arg) (s : State), s.fatal = false → arg.toNat ≤ 255 → s.decState = .idle →
    exec (.decByte arg) s = .next (afterError .seq s)) ∧
  (∀ (arg : Arg) (s : State), s.fatal = false → arg.toNat ≤ 255 → s.decState ≠ .idle → BlockInvariant s →
    ∃ (t : State) (new : List Byte) (at_ : Nat → State), exec (.decByte arg) s = .next t ∧
      t = { s with cur := t.cur, decState := t.decState, doutReg := t.doutReg, dout := s.dout ++ new } ∧
      new.length ≤ 8 ∧ t.doutReg = new.getLast?.getD s.doutReg ∧ at_ 0 = s ∧ at_ 8 = t ∧
      ∀ j, j < 8 →
        if (at_ j).decState = .run then walkBit (arg.getLsbD (7 - j)) (at_ j) = .next (at_ (j + 1))
        else at_ (j + 1) = at_ j) ∧
  ∀ (w : Word) (s : State), w.extractLsb' 60 4 = 0x7#4 → (w.extractLsb' 41 19 ≠ 0#19 ∨ w.extractLsb' 0 32 ≠ 0#32) →
    s.fatal = false → performWord w s = .next (afterError .illegal s)

/-- 43_decoder.md R158: DEC_END's checks in order; RUN becomes TRUNC, a stopped state stays. -/
def Obligations.DecEndFollowsItsRule : Prop :=
  encode .decEnd = 0x8000000000000000#64 ∧
  (∀ s : State, s.fatal = true → exec .decEnd s = .next s) ∧
  (∀ s : State, s.fatal = false → s.decState = .idle → exec .decEnd s = .next (afterError .seq s)) ∧
  (∀ s : State, s.fatal = false → s.decState = .run → exec .decEnd s = .next { s with decState := .trunc }) ∧
  (∀ s : State, s.fatal = false → (s.decState = .done ∨ s.decState = .trunc ∨ s.decState = .malformed) →
    exec .decEnd s = .next s) ∧
  ∀ (w : Word) (s : State), w.extractLsb' 60 4 = 0x8#4 → w ≠ 0x8000000000000000#64 → s.fatal = false →
    performWord w s = .next (afterError .illegal s)

/-- 43_decoder.md R156: after the decoder stops, DEC_BYTE and DEC_END leave every state as it is. -/
def Obligations.StoppedDecoderReadsNoMoreBits : Prop :=
  ∀ (s : State) (arg : Arg), (s.decState = .done ∨ s.decState = .trunc ∨ s.decState = .malformed) → arg.toNat ≤ 255 →
    exec (.decByte arg) s = .next s ∧ exec .decEnd s = .next s

/-- Walking the bits of a present code from ROOT emits its byte and returns to ROOT, or stops at the end-of-block leaf
without emitting (43_decoder.md R151, R154, R160). The premises are invariants of the model. -/
def Obligations.WalkingACodeGivesItsSymbol : Prop :=
  ∀ (s : State) (sym : Nat), s.treeValid = true → RootIsTop s → CodesFollowTree s → s.decState = .run →
    s.cur = s.root → 1 < s.nleaf.toNat → sym < 257 → (codeAt s sym).valid = true →
    walkBits (codeBits (codeAt s sym)) s = .next
      (if sym = 256 then { s with cur := 256#10, decState := .done }
       else { s with dout := s.dout ++ [BitVec.ofNat 8 sym], doutReg := BitVec.ofNat 8 sym })

/-- 43_decoder.md R160: the body that an encode stream emits, under a tree whose table counts every byte of the input and
the end-of-block symbol, decodes to exactly the input and DONE, under a tree that BUILD made from the same counts in any
other state. -/
def Obligations.DecodingAnEncodedStreamGivesTheInput : Prop :=
  ∀ (s : State) (xs : List Byte), s.fatal = false → s.encOpen = false → s.decState ≠ .run → s.accCnt = 0#3 →
    freqAt s 256 ≠ 0#32 → (∀ x ∈ xs, freqAt s x.toNat ≠ 0#32) →
    ∃ t body, execAll (.build :: expand (.encstream xs)) s = .next t ∧ t.eout = s.eout ++ body ∧
      ∀ s' : State, s'.freq = s.freq → s'.fatal = false → s'.encOpen = false → s'.decState ≠ .run →
        ∃ t', execAll (.build :: expand (.decstream body)) s' = .next t' ∧
          t'.dout = s'.dout ++ xs ∧ t'.decState = .done

/-- 40_freq_table.md R103: a table without a count for the end-of-block symbol has no end-of-block leaf: ENC_END is
fatal and no step takes the decoder to DONE. The premises are invariants of the model. -/
def Obligations.WithoutEobLeafNoStreamEndsNormally : Prop :=
  ∀ s : State, s.treeValid = true → freqAt s 256 = 0#32 → BlockInvariant s → CodesFollowTree s →
    (s.fatal = false → exec .encEnd s = .next (afterFatal s)) ∧
    (s.decState ≠ .done → ∀ t, step s = .next t → t.decState ≠ .done)

/-! ### Errors and whole-block rules -/

/-- 60_exceptions.md R185: while FATAL = 1 every command and every word, legal or not, changes no state at all; the
readback port still answers; only reset leaves the fatal state. -/
def Obligations.FatalStateDropsEveryWord : Prop :=
  ∀ s : State, s.fatal = true →
    (∀ i, exec i s = .next s) ∧ (∀ w, performWord w s = .next s) ∧
    (∀ w, s.busy = false → s.prog[s.pos]? = some w → step s = .next { s with pos := s.pos + 1 }) ∧
    (∀ any, memRead any s 0#16 = statusWord s) ∧
    (∀ m, (hostMove m s).2.fatal = false ↔ m = .reset)

/-- 60_exceptions.md R181, R183, R189: raising an error records the first code alone; the fatal error always records
NOCODE and sets FATAL; CLRERR's return sets ERR_CODE to 0. Nothing else changes. -/
def Obligations.ErrorsRecordOnlyTheirCode : Prop :=
  (∀ (e : ErrCode) (s : State), e ≠ .nocode → raiseErr e s = afterError e s) ∧
  (∀ s : State, raiseErr .nocode s = afterFatal s) ∧
  (∀ s : State, clearErr s = { s with errCode := .none })

/-- In any step ERR_CODE changes only by the first error, by CLRERR, or by the fatal error; FATAL is never cleared, and
is set only by an ENC or ENC_END whose symbol has no code (10_state.md R42; 60_exceptions.md R180, R183, R189). -/
def Obligations.ErrorStateChangesOnlyByRule : Prop :=
  ∀ (s t : State) (w : Word), s.busy = false → s.prog[s.pos]? = some w → step s = .next t →
    (t.errCode = s.errCode ∨ s.errCode = .none ∨ (decode w = .ok .clrerr ∧ t.errCode = .none) ∨
      (t.fatal = true ∧ t.errCode = .nocode)) ∧
    (s.fatal = true → t.fatal = true) ∧
    (s.fatal = false → t.fatal = true →
      t = { afterFatal s with pos := s.pos + 1 } ∧ s.treeValid = true ∧
      ((∃ arg, decode w = .ok (.enc arg) ∧ (codeAt s arg.toNat).valid = false) ∨
        (decode w = .ok .encEnd ∧ (codeAt s 256).valid = false)))

/-- In any step FREQ changes only by CLEAR or LDFREQ, and the internal slots, ROOT, NLEAF and the code table only by
BUILD (10_state.md R24, R27, R28, R29, R33). -/
def Obligations.TablesChangeOnlyByTheirCommands : Prop :=
  ∀ (s t : State) (w : Word), s.busy = false → s.prog[s.pos]? = some w → step s = .next t →
    (t.freq = s.freq ∨ decode w = .ok .clear ∨ ∃ sym count, decode w = .ok (.ldfreq sym count)) ∧
    ((t.nodes = s.nodes ∧ t.root = s.root ∧ t.nleaf = s.nleaf ∧ t.code = s.code) ∨ decode w = .ok .build) ∧
    (t.treeValid = s.treeValid ∨ (t.treeValid = true ∧ decode w = .ok .build) ∨
      (t.treeValid = false ∧ (decode w = .ok .clear ∨ ∃ sym count, decode w = .ok (.ldfreq sym count))))

/-- 70_reset_and_hazards.md R206: while a stream is open CLEAR, LDFREQ and BUILD are rejected with SEQ, and no step
changes the table, the tree or the codes. -/
def Obligations.OpenStreamLocksTheTables : Prop :=
  ∀ s : State, (s.encOpen = true ∨ s.decState = .run) →
    (s.fatal = false →
      exec .clear s = .next (afterError .seq s) ∧ exec .build s = .next (afterError .seq s) ∧
      ∀ (sym : Arg) (count : Freq), sym.toNat ≤ 256 → exec (.ldfreq sym count) s = .next (afterError .seq s)) ∧
    ∀ t, step s = .next t →
      t.freq = s.freq ∧ t.nodes = s.nodes ∧ t.root = s.root ∧ t.nleaf = s.nleaf ∧ t.code = s.code ∧
        t.treeValid = s.treeValid

/-- In any step both channels are only appended to, and each channel's register holds the last byte emitted
(10_state.md R36, R39, R40; 20_memory.md R63). -/
def Obligations.ChannelsAreOnlyAppendedTo : Prop :=
  ∀ s t : State, step s = .next t →
    (∃ new, t.eout = s.eout ++ new ∧ t.eoutReg = new.getLast?.getD s.eoutReg) ∧
    (∃ new, t.dout = s.dout ++ new ∧ t.doutReg = new.getLast?.getD s.doutReg)

/-- 42_encoder.md R138: the encoder commands read and write no decoder state, and the decoder commands no encoder state:
with another decoder, or another encoder, each command does the same and leaves that one alone. -/
def Obligations.EncoderAndDecoderShareNoState : Prop :=
  (∀ (s d : State) (arg : Arg),
    exec (.enc arg) (withDecoder d s) = mapNext (withDecoder d) (exec (.enc arg) s) ∧
    exec .encEnd (withDecoder d s) = mapNext (withDecoder d) (exec .encEnd s)) ∧
  ∀ (s e : State) (arg : Arg),
    exec .decStart (withEncoder e s) = mapNext (withEncoder e) (exec .decStart s) ∧
    exec (.decByte arg) (withEncoder e s) = mapNext (withEncoder e) (exec (.decByte arg) s) ∧
    exec .decEnd (withEncoder e s) = mapNext (withEncoder e) (exec .decEnd s)

/-- What the spec leaves unspecified is never seen: two states that differ only in slots outside the tree and in the code
table while TREE_VALID = 0 answer the same readbacks, and their steps stay alike (10_state.md R30, R47;
20_memory.md R56). So nothing rests on the model's reset values of those tables (log 4, log 5). -/
def Obligations.UnspecifiedTablesAreNeverSeen : Prop :=
  ∀ s t : State, SameButUnspecified s t → BlockInvariant s →
    (∀ any addr, memRead any t addr = memRead any s addr) ∧
    ∀ s', step s = .next s' → ∃ t', step t = .next t' ∧ SameButUnspecified s' t'

/-! ### Invariants -/

/-- The state after reset meets every invariant below (10_state.md R46, R47). -/
def Obligations.ResetMeetsTheInvariants : Prop :=
  BlockInvariant State.reset ∧ OneParent State.reset ∧ CountsAreSums State.reset ∧ CodesFollowTree State.reset ∧
    CodesAreShort State.reset ∧ TreeIsBuilt State.reset

/-- 10_state.md R46: every step keeps the invariants over the registers. -/
def Obligations.StepKeepsTheRegisterInvariants : Prop :=
  ∀ s t : State, RegistersConsistent s → step s = .next t → RegistersConsistent t

/-- Every step keeps the tree full, with one root, one parent for every other node, and exact counts
(10_state.md R28, R29, R31; 41_tree_builder.md R116). -/
def Obligations.StepKeepsTheTreeFull : Prop :=
  ∀ s t : State, RootIsTop s → TreeIsFull s → OneParent s → CountsAreSums s → step s = .next t →
    RootIsTop t ∧ TreeIsFull t ∧ OneParent t ∧ CountsAreSums t

/-- Every step keeps each present code equal to the path from ROOT to its leaf, and no longer than NLEAF - 1
(10_state.md R33; 41_tree_builder.md R117, R122). -/
def Obligations.StepKeepsCodesOnTheTree : Prop :=
  ∀ s t : State, CodesFollowTree s → CodesAreShort s → step s = .next t → CodesFollowTree t ∧ CodesAreShort t

/-- Every step keeps the tree and the code table the ones that BUILD computes from the current FREQ while TREE_VALID = 1
(10_state.md R30). -/
def Obligations.StepKeepsTheTreeBuiltFromFreq : Prop :=
  ∀ s t : State, TreeIsBuilt s → step s = .next t → TreeIsBuilt t

/-- From every state that meets the block's invariants a step answers a next state, which meets them again: no fault, no
refusal, and the cursor stays on the tree (10_state.md R31, R38, R46). -/
def Obligations.StepAnswersAndKeepsTheBlockInvariant : Prop :=
  ∀ s : State, BlockInvariant s → ∃ t, step s = .next t ∧ BlockInvariant t

/-- 70_reset_and_hazards.md R211: the run of any list of command words, from a reset in any state, ends, with the
position at the end of the list. -/
def Obligations.EveryRunEndsAtItsLastWord : Prop :=
  ∀ (s : State) (ws : List Word), ∃ t, runWords s ws = .next t ∧ atEnd t ∧ t.prog = ws

/-! ### Reset and the host interface -/

/-- 10_state.md R47: the reset values that the spec states. -/
def Obligations.ResetLeavesTheStatedValues : Prop :=
  (∀ k, k < 256 → freqAt State.reset k = 0#32) ∧ freqAt State.reset 256 = 1#32 ∧
  State.reset.root = 0x3FF#10 ∧ State.reset.nleaf = 0#9 ∧ State.reset.treeValid = false ∧
  State.reset.acc = 0#8 ∧ State.reset.accCnt = 0#3 ∧ State.reset.encOpen = false ∧ State.reset.eoutReg = 0#8 ∧
  State.reset.decState = .idle ∧ State.reset.cur = 0x3FF#10 ∧ State.reset.doutReg = 0#8 ∧
  State.reset.eout = [] ∧ State.reset.dout = [] ∧
  State.reset.errCode = .none ∧ State.reset.fatal = false ∧ State.reset.busy = false

/-- 10_state.md R43: every field of STATUS, and its reserved bits. -/
def Obligations.StatusShowsTheRegisters : Prop :=
  ∀ s : State,
    (statusWord s).getLsbD 0 = s.treeValid ∧ (statusWord s).getLsbD 1 = s.encOpen ∧
    (statusWord s).extractLsb' 2 3 = s.accCnt ∧ (statusWord s).extractLsb' 5 3 = decStateBits s.decState ∧
    (statusWord s).extractLsb' 8 4 = errCodeBits s.errCode ∧ (statusWord s).getLsbD 12 = s.fatal ∧
    (statusWord s).getLsbD 13 = s.busy ∧ (statusWord s).extractLsb' 14 50 = 0#50

/-- 20_memory.md R55: the readback map while BUSY = 0, for the words whose value is defined: the leaf slots read as
10_state.md R26 says, the internal slots in the tree as R27 says. -/
def Obligations.ReadbackFollowsTheMap : Prop :=
  ∀ (any : Word) (s : State), s.busy = false →
    memRead any s 0x0000#16 = statusWord s ∧
    memRead any s 0x0001#16 = s.root.setWidth 64 ∧ memRead any s 0x0002#16 = s.nleaf.setWidth 64 ∧
    memRead any s 0x0003#16 = s.acc.setWidth 64 ∧ memRead any s 0x0004#16 = s.cur.setWidth 64 ∧
    memRead any s 0x0005#16 = s.eoutReg.setWidth 64 ∧ memRead any s 0x0006#16 = s.doutReg.setWidth 64 ∧
    (∀ k, k ≤ 256 → memRead any s (BitVec.ofNat 16 (0x0100 + k)) = (freqAt s k).setWidth 64) ∧
    (∀ i, i ≤ 256 →
      (memRead any s (BitVec.ofNat 16 (0x1000 + i))).extractLsb' 0 10 = 0x3FF#10 ∧
      (memRead any s (BitVec.ofNat 16 (0x1000 + i))).extractLsb' 10 10 = 0x3FF#10 ∧
      (memRead any s (BitVec.ofNat 16 (0x1000 + i))).extractLsb' 23 41 = (freqAt s i).setWidth 41) ∧
    (∀ k, k < 256 → s.treeValid = true → 257 + k ≤ 255 + s.nleaf.toNat →
      (memRead any s (BitVec.ofNat 16 (0x1101 + k))).extractLsb' 0 10 = (entry noSlot s.nodes k).left ∧
      (memRead any s (BitVec.ofNat 16 (0x1101 + k))).extractLsb' 10 10 = (entry noSlot s.nodes k).right ∧
      (memRead any s (BitVec.ofNat 16 (0x1101 + k))).extractLsb' 23 41 = (entry noSlot s.nodes k).count) ∧
    (∀ i, i ≤ 512 →
      (memRead any s (BitVec.ofNat 16 (0x1000 + i))).getLsbD 20 = decide (i ≤ 256) ∧
      ((memRead any s (BitVec.ofNat 16 (0x1000 + i))).getLsbD 21 = true ↔
        s.treeValid = true ∧ (if i ≤ 256 then freqAt s i ≠ 0#32 else i ≤ 255 + s.nleaf.toNat)) ∧
      (memRead any s (BitVec.ofNat 16 (0x1000 + i))).getLsbD 22 = false) ∧
    (s.treeValid = true → ∀ k, k ≤ 256 →
      (memRead any s (BitVec.ofNat 16 (0x2000 + k))).extractLsb' 0 9 = (codeAt s k).len ∧
      (memRead any s (BitVec.ofNat 16 (0x2000 + k))).getLsbD 9 = (codeAt s k).valid ∧
      (memRead any s (BitVec.ofNat 16 (0x2000 + k))).extractLsb' 10 54 = 0#54 ∧
      ∀ j, j < 4 → memRead any s (BitVec.ofNat 16 (0x3000 + 4 * k + j)) = (codeAt s k).bits.extractLsb' (64 * j) 64) ∧
    (∀ a, a < 0x10000 → (6 < a ∧ a < 0x0100 ∨ 0x0200 < a ∧ a < 0x1000 ∨ 0x1200 < a ∧ a < 0x2000 ∨
      0x2100 < a ∧ a < 0x3000 ∨ 0x3403 < a) → memRead any s (BitVec.ofNat 16 a) = 0#64)

/-- A readback depends on the free draw in exactly the any-value cases (20_memory.md R56), where its open fields take
every value. That a word of the code table is open in all its 64 bits while TREE_VALID = 0, the bits included that R55
reads as 0, is the model's reading of R56 (DEDUCED, log 6), and so is the third clause. -/
def Obligations.OnlyTheAnyValueCasesAreFree : Prop :=
  ∀ (s : State) (addr : RbAddr),
    (readsAnyValue s addr = false → ∀ any any', memRead any s addr = memRead any' s addr) ∧
    (addr ≠ 0#16 → s.busy = true → ∀ v, ∃ any, memRead any s addr = v) ∧
    (s.busy = false → s.treeValid = false →
      ((0x2000 ≤ addr.toNat ∧ addr.toNat ≤ 0x2100) ∨ (0x3000 ≤ addr.toNat ∧ addr.toNat ≤ 0x3403)) →
      ∀ v, ∃ any, memRead any s addr = v) ∧
    (s.busy = false → 0x1101 ≤ addr.toNat → addr.toNat ≤ 0x1200 → inTree s (addr.toNat - 0x1000) = false →
      ∀ (l r : NodeIdx) (c : Count), ∃ any, memRead any s addr = c ++ 0#3 ++ r ++ l)

/-- 20_memory.md R57: no readback has a side effect: only the model's own counter of free draws moves (log 7), and two reads
of a defined word agree. -/
def Obligations.ReadbackHasNoSideEffect : Prop :=
  ∀ (s : State) (addr : RbAddr),
    (hostMove (.read addr) s).2 = { s with draws := s.draws + 1 } ∧
    (readsAnyValue s addr = false → (hostMove (.read addr) (hostMove (.read addr) s).2).1 = (hostMove (.read addr) s).1)

/-- 60_exceptions.md R195, 10_state.md R40, 70_reset_and_hazards.md R200: the host's other moves: a written word is the next
one performed, a drained byte is the oldest and is removed, and reset leaves the reset state whatever came before. The
last clause also says what is the model's choice: the values that reset gives the node slots and the code table, which
R47 leaves unspecified (log 4, log 5), that the counter of free draws goes on (log 7), and that the host's list of words
is emptied (log 11). -/
def Obligations.HostMovesFollowTheirRows : Prop :=
  (∀ (s : State) (w : Word), s.busy = false → s.pos = s.prog.length →
    ∀ t, t = (hostMove (.write w) s).2 →
      step t = mapNext (fun u => { u with pos := u.pos + 1 }) (performWord w t)) ∧
  (∀ (s : State) (b : Byte) (rest : List Byte), s.eout = b :: rest →
    hostMove .drainEout s = (.byte (some b), { s with eout := rest })) ∧
  (∀ (s : State) (b : Byte) (rest : List Byte), s.dout = b :: rest →
    hostMove .drainDout s = (.byte (some b), { s with dout := rest })) ∧
  ∀ s : State, (hostMove .reset s).2 = { State.reset with draws := s.draws }

/-- The host's bus order is invisible: a word carried over the bus in any order of its byte lanes arrives as it was
(20_memory.md R53; that an order is a permutation of the lanes is the model's choice, log 8). -/
def Obligations.BusOrderIsInvisible : Prop :=
  ∀ (order : Equiv.Perm (Fin 8)) (w : Word) (s : State),
    wordFromBus order (wordToBus order w) = w ∧
    busWriteCommand (wordToBus Config.hostBusOrder w) s = (hostMove (.write w) s).2

/-! ### The assembler -/

/-- 30_encoding.md R79: the expansions of the pseudo-commands. -/
def Obligations.PseudoCommandsExpandAsWritten : Prop :=
  (∀ counts : Vector Freq 257, (expand (.ldtable counts)).length = 257 ∧
    ∀ k, (h : k < 257) → (expand (.ldtable counts))[k]? = some (.ldfreq (BitVec.ofNat 9 k) counts[k])) ∧
  (∀ bytes : List Byte, expand (.encstream bytes) = bytes.map (fun b => .enc (b.setWidth 9)) ++ [.encEnd]) ∧
  (∀ body : List Byte, expand (.decstream body) =
    [.decStart] ++ body.map (fun b => .decByte (b.setWidth 9)) ++ [.decEnd])

/-- "An assembler refuses an operand outside these ranges rather than encode it, so assembled code never raises BADARG"
(30_encoding.md R78; the lexical details of a line are the model's choice, log 16). -/
def Obligations.AssembledCodeNeverRaisesBadarg : Prop :=
  (∀ (line : List Char) (is : List Instr), assembleLine line = some is → ∀ i ∈ is, i.wellFormed = true) ∧
  ∀ (i : Instr) (s t : State), i.wellFormed = true → exec i s = .next t → t.errCode = .badarg → s.errCode = .badarg

/-! ### The free draws -/

/-- No draw is used twice, over steps, readbacks and resets: a readback takes the draw of the counter's value and adds 1 to
it, and no step and no move of the host lowers it. So no two reads need agree in the any-value cases (20_memory.md R57,
which forbids a model to assume it; the counter is the model's own, log 7). -/
def Obligations.EveryReadTakesAFreshDraw : Prop :=
  (∀ (s : State) (addr : RbAddr),
    (hostMove (.read addr) s).1 = .word (memRead (Config.anyWord s.draws) s addr) ∧
    (hostMove (.read addr) s).2.draws = s.draws + 1) ∧
  (∀ (s : State) (m : HostMove), s.draws ≤ (hostMove m s).2.draws) ∧
  ∀ s t : State, step s = .next t → t.draws = s.draws
end

