-- ==== Sys2Proof/Laws/State.lean ====
section
/-! SUPPORT. One lemma per field per named update of the state, so that no later proof unfolds an update. -/

namespace Sys2Proof.Machine

@[simp] theorem setFreq_prog (s : State) (sym : Nat) (c : Freq) : (setFreq s sym c).prog = s.prog := rfl
@[simp] theorem setFreq_pos (s : State) (sym : Nat) (c : Freq) : (setFreq s sym c).pos = s.pos := rfl
@[simp] theorem setFreq_freq (s : State) (sym : Nat) (c : Freq) : (setFreq s sym c).freq = s.freq.setIfInBounds sym c := rfl
@[simp] theorem setFreq_nodes (s : State) (sym : Nat) (c : Freq) : (setFreq s sym c).nodes = s.nodes := rfl
@[simp] theorem setFreq_root (s : State) (sym : Nat) (c : Freq) : (setFreq s sym c).root = s.root := rfl
@[simp] theorem setFreq_nleaf (s : State) (sym : Nat) (c : Freq) : (setFreq s sym c).nleaf = s.nleaf := rfl
@[simp] theorem setFreq_treeValid (s : State) (sym : Nat) (c : Freq) : (setFreq s sym c).treeValid = s.treeValid := rfl
@[simp] theorem setFreq_code (s : State) (sym : Nat) (c : Freq) : (setFreq s sym c).code = s.code := rfl
@[simp] theorem setFreq_acc (s : State) (sym : Nat) (c : Freq) : (setFreq s sym c).acc = s.acc := rfl
@[simp] theorem setFreq_accCnt (s : State) (sym : Nat) (c : Freq) : (setFreq s sym c).accCnt = s.accCnt := rfl
@[simp] theorem setFreq_encOpen (s : State) (sym : Nat) (c : Freq) : (setFreq s sym c).encOpen = s.encOpen := rfl
@[simp] theorem setFreq_eoutReg (s : State) (sym : Nat) (c : Freq) : (setFreq s sym c).eoutReg = s.eoutReg := rfl
@[simp] theorem setFreq_decState (s : State) (sym : Nat) (c : Freq) : (setFreq s sym c).decState = s.decState := rfl
@[simp] theorem setFreq_cur (s : State) (sym : Nat) (c : Freq) : (setFreq s sym c).cur = s.cur := rfl
@[simp] theorem setFreq_doutReg (s : State) (sym : Nat) (c : Freq) : (setFreq s sym c).doutReg = s.doutReg := rfl
@[simp] theorem setFreq_eout (s : State) (sym : Nat) (c : Freq) : (setFreq s sym c).eout = s.eout := rfl
@[simp] theorem setFreq_dout (s : State) (sym : Nat) (c : Freq) : (setFreq s sym c).dout = s.dout := rfl
@[simp] theorem setFreq_errCode (s : State) (sym : Nat) (c : Freq) : (setFreq s sym c).errCode = s.errCode := rfl
@[simp] theorem setFreq_fatal (s : State) (sym : Nat) (c : Freq) : (setFreq s sym c).fatal = s.fatal := rfl
@[simp] theorem setFreq_busy (s : State) (sym : Nat) (c : Freq) : (setFreq s sym c).busy = s.busy := rfl
@[simp] theorem setFreq_draws (s : State) (sym : Nat) (c : Freq) : (setFreq s sym c).draws = s.draws := rfl

@[simp] theorem setNode_prog (s : State) (k : Nat) (n : Node) : (setNode s k n).prog = s.prog := rfl
@[simp] theorem setNode_pos (s : State) (k : Nat) (n : Node) : (setNode s k n).pos = s.pos := rfl
@[simp] theorem setNode_freq (s : State) (k : Nat) (n : Node) : (setNode s k n).freq = s.freq := rfl
@[simp] theorem setNode_nodes (s : State) (k : Nat) (n : Node) : (setNode s k n).nodes = s.nodes.setIfInBounds k n := rfl
@[simp] theorem setNode_root (s : State) (k : Nat) (n : Node) : (setNode s k n).root = s.root := rfl
@[simp] theorem setNode_nleaf (s : State) (k : Nat) (n : Node) : (setNode s k n).nleaf = s.nleaf := rfl
@[simp] theorem setNode_treeValid (s : State) (k : Nat) (n : Node) : (setNode s k n).treeValid = s.treeValid := rfl
@[simp] theorem setNode_code (s : State) (k : Nat) (n : Node) : (setNode s k n).code = s.code := rfl
@[simp] theorem setNode_acc (s : State) (k : Nat) (n : Node) : (setNode s k n).acc = s.acc := rfl
@[simp] theorem setNode_accCnt (s : State) (k : Nat) (n : Node) : (setNode s k n).accCnt = s.accCnt := rfl
@[simp] theorem setNode_encOpen (s : State) (k : Nat) (n : Node) : (setNode s k n).encOpen = s.encOpen := rfl
@[simp] theorem setNode_eoutReg (s : State) (k : Nat) (n : Node) : (setNode s k n).eoutReg = s.eoutReg := rfl
@[simp] theorem setNode_decState (s : State) (k : Nat) (n : Node) : (setNode s k n).decState = s.decState := rfl
@[simp] theorem setNode_cur (s : State) (k : Nat) (n : Node) : (setNode s k n).cur = s.cur := rfl
@[simp] theorem setNode_doutReg (s : State) (k : Nat) (n : Node) : (setNode s k n).doutReg = s.doutReg := rfl
@[simp] theorem setNode_eout (s : State) (k : Nat) (n : Node) : (setNode s k n).eout = s.eout := rfl
@[simp] theorem setNode_dout (s : State) (k : Nat) (n : Node) : (setNode s k n).dout = s.dout := rfl
@[simp] theorem setNode_errCode (s : State) (k : Nat) (n : Node) : (setNode s k n).errCode = s.errCode := rfl
@[simp] theorem setNode_fatal (s : State) (k : Nat) (n : Node) : (setNode s k n).fatal = s.fatal := rfl
@[simp] theorem setNode_busy (s : State) (k : Nat) (n : Node) : (setNode s k n).busy = s.busy := rfl
@[simp] theorem setNode_draws (s : State) (k : Nat) (n : Node) : (setNode s k n).draws = s.draws := rfl

@[simp] theorem emitE_prog (s : State) (b : Byte) : (emitE b s).prog = s.prog := rfl
@[simp] theorem emitE_pos (s : State) (b : Byte) : (emitE b s).pos = s.pos := rfl
@[simp] theorem emitE_freq (s : State) (b : Byte) : (emitE b s).freq = s.freq := rfl
@[simp] theorem emitE_nodes (s : State) (b : Byte) : (emitE b s).nodes = s.nodes := rfl
@[simp] theorem emitE_root (s : State) (b : Byte) : (emitE b s).root = s.root := rfl
@[simp] theorem emitE_nleaf (s : State) (b : Byte) : (emitE b s).nleaf = s.nleaf := rfl
@[simp] theorem emitE_treeValid (s : State) (b : Byte) : (emitE b s).treeValid = s.treeValid := rfl
@[simp] theorem emitE_code (s : State) (b : Byte) : (emitE b s).code = s.code := rfl
@[simp] theorem emitE_acc (s : State) (b : Byte) : (emitE b s).acc = s.acc := rfl
@[simp] theorem emitE_accCnt (s : State) (b : Byte) : (emitE b s).accCnt = s.accCnt := rfl
@[simp] theorem emitE_encOpen (s : State) (b : Byte) : (emitE b s).encOpen = s.encOpen := rfl
@[simp] theorem emitE_eoutReg (s : State) (b : Byte) : (emitE b s).eoutReg = b := rfl
@[simp] theorem emitE_decState (s : State) (b : Byte) : (emitE b s).decState = s.decState := rfl
@[simp] theorem emitE_cur (s : State) (b : Byte) : (emitE b s).cur = s.cur := rfl
@[simp] theorem emitE_doutReg (s : State) (b : Byte) : (emitE b s).doutReg = s.doutReg := rfl
@[simp] theorem emitE_eout (s : State) (b : Byte) : (emitE b s).eout = s.eout ++ [b] := rfl
@[simp] theorem emitE_dout (s : State) (b : Byte) : (emitE b s).dout = s.dout := rfl
@[simp] theorem emitE_errCode (s : State) (b : Byte) : (emitE b s).errCode = s.errCode := rfl
@[simp] theorem emitE_fatal (s : State) (b : Byte) : (emitE b s).fatal = s.fatal := rfl
@[simp] theorem emitE_busy (s : State) (b : Byte) : (emitE b s).busy = s.busy := rfl
@[simp] theorem emitE_draws (s : State) (b : Byte) : (emitE b s).draws = s.draws := rfl

@[simp] theorem emitD_prog (s : State) (b : Byte) : (emitD b s).prog = s.prog := rfl
@[simp] theorem emitD_pos (s : State) (b : Byte) : (emitD b s).pos = s.pos := rfl
@[simp] theorem emitD_freq (s : State) (b : Byte) : (emitD b s).freq = s.freq := rfl
@[simp] theorem emitD_nodes (s : State) (b : Byte) : (emitD b s).nodes = s.nodes := rfl
@[simp] theorem emitD_root (s : State) (b : Byte) : (emitD b s).root = s.root := rfl
@[simp] theorem emitD_nleaf (s : State) (b : Byte) : (emitD b s).nleaf = s.nleaf := rfl
@[simp] theorem emitD_treeValid (s : State) (b : Byte) : (emitD b s).treeValid = s.treeValid := rfl
@[simp] theorem emitD_code (s : State) (b : Byte) : (emitD b s).code = s.code := rfl
@[simp] theorem emitD_acc (s : State) (b : Byte) : (emitD b s).acc = s.acc := rfl
@[simp] theorem emitD_accCnt (s : State) (b : Byte) : (emitD b s).accCnt = s.accCnt := rfl
@[simp] theorem emitD_encOpen (s : State) (b : Byte) : (emitD b s).encOpen = s.encOpen := rfl
@[simp] theorem emitD_eoutReg (s : State) (b : Byte) : (emitD b s).eoutReg = s.eoutReg := rfl
@[simp] theorem emitD_decState (s : State) (b : Byte) : (emitD b s).decState = s.decState := rfl
@[simp] theorem emitD_cur (s : State) (b : Byte) : (emitD b s).cur = s.cur := rfl
@[simp] theorem emitD_doutReg (s : State) (b : Byte) : (emitD b s).doutReg = b := rfl
@[simp] theorem emitD_eout (s : State) (b : Byte) : (emitD b s).eout = s.eout := rfl
@[simp] theorem emitD_dout (s : State) (b : Byte) : (emitD b s).dout = s.dout ++ [b] := rfl
@[simp] theorem emitD_errCode (s : State) (b : Byte) : (emitD b s).errCode = s.errCode := rfl
@[simp] theorem emitD_fatal (s : State) (b : Byte) : (emitD b s).fatal = s.fatal := rfl
@[simp] theorem emitD_busy (s : State) (b : Byte) : (emitD b s).busy = s.busy := rfl
@[simp] theorem emitD_draws (s : State) (b : Byte) : (emitD b s).draws = s.draws := rfl

@[simp] theorem raiseFatal_prog (s : State) : (raiseFatal s).prog = s.prog := rfl
@[simp] theorem raiseFatal_pos (s : State) : (raiseFatal s).pos = s.pos := rfl
@[simp] theorem raiseFatal_freq (s : State) : (raiseFatal s).freq = s.freq := rfl
@[simp] theorem raiseFatal_nodes (s : State) : (raiseFatal s).nodes = s.nodes := rfl
@[simp] theorem raiseFatal_root (s : State) : (raiseFatal s).root = s.root := rfl
@[simp] theorem raiseFatal_nleaf (s : State) : (raiseFatal s).nleaf = s.nleaf := rfl
@[simp] theorem raiseFatal_treeValid (s : State) : (raiseFatal s).treeValid = s.treeValid := rfl
@[simp] theorem raiseFatal_code (s : State) : (raiseFatal s).code = s.code := rfl
@[simp] theorem raiseFatal_acc (s : State) : (raiseFatal s).acc = s.acc := rfl
@[simp] theorem raiseFatal_accCnt (s : State) : (raiseFatal s).accCnt = s.accCnt := rfl
@[simp] theorem raiseFatal_encOpen (s : State) : (raiseFatal s).encOpen = s.encOpen := rfl
@[simp] theorem raiseFatal_eoutReg (s : State) : (raiseFatal s).eoutReg = s.eoutReg := rfl
@[simp] theorem raiseFatal_decState (s : State) : (raiseFatal s).decState = s.decState := rfl
@[simp] theorem raiseFatal_cur (s : State) : (raiseFatal s).cur = s.cur := rfl
@[simp] theorem raiseFatal_doutReg (s : State) : (raiseFatal s).doutReg = s.doutReg := rfl
@[simp] theorem raiseFatal_eout (s : State) : (raiseFatal s).eout = s.eout := rfl
@[simp] theorem raiseFatal_dout (s : State) : (raiseFatal s).dout = s.dout := rfl
@[simp] theorem raiseFatal_errCode (s : State) : (raiseFatal s).errCode = .nocode := rfl
@[simp] theorem raiseFatal_fatal (s : State) : (raiseFatal s).fatal = true := rfl
@[simp] theorem raiseFatal_busy (s : State) : (raiseFatal s).busy = s.busy := rfl
@[simp] theorem raiseFatal_draws (s : State) : (raiseFatal s).draws = s.draws := rfl

@[simp] theorem clearErr_prog (s : State) : (clearErr s).prog = s.prog := rfl
@[simp] theorem clearErr_pos (s : State) : (clearErr s).pos = s.pos := rfl
@[simp] theorem clearErr_freq (s : State) : (clearErr s).freq = s.freq := rfl
@[simp] theorem clearErr_nodes (s : State) : (clearErr s).nodes = s.nodes := rfl
@[simp] theorem clearErr_root (s : State) : (clearErr s).root = s.root := rfl
@[simp] theorem clearErr_nleaf (s : State) : (clearErr s).nleaf = s.nleaf := rfl
@[simp] theorem clearErr_treeValid (s : State) : (clearErr s).treeValid = s.treeValid := rfl
@[simp] theorem clearErr_code (s : State) : (clearErr s).code = s.code := rfl
@[simp] theorem clearErr_acc (s : State) : (clearErr s).acc = s.acc := rfl
@[simp] theorem clearErr_accCnt (s : State) : (clearErr s).accCnt = s.accCnt := rfl
@[simp] theorem clearErr_encOpen (s : State) : (clearErr s).encOpen = s.encOpen := rfl
@[simp] theorem clearErr_eoutReg (s : State) : (clearErr s).eoutReg = s.eoutReg := rfl
@[simp] theorem clearErr_decState (s : State) : (clearErr s).decState = s.decState := rfl
@[simp] theorem clearErr_cur (s : State) : (clearErr s).cur = s.cur := rfl
@[simp] theorem clearErr_doutReg (s : State) : (clearErr s).doutReg = s.doutReg := rfl
@[simp] theorem clearErr_eout (s : State) : (clearErr s).eout = s.eout := rfl
@[simp] theorem clearErr_dout (s : State) : (clearErr s).dout = s.dout := rfl
@[simp] theorem clearErr_errCode (s : State) : (clearErr s).errCode = .none := rfl
@[simp] theorem clearErr_fatal (s : State) : (clearErr s).fatal = s.fatal := rfl
@[simp] theorem clearErr_busy (s : State) : (clearErr s).busy = s.busy := rfl
@[simp] theorem clearErr_draws (s : State) : (clearErr s).draws = s.draws := rfl

@[simp] theorem advance_prog (s : State) : (advance s).prog = s.prog := rfl
@[simp] theorem advance_pos (s : State) : (advance s).pos = s.pos + 1 := rfl
@[simp] theorem advance_freq (s : State) : (advance s).freq = s.freq := rfl
@[simp] theorem advance_nodes (s : State) : (advance s).nodes = s.nodes := rfl
@[simp] theorem advance_root (s : State) : (advance s).root = s.root := rfl
@[simp] theorem advance_nleaf (s : State) : (advance s).nleaf = s.nleaf := rfl
@[simp] theorem advance_treeValid (s : State) : (advance s).treeValid = s.treeValid := rfl
@[simp] theorem advance_code (s : State) : (advance s).code = s.code := rfl
@[simp] theorem advance_acc (s : State) : (advance s).acc = s.acc := rfl
@[simp] theorem advance_accCnt (s : State) : (advance s).accCnt = s.accCnt := rfl
@[simp] theorem advance_encOpen (s : State) : (advance s).encOpen = s.encOpen := rfl
@[simp] theorem advance_eoutReg (s : State) : (advance s).eoutReg = s.eoutReg := rfl
@[simp] theorem advance_decState (s : State) : (advance s).decState = s.decState := rfl
@[simp] theorem advance_cur (s : State) : (advance s).cur = s.cur := rfl
@[simp] theorem advance_doutReg (s : State) : (advance s).doutReg = s.doutReg := rfl
@[simp] theorem advance_eout (s : State) : (advance s).eout = s.eout := rfl
@[simp] theorem advance_dout (s : State) : (advance s).dout = s.dout := rfl
@[simp] theorem advance_errCode (s : State) : (advance s).errCode = s.errCode := rfl
@[simp] theorem advance_fatal (s : State) : (advance s).fatal = s.fatal := rfl
@[simp] theorem advance_busy (s : State) : (advance s).busy = s.busy := rfl
@[simp] theorem advance_draws (s : State) : (advance s).draws = s.draws := rfl

@[simp] theorem writeCommand_prog (s : State) (w : Word) : (writeCommand w s).prog = s.prog ++ [w] := rfl
@[simp] theorem writeCommand_pos (s : State) (w : Word) : (writeCommand w s).pos = s.pos := rfl
@[simp] theorem writeCommand_freq (s : State) (w : Word) : (writeCommand w s).freq = s.freq := rfl
@[simp] theorem writeCommand_nodes (s : State) (w : Word) : (writeCommand w s).nodes = s.nodes := rfl
@[simp] theorem writeCommand_root (s : State) (w : Word) : (writeCommand w s).root = s.root := rfl
@[simp] theorem writeCommand_nleaf (s : State) (w : Word) : (writeCommand w s).nleaf = s.nleaf := rfl
@[simp] theorem writeCommand_treeValid (s : State) (w : Word) : (writeCommand w s).treeValid = s.treeValid := rfl
@[simp] theorem writeCommand_code (s : State) (w : Word) : (writeCommand w s).code = s.code := rfl
@[simp] theorem writeCommand_acc (s : State) (w : Word) : (writeCommand w s).acc = s.acc := rfl
@[simp] theorem writeCommand_accCnt (s : State) (w : Word) : (writeCommand w s).accCnt = s.accCnt := rfl
@[simp] theorem writeCommand_encOpen (s : State) (w : Word) : (writeCommand w s).encOpen = s.encOpen := rfl
@[simp] theorem writeCommand_eoutReg (s : State) (w : Word) : (writeCommand w s).eoutReg = s.eoutReg := rfl
@[simp] theorem writeCommand_decState (s : State) (w : Word) : (writeCommand w s).decState = s.decState := rfl
@[simp] theorem writeCommand_cur (s : State) (w : Word) : (writeCommand w s).cur = s.cur := rfl
@[simp] theorem writeCommand_doutReg (s : State) (w : Word) : (writeCommand w s).doutReg = s.doutReg := rfl
@[simp] theorem writeCommand_eout (s : State) (w : Word) : (writeCommand w s).eout = s.eout := rfl
@[simp] theorem writeCommand_dout (s : State) (w : Word) : (writeCommand w s).dout = s.dout := rfl
@[simp] theorem writeCommand_errCode (s : State) (w : Word) : (writeCommand w s).errCode = s.errCode := rfl
@[simp] theorem writeCommand_fatal (s : State) (w : Word) : (writeCommand w s).fatal = s.fatal := rfl
@[simp] theorem writeCommand_busy (s : State) (w : Word) : (writeCommand w s).busy = s.busy := rfl
@[simp] theorem writeCommand_draws (s : State) (w : Word) : (writeCommand w s).draws = s.draws := rfl

@[simp] theorem raiseError_prog (s : State) (e : ErrCode) : (raiseError e s).prog = s.prog := by
  unfold raiseError; split <;> rfl
@[simp] theorem raiseError_pos (s : State) (e : ErrCode) : (raiseError e s).pos = s.pos := by
  unfold raiseError; split <;> rfl
@[simp] theorem raiseError_freq (s : State) (e : ErrCode) : (raiseError e s).freq = s.freq := by
  unfold raiseError; split <;> rfl
@[simp] theorem raiseError_nodes (s : State) (e : ErrCode) : (raiseError e s).nodes = s.nodes := by
  unfold raiseError; split <;> rfl
@[simp] theorem raiseError_root (s : State) (e : ErrCode) : (raiseError e s).root = s.root := by
  unfold raiseError; split <;> rfl
@[simp] theorem raiseError_nleaf (s : State) (e : ErrCode) : (raiseError e s).nleaf = s.nleaf := by
  unfold raiseError; split <;> rfl
@[simp] theorem raiseError_treeValid (s : State) (e : ErrCode) : (raiseError e s).treeValid = s.treeValid := by
  unfold raiseError; split <;> rfl
@[simp] theorem raiseError_code (s : State) (e : ErrCode) : (raiseError e s).code = s.code := by
  unfold raiseError; split <;> rfl
@[simp] theorem raiseError_acc (s : State) (e : ErrCode) : (raiseError e s).acc = s.acc := by
  unfold raiseError; split <;> rfl
@[simp] theorem raiseError_accCnt (s : State) (e : ErrCode) : (raiseError e s).accCnt = s.accCnt := by
  unfold raiseError; split <;> rfl
@[simp] theorem raiseError_encOpen (s : State) (e : ErrCode) : (raiseError e s).encOpen = s.encOpen := by
  unfold raiseError; split <;> rfl
@[simp] theorem raiseError_eoutReg (s : State) (e : ErrCode) : (raiseError e s).eoutReg = s.eoutReg := by
  unfold raiseError; split <;> rfl
@[simp] theorem raiseError_decState (s : State) (e : ErrCode) : (raiseError e s).decState = s.decState := by
  unfold raiseError; split <;> rfl
@[simp] theorem raiseError_cur (s : State) (e : ErrCode) : (raiseError e s).cur = s.cur := by
  unfold raiseError; split <;> rfl
@[simp] theorem raiseError_doutReg (s : State) (e : ErrCode) : (raiseError e s).doutReg = s.doutReg := by
  unfold raiseError; split <;> rfl
@[simp] theorem raiseError_eout (s : State) (e : ErrCode) : (raiseError e s).eout = s.eout := by
  unfold raiseError; split <;> rfl
@[simp] theorem raiseError_dout (s : State) (e : ErrCode) : (raiseError e s).dout = s.dout := by
  unfold raiseError; split <;> rfl
@[simp] theorem raiseError_errCode (s : State) (e : ErrCode) :
    (raiseError e s).errCode = if s.errCode = .none then e else s.errCode := by
  unfold raiseError; split <;> rfl
@[simp] theorem raiseError_fatal (s : State) (e : ErrCode) : (raiseError e s).fatal = s.fatal := by
  unfold raiseError; split <;> rfl
@[simp] theorem raiseError_busy (s : State) (e : ErrCode) : (raiseError e s).busy = s.busy := by
  unfold raiseError; split <;> rfl
@[simp] theorem raiseError_draws (s : State) (e : ErrCode) : (raiseError e s).draws = s.draws := by
  unfold raiseError; split <;> rfl

@[simp] theorem raiseErr_prog (s : State) (e : ErrCode) : (raiseErr e s).prog = s.prog := by
  unfold raiseErr; split <;> simp
@[simp] theorem raiseErr_pos (s : State) (e : ErrCode) : (raiseErr e s).pos = s.pos := by
  unfold raiseErr; split <;> simp
@[simp] theorem raiseErr_freq (s : State) (e : ErrCode) : (raiseErr e s).freq = s.freq := by
  unfold raiseErr; split <;> simp
@[simp] theorem raiseErr_nodes (s : State) (e : ErrCode) : (raiseErr e s).nodes = s.nodes := by
  unfold raiseErr; split <;> simp
@[simp] theorem raiseErr_root (s : State) (e : ErrCode) : (raiseErr e s).root = s.root := by
  unfold raiseErr; split <;> simp
@[simp] theorem raiseErr_nleaf (s : State) (e : ErrCode) : (raiseErr e s).nleaf = s.nleaf := by
  unfold raiseErr; split <;> simp
@[simp] theorem raiseErr_treeValid (s : State) (e : ErrCode) : (raiseErr e s).treeValid = s.treeValid := by
  unfold raiseErr; split <;> simp
@[simp] theorem raiseErr_code (s : State) (e : ErrCode) : (raiseErr e s).code = s.code := by
  unfold raiseErr; split <;> simp
@[simp] theorem raiseErr_acc (s : State) (e : ErrCode) : (raiseErr e s).acc = s.acc := by
  unfold raiseErr; split <;> simp
@[simp] theorem raiseErr_accCnt (s : State) (e : ErrCode) : (raiseErr e s).accCnt = s.accCnt := by
  unfold raiseErr; split <;> simp
@[simp] theorem raiseErr_encOpen (s : State) (e : ErrCode) : (raiseErr e s).encOpen = s.encOpen := by
  unfold raiseErr; split <;> simp
@[simp] theorem raiseErr_eoutReg (s : State) (e : ErrCode) : (raiseErr e s).eoutReg = s.eoutReg := by
  unfold raiseErr; split <;> simp
@[simp] theorem raiseErr_decState (s : State) (e : ErrCode) : (raiseErr e s).decState = s.decState := by
  unfold raiseErr; split <;> simp
@[simp] theorem raiseErr_cur (s : State) (e : ErrCode) : (raiseErr e s).cur = s.cur := by
  unfold raiseErr; split <;> simp
@[simp] theorem raiseErr_doutReg (s : State) (e : ErrCode) : (raiseErr e s).doutReg = s.doutReg := by
  unfold raiseErr; split <;> simp
@[simp] theorem raiseErr_eout (s : State) (e : ErrCode) : (raiseErr e s).eout = s.eout := by
  unfold raiseErr; split <;> simp
@[simp] theorem raiseErr_dout (s : State) (e : ErrCode) : (raiseErr e s).dout = s.dout := by
  unfold raiseErr; split <;> simp
@[simp] theorem raiseErr_busy (s : State) (e : ErrCode) : (raiseErr e s).busy = s.busy := by
  unfold raiseErr; split <;> simp
@[simp] theorem raiseErr_draws (s : State) (e : ErrCode) : (raiseErr e s).draws = s.draws := by
  unfold raiseErr; split <;> simp

end Sys2Proof.Machine
end

