-- ==== Sys2Proof/Laws/Ops.lean ====
section
/-! SUPPORT. What each shared operation can do, once. -/

namespace Sys2Proof.Machine

theorem entry_setIfInBounds {α : Type} {n : Nat} (d : α) (v : Vector α n) (i j : Nat) (x : α) (hj : j < n) :
    entry d (v.setIfInBounds i x) j = if i = j then x else entry d v j := by
  unfold entry
  rw [Vector.getElem?_setIfInBounds]
  by_cases h : i = j
  · subst h; simp [hj]
  · simp [h]

theorem entry_replicate {α : Type} {n : Nat} (d : α) (x : α) (j : Nat) (hj : j < n) :
    entry d (Vector.replicate n x) j = x := by
  simp [entry, hj]

theorem entry_outside {α : Type} {n : Nat} (d : α) (v : Vector α n) (j : Nat) (hj : n ≤ j) : entry d v j = d := by
  simp [entry, hj]

/-- Two tables with the same entries are one. -/
theorem vector_ext_entry {α : Type} {n : Nat} (d : α) {v w : Vector α n}
    (h : ∀ j, j < n → entry d v j = entry d w j) : v = w := by
  ext j hj
  simpa [entry, hj] using h j hj

theorem freqAt_setFreq (s : State) (sym k : Nat) (c : Freq) (hk : k < Config.nsym) :
    freqAt (setFreq s sym c) k = if sym = k then c else freqAt s k := by
  simp only [freqAt, setFreq_freq, entry_setIfInBounds _ _ _ _ _ hk]

/-- The three ways a command ends (60_exceptions.md R184). -/
theorem checked_cases {s : State} {cs : List (Bool × ErrCode)} {p r : Result} (h : checked s cs p = r) :
    (s.fatal = true ∧ r = .next s) ∨
    (s.fatal = false ∧ ∃ e, firstFailing cs = some e ∧ r = .next (raiseErr e s)) ∨
    (s.fatal = false ∧ firstFailing cs = none ∧ r = p) := by
  unfold checked at h
  cases hf : s.fatal
  · cases hc : firstFailing cs with
    | none => simp [hf, hc] at h; simp [h]
    | some e => simp [hf, hc] at h; simp [h]
  · simp [hf] at h; simp [h]

theorem checked_dropped {s : State} (cs : List (Bool × ErrCode)) (p : Result) (h : s.fatal = true) :
    checked s cs p = .next s := by
  simp [checked, h]

theorem checked_raises {s : State} {cs : List (Bool × ErrCode)} {e : ErrCode} (p : Result) (h : s.fatal = false)
    (hc : firstFailing cs = some e) : checked s cs p = .next (raiseErr e s) := by
  simp [checked, h, hc]

theorem checked_performs {s : State} {cs : List (Bool × ErrCode)} (p : Result) (h : s.fatal = false)
    (hc : firstFailing cs = none) : checked s cs p = p := by
  simp [checked, h, hc]

/-- Every check of a list passed. -/
theorem firstFailing_none {cs : List (Bool × ErrCode)} (h : firstFailing cs = none) : ∀ c ∈ cs, c.1 = false := by
  induction cs with
  | nil => simp
  | cons c cs ih =>
    unfold firstFailing at h
    cases hc : c.1
    · simp only [hc, Bool.false_eq_true, if_false] at h
      intro d hd
      cases hd with
      | head => exact hc
      | tail _ hd => exact ih h d hd
    · simp [hc] at h

/-- Recording an error, as one record update (60_exceptions.md R181). -/
theorem raiseError_eq (e : ErrCode) (s : State) : raiseError e s = afterError e s := by
  unfold raiseError afterError
  split <;> rfl

theorem raiseErr_nonfatal {e : ErrCode} (s : State) (h : e ≠ .nocode) : raiseErr e s = raiseError e s := by
  cases e <;> simp_all [raiseErr, errIsFatal]

theorem raiseErr_nocode (s : State) : raiseErr .nocode s = raiseFatal s := rfl

/-- Raising an error writes ERR_CODE and FATAL alone. -/
theorem raiseErr_frame (e : ErrCode) (s : State) :
    raiseErr e s = { s with errCode := (raiseErr e s).errCode, fatal := (raiseErr e s).fatal } := by
  unfold raiseErr raiseError raiseFatal
  split
  · rfl
  · split <;> rfl

@[simp] theorem isLeaf_noNode : isLeaf Config.noNode = false := by decide

@[simp] theorem namesSlot_noNode : namesSlot Config.noNode = false := by decide

/-- NONE has no child. -/
@[simp] theorem childOn_noNode (s : State) (v : Bool) : childOn s v Config.noNode = Config.noNode := by
  have h : internalNode s Config.noNode = noSlot := entry_outside _ _ _ (by decide)
  cases v <;> simp [childOn, nodeLeft, nodeRight, h, noSlot]

/-- A leaf has no child (10_state.md R26). -/
theorem childOn_leaf {s : State} {i : NodeIdx} (v : Bool) (h : isLeaf i = true) : childOn s v i = Config.noNode := by
  cases v <;> simp [childOn, nodeLeft, nodeRight, h]

@[simp] theorem pathEnd_noNode (s : State) (p : List Bool) : pathEnd s Config.noNode p = Config.noNode := by
  induction p with
  | nil => rfl
  | cons v p ih => simp [pathEnd, ih]

/-- No path leads on from a leaf. -/
theorem pathEnd_leaf {s : State} {i : NodeIdx} (hl : isLeaf i = true) {p : List Bool} (hp : p ≠ []) :
    pathEnd s i p = Config.noNode := by
  cases p with
  | nil => exact absurd rfl hp
  | cons v p => rw [pathEnd, childOn_leaf v hl, pathEnd_noNode]

theorem pathEnd_append (s : State) (i : NodeIdx) (p q : List Bool) :
    pathEnd s i (p ++ q) = pathEnd s (pathEnd s i p) q := by
  induction p generalizing i with
  | nil => rfl
  | cons v p ih => exact ih _

@[simp] theorem bitsDown_length {w : Nat} (v : BitVec w) (n : Nat) : (bitsDown v n).length = n := by
  induction n with
  | zero => rfl
  | succ n ih => simp [bitsDown, ih]

/-- Two words with the same low bits give the same list of bits. -/
theorem bitsDown_congr {w w' : Nat} {v : BitVec w} {v' : BitVec w'} {n : Nat}
    (h : ∀ j, j < n → v.getLsbD j = v'.getLsbD j) : bitsDown v n = bitsDown v' n := by
  induction n with
  | zero => rfl
  | succ n ih => simp [bitsDown, h n (by omega), ih fun j hj => h j (by omega)]

/-- Shifting a bit in at the bottom appends it to the list of bits. -/
theorem bitsDown_shiftIn {w : Nat} (v : BitVec w) (b : Bool) (n : Nat) (hn : n < w) :
    bitsDown ((v <<< 1) ||| bitValue w b) (n + 1) = bitsDown v n ++ [b] := by
  induction n with
  | zero =>
    simp [bitsDown, bitValue, hn]
  | succ n ih =>
    rw [bitsDown, ih (by omega)]
    simp [bitsDown, bitValue, hn, BitVec.getLsbD_eq_getElem (show n < w by omega)]

end Sys2Proof.Machine
end

