-- ==== Sys2Proof/Laws/TreeBuilder.lean ====
section
/-! SUPPORT. What BUILD does: the leaf queue, one grant, the merge loop, the traversal, and the tree it leaves. -/

namespace Sys2Proof.Machine

/-! ### Node access -/

/-- The internal slot that the k-th merge writes (10_state.md R27). -/
def slotAt (s : State) (k : Nat) : Node := entry noSlot s.nodes k

theorem mergeIndex_toNat {k : Nat} (h : k < 256) : (mergeIndex k).toNat = 257 + k := by
  simp [mergeIndex, Config.nsym]; omega

theorem internalNode_eq {s : State} {i : NodeIdx} : internalNode s i = slotAt s (i.toNat - 257) := rfl

theorem isLeaf_iff {i : NodeIdx} : isLeaf i = true ↔ i.toNat < 257 := by simp [isLeaf, Config.nsym]

theorem slotAt_setNode (s : State) (k m : Nat) (n : Node) (hm : m < 256) :
    slotAt (setNode s k n) m = if k = m then n else slotAt s m := by
  simp only [slotAt, setNode_nodes, entry_setIfInBounds _ _ _ _ _ hm]

theorem nodeCount_setNode_ne (s : State) (k : Nat) (n : Node) (i : NodeIdx) (h : i.toNat ≠ 257 + k) :
    nodeCount (setNode s k n) i = nodeCount s i := by
  unfold nodeCount
  split
  · rfl
  · rename_i hl
    have hl' : ¬ i.toNat < 257 := by simpa [isLeaf_iff] using hl
    by_cases hm : i.toNat - 257 < 256
    · have : ¬ k = i.toNat - 257 := by omega
      simp [internalNode_eq, slotAt_setNode _ _ _ _ hm, this]
    · simp [internalNode_eq, slotAt, entry_outside _ _ _ (Nat.le_of_not_lt hm)]

theorem childOn_congr {s t : State} (h : s.nodes = t.nodes) (v : Bool) (i : NodeIdx) : childOn s v i = childOn t v i := by
  simp [childOn, nodeLeft, nodeRight, internalNode, h]

theorem pathEnd_congr {s t : State} (h : s.nodes = t.nodes) (i : NodeIdx) (p : List Bool) :
    pathEnd s i p = pathEnd t i p := by
  induction p generalizing i with
  | nil => rfl
  | cons v p ih => simp [pathEnd, childOn_congr h, ih]

/-! ### The leaf queue (41_tree_builder.md R111) -/

theorem leavesFrom_eq (counts : List Freq) (sym : Nat) :
    leavesFrom sym counts =
      ((List.range counts.length).filter fun k => decide (0 < (counts[k]?.getD 0#32).toNat)).map
        fun k => BitVec.ofNat 10 (sym + k) := by
  induction counts generalizing sym with
  | nil => rfl
  | cons c rest ih =>
    rw [leavesFrom, ih, List.length_cons, List.range_succ_eq_map, List.filter_cons, List.filter_map]
    simp only [List.getElem?_cons_zero, Option.getD_some, decide_eq_true_eq, Function.comp_def,
      List.getElem?_cons_succ, Nat.succ_eq_add_one]
    split
    · simp [Function.comp_def, Nat.add_assoc, Nat.add_comm 1]
    · simp [Function.comp_def, Nat.add_assoc, Nat.add_comm 1]

/-- The leaf queue holds the symbols 0..256 whose count is nonzero, in order. -/
theorem leafQueue_eq_filter (s : State) : leafQueue s =
    ((List.range Config.nsym).filter fun sym => decide (0 < (freqAt s sym).toNat)).map (BitVec.ofNat 10) := by
  rw [leafQueue, leavesFrom_eq]
  simp [freqAt, entry]
  rfl

theorem mem_leafQueue {s : State} {i : NodeIdx} :
    i ∈ leafQueue s ↔ i.toNat < 257 ∧ 0 < (freqAt s i.toNat).toNat := by
  simp only [leafQueue_eq_filter, List.mem_map, List.mem_filter, List.mem_range, decide_eq_true_eq]
  constructor
  · rintro ⟨n, ⟨hn, hf⟩, rfl⟩
    have hn' : n < 257 := hn
    have : (BitVec.ofNat 10 n).toNat = n := by simp; omega
    rw [this]
    exact ⟨hn', hf⟩
  · rintro ⟨hn, hf⟩
    exact ⟨i.toNat, ⟨hn, hf⟩, by simp⟩

theorem leafQueue_nodup (s : State) : (leafQueue s).Nodup := by
  rw [leafQueue_eq_filter]
  refine List.Nodup.map_on ?_ ((List.nodup_range).filter _)
  intro a ha b hb hab
  simp only [List.mem_filter, List.mem_range] at ha hb
  have h1 : a < 257 := ha.1
  have h2 : b < 257 := hb.1
  have := congrArg BitVec.toNat hab
  simp at this
  omega

theorem leafQueue_length_le (s : State) : (leafQueue s).length ≤ 257 := by
  rw [leafQueue_eq_filter, List.length_map]
  exact (List.length_filter_le _ _).trans (by simp [Config.nsym])

theorem leafQueue_congr {s t : State} (h : s.freq = t.freq) : leafQueue s = leafQueue t := by
  rw [leafQueue, leafQueue, h]

/-! ### One grant (41_tree_builder.md R112) -/

/-- The key of a node as one number: (COUNT, index), lexicographically. -/
def nodeKey (s : State) (i : NodeIdx) : Nat := (nodeCount s i).toNat * 1024 + i.toNat

theorem precedes_iff {s : State} {i j : NodeIdx} : precedes s i j = true ↔ nodeKey s i < nodeKey s j := by
  have h1 := i.isLt
  have h2 := j.isLt
  simp only [precedes, nodeKey, decide_eq_true_eq]
  omega

theorem nodeKey_inj {s : State} {i j : NodeIdx} (h : nodeKey s i = nodeKey s j) : i = j := by
  have h1 := i.isLt
  have h2 := j.isLt
  simp only [nodeKey] at h
  exact BitVec.eq_of_toNat_eq (by omega)

theorem leastKeyed_mem (s : State) (i : NodeIdx) (l : List NodeIdx) : leastKeyed s i l ∈ i :: l := by
  induction l generalizing i with
  | nil => simp [leastKeyed]
  | cons j l ih =>
    rw [leastKeyed]
    by_cases hp : precedes s j i = true
    · rw [if_pos hp]; exact List.mem_cons_of_mem _ (ih j)
    · rw [if_neg hp]
      rcases List.mem_cons.1 (ih i) with h | h
      · rw [h]; simp
      · exact List.mem_cons_of_mem _ (List.mem_cons_of_mem _ h)

theorem leastKeyed_least (s : State) (i : NodeIdx) (l : List NodeIdx) :
    ∀ j ∈ i :: l, nodeKey s (leastKeyed s i l) ≤ nodeKey s j := by
  induction l generalizing i with
  | nil => simp [leastKeyed]
  | cons k l ih =>
    intro j hj
    rw [leastKeyed]
    by_cases hp : precedes s k i = true
    · rw [if_pos hp]
      have h0 := ih k k (by simp)
      have hlt := precedes_iff.1 hp
      rcases List.mem_cons.1 hj with rfl | hj
      · omega
      · exact ih k j hj
    · rw [if_neg hp]
      have h0 := ih i i (by simp)
      have hge : ¬ nodeKey s k < nodeKey s i := fun h => hp (precedes_iff.2 h)
      rcases List.mem_cons.1 hj with rfl | hj
      · exact h0
      · rcases List.mem_cons.1 hj with rfl | hj
        · omega
        · exact ih i j (by simp [hj])

/-- What a grant answers: the least-keyed node of the queue, and the queue without it. -/
theorem grant_spec {s : State} {q r : List NodeIdx} {a : NodeIdx} (h : grant s q = some (a, r)) :
    a ∈ q ∧ r = q.erase a ∧ ∀ j ∈ q, nodeKey s a ≤ nodeKey s j := by
  cases q with
  | nil => simp [grant] at h
  | cons i l =>
    simp only [grant, Option.some.injEq, Prod.mk.injEq] at h
    obtain ⟨rfl, rfl⟩ := h
    exact ⟨leastKeyed_mem s i l, rfl, leastKeyed_least s i l⟩

theorem grant_none {s : State} {q : List NodeIdx} (h : grant s q = none) : q = [] := by
  cases q with
  | nil => rfl
  | cons i l => simp [grant] at h

theorem grant_perm {s : State} {q r : List NodeIdx} {a : NodeIdx} (h : grant s q = some (a, r)) :
    List.Perm q (a :: r) := by
  obtain ⟨h1, rfl, -⟩ := grant_spec h
  exact List.perm_cons_erase h1

theorem leastKeyed_congr {s t : State} (i : NodeIdx) (l : List NodeIdx)
    (h : ∀ j ∈ i :: l, nodeCount s j = nodeCount t j) : leastKeyed s i l = leastKeyed t i l := by
  induction l generalizing i with
  | nil => rfl
  | cons j l ih =>
    have hp : precedes s j i = precedes t j i := by
      simp [precedes, h i (by simp), h j (by simp)]
    rw [leastKeyed, leastKeyed, hp]
    apply ih
    intro k hk
    apply h
    by_cases hb : precedes t j i = true
    · rw [if_pos hb] at hk; exact List.mem_cons_of_mem _ hk
    · rw [if_neg hb] at hk
      rcases List.mem_cons.1 hk with h | h
      · rw [h]; simp
      · exact List.mem_cons_of_mem _ (List.mem_cons_of_mem _ h)

theorem grant_congr {s t : State} {q : List NodeIdx} (h : ∀ j ∈ q, nodeCount s j = nodeCount t j) :
    grant s q = grant t q := by
  cases q with
  | nil => rfl
  | cons i l => simp [grant, leastKeyed_congr i l h]

/-! ### The merge loop (41_tree_builder.md R113, R114, R116) -/

/-- The children written by the first `k` merges. -/
def kids (s : State) (k : Nat) : List NodeIdx :=
  (List.range k).flatMap fun m => [(slotAt s m).left, (slotAt s m).right]

theorem kids_congr {s t : State} {k : Nat} (h : ∀ m, m < k → slotAt s m = slotAt t m) : kids s k = kids t k := by
  unfold kids
  apply List.flatMap_congr
  intro m hm
  rw [h m (by simpa using hm)]

theorem mem_kids {s : State} {k : Nat} {j : NodeIdx} :
    j ∈ kids s k ↔ ∃ m, m < k ∧ ((slotAt s m).left = j ∨ (slotAt s m).right = j) := by
  simp only [kids, List.mem_flatMap, List.mem_range, List.mem_cons, List.not_mem_nil, or_false]
  constructor
  · rintro ⟨m, hm, h | h⟩
    · exact ⟨m, hm, .inl h.symm⟩
    · exact ⟨m, hm, .inr h.symm⟩
  · rintro ⟨m, hm, h | h⟩
    · exact ⟨m, hm, .inl h.symm⟩
    · exact ⟨m, hm, .inr h.symm⟩

/-- The sum of the counts of a list of nodes. -/
def countSum (s : State) (q : List NodeIdx) : Nat := (q.map fun i => (nodeCount s i).toNat).sum

theorem countSum_cons (s : State) (i : NodeIdx) (q : List NodeIdx) :
    countSum s (i :: q) = (nodeCount s i).toNat + countSum s q := by simp [countSum]

theorem countSum_perm {s : State} {q r : List NodeIdx} (h : List.Perm q r) : countSum s q = countSum s r :=
  (h.map _).sum_eq

theorem countSum_congr {s t : State} {q : List NodeIdx} (h : ∀ i ∈ q, nodeCount s i = nodeCount t i) :
    countSum s q = countSum t q := by
  unfold countSum
  rw [List.map_congr_left fun i hi => by rw [h i hi]]

/-- The leaves of a queue sum below 2^41 (41_tree_builder.md R116). -/
theorem countSum_leafQueue_lt (s : State) : countSum s (leafQueue s) < 2 ^ 41 := by
  have hb : ∀ q : List NodeIdx, (∀ i ∈ q, i.toNat < 257) → countSum s q ≤ q.length * (2 ^ 32 - 1) := by
    intro q
    induction q with
    | nil => simp [countSum]
    | cons i q ih =>
      intro h
      have hl : isLeaf i = true := isLeaf_iff.2 (h i (by simp))
      have hi : (nodeCount s i).toNat ≤ 2 ^ 32 - 1 := by
        have := (freqAt s i.toNat).isLt
        simp only [nodeCount, hl, if_true, BitVec.toNat_setWidth]
        omega
      have := ih fun j hj => h j (by simp [hj])
      rw [countSum_cons, List.length_cons]
      omega
  have h1 := hb (leafQueue s) fun i hi => (mem_leafQueue.1 hi).1
  have h2 := leafQueue_length_le s
  omega

/-- What holds before and after every merge, of the queue `q`, the merge counter `k` and the state `s`, where `s₀` is
the state BUILD started from. -/
structure Merging (s₀ : State) (q : List NodeIdx) (k : Nat) (s : State) : Prop where
  frame : s = { s₀ with nodes := s.nodes }
  size : k + q.length = (leafQueue s₀).length
  perm : List.Perm (q ++ kids s k) (leafQueue s₀ ++ (List.range k).map mergeIndex)
  order : ∀ m, m < k → (slotAt s m).left.toNat < 257 + m ∧ (slotAt s m).right.toNat < 257 + m
  rest : ∀ m, k ≤ m → slotAt s m = slotAt s₀ m
  sums : ∀ m, m < k →
    (slotAt s m).count.toNat = (nodeCount s (slotAt s m).left).toNat + (nodeCount s (slotAt s m).right).toNat
  total : countSum s q = countSum s₀ (leafQueue s₀)

theorem Merging.queue_lt {s₀ s : State} {q : List NodeIdx} {k : Nat} (h : Merging s₀ q k s) (hk : k ≤ 256) :
    ∀ i ∈ q, i.toNat < 257 + k := by
  intro i hi
  have := h.perm.subset (List.mem_append_left _ hi)
  rcases List.mem_append.1 this with h1 | h1
  · have := (mem_leafQueue.1 h1).1; omega
  · simp only [List.mem_map, List.mem_range] at h1
    obtain ⟨m, hm, rfl⟩ := h1
    rw [mergeIndex_toNat (by omega)]; omega

/-- Before the first merge. -/
theorem Merging.start (s : State) : Merging s (leafQueue s) 0 s where
  frame := rfl
  size := by simp
  perm := by simp [kids]
  order := by simp
  rest := by simp
  sums := by simp
  total := rfl

/-- One merge (41_tree_builder.md R113). -/
theorem Merging.merge {s₀ s : State} {q q₁ q₂ : List NodeIdx} {k : Nat} {a b : NodeIdx} (h : Merging s₀ q k s)
    (h1 : grant s q = some (a, q₁)) (h2 : grant s q₁ = some (b, q₂)) :
    Merging s₀ (mergeIndex k :: q₂) (k + 1) (setNode s k ⟨a, b, nodeCount s a + nodeCount s b⟩) := by
  have p1 := grant_perm h1
  have p2 := grant_perm h2
  have hp : List.Perm q (a :: b :: q₂) := p1.trans (p2.cons a)
  have hlen : q.length = q₂.length + 2 := by simpa using hp.length_eq
  have hL := leafQueue_length_le s₀
  have hsize := h.size
  have hk : k < 256 := by omega
  have hlt := h.queue_lt (by omega)
  have ha : a.toNat < 257 + k := hlt a (hp.symm.subset (by simp))
  have hb : b.toNat < 257 + k := hlt b (hp.symm.subset (by simp))
  have hslot : ∀ m, m < k → slotAt (setNode s k ⟨a, b, nodeCount s a + nodeCount s b⟩) m = slotAt s m := by
    intro m hm
    rw [slotAt_setNode _ _ _ _ (by omega), if_neg (by omega)]
  have hnew : slotAt (setNode s k ⟨a, b, nodeCount s a + nodeCount s b⟩) k = ⟨a, b, nodeCount s a + nodeCount s b⟩ := by
    rw [slotAt_setNode _ _ _ _ hk, if_pos rfl]
  have hcnt : ∀ i : NodeIdx, i.toNat < 257 + k →
      nodeCount (setNode s k ⟨a, b, nodeCount s a + nodeCount s b⟩) i = nodeCount s i :=
    fun i hi => nodeCount_setNode_ne _ _ _ _ (by omega)
  have hsum : (nodeCount s a + nodeCount s b).toNat = (nodeCount s a).toNat + (nodeCount s b).toNat := by
    have ht := h.total
    rw [countSum_perm hp, countSum_cons, countSum_cons] at ht
    have := countSum_leafQueue_lt s₀
    rw [BitVec.toNat_add, Nat.mod_eq_of_lt]
    omega
  have hidx := mergeIndex_toNat hk
  have hkids : kids (setNode s k ⟨a, b, nodeCount s a + nodeCount s b⟩) (k + 1) = kids s k ++ [a, b] := by
    rw [← kids_congr hslot]
    simp [kids, List.range_succ, List.flatMap_append, hnew]
  refine ⟨?_, ?_, ?_, ?_, ?_, ?_, ?_⟩
  · rw [h.frame]; rfl
  · simp only [List.length_cons]; omega
  · rw [hkids, List.range_succ, List.map_append, List.map_singleton, ← List.append_assoc (leafQueue s₀)]
    have e1 : List.Perm (mergeIndex k :: q₂ ++ (kids s k ++ [a, b])) (mergeIndex k :: ((a :: b :: q₂) ++ kids s k)) := by
      rw [List.cons_append]
      refine List.Perm.cons _ ?_
      have : List.Perm (q₂ ++ (kids s k ++ [a, b])) ([a, b] ++ (q₂ ++ kids s k)) := by
        rw [← List.append_assoc]; exact List.perm_append_comm
      simpa using this
    have e2 : List.Perm (mergeIndex k :: ((a :: b :: q₂) ++ kids s k))
        (mergeIndex k :: (leafQueue s₀ ++ (List.range k).map mergeIndex)) :=
      ((hp.symm.append_right _).trans h.perm).cons _
    exact e1.trans (e2.trans (List.perm_append_singleton _ _).symm)
  · intro m hm
    by_cases e : m = k
    · subst e; rw [hnew]; exact ⟨ha, hb⟩
    · rw [hslot m (by omega)]; exact h.order m (by omega)
  · intro m hm
    by_cases hm' : m < 256
    · rw [slotAt_setNode _ _ _ _ hm', if_neg (by omega)]; exact h.rest m (by omega)
    · simp [slotAt, entry_outside _ _ _ (Nat.le_of_not_lt hm')]
  · intro m hm
    by_cases e : m = k
    · subst e; rw [hnew]; simp only; rw [hcnt a ha, hcnt b hb, hsum]
    · have hm' : m < k := by omega
      have ho := h.order m hm'
      rw [hslot m hm', hcnt _ (by omega), hcnt _ (by omega)]; exact h.sums m hm'
  · rw [countSum_cons, ← h.total, countSum_perm hp, countSum_cons, countSum_cons]
    have hn : nodeCount (setNode s k ⟨a, b, nodeCount s a + nodeCount s b⟩) (mergeIndex k)
        = nodeCount s a + nodeCount s b := by
      have hnl : isLeaf (mergeIndex k) = false := by
        rw [Bool.eq_false_iff, ne_eq, isLeaf_iff, hidx]; omega
      rw [nodeCount, hnl, internalNode_eq, hidx, Nat.add_sub_cancel_left, hnew]
      rfl
    rw [hn, hsum, countSum_congr (t := s)]
    · omega
    · intro i hi
      exact hcnt i (hlt i (hp.symm.subset (by simp [hi])))

/-- The whole loop: it ends with one node in the queue (41_tree_builder.md R114). -/
theorem Merging.loop {s₀ : State} (fuel : Nat) {q : List NodeIdx} {k : Nat} {s : State} (h : Merging s₀ q k s)
    (hq : q ≠ []) (hf : q.length ≤ fuel + 1) :
    ∃ r, (mergeLoop fuel q k s).1 = [r] ∧
      Merging s₀ [r] ((leafQueue s₀).length - 1) (mergeLoop fuel q k s).2 := by
  induction fuel generalizing q k s with
  | zero =>
    obtain ⟨r, rfl⟩ : ∃ r, q = [r] := by
      cases q with
      | nil => exact absurd rfl hq
      | cons r l => cases l with
        | nil => exact ⟨r, rfl⟩
        | cons => simp at hf
    have hs := h.size
    simp only [List.length_cons, List.length_nil] at hs
    refine ⟨r, rfl, ?_⟩
    have : (leafQueue s₀).length - 1 = k := by omega
    rw [this]; exact h
  | succ fuel ih =>
    rw [mergeLoop]
    cases h1 : grant s q with
    | none => exact absurd (grant_none h1) hq
    | some p =>
      obtain ⟨a, q₁⟩ := p
      have p1 := (grant_perm h1).length_eq
      cases h2 : grant s q₁ with
      | none =>
        have hnil := grant_none h2
        subst hnil
        have hr : ∃ r, q = [r] := List.length_eq_one_iff.1 (by simpa using p1)
        obtain ⟨r, rfl⟩ := hr
        have hs := h.size
        simp only [List.length_cons, List.length_nil] at hs
        refine ⟨r, by simp [h2], ?_⟩
        have : (leafQueue s₀).length - 1 = k := by omega
        simp only [h2]
        rw [this]; exact h
      | some p' =>
        obtain ⟨b, q₂⟩ := p'
        have p2 := (grant_perm h2).length_eq
        simp only [h2]
        refine ih (h.merge h1 h2) (by simp) ?_
        simp only [List.length_cons] at p1 p2 ⊢
        omega

/-- The loop reads FREQ and the slots it has written, and nothing else (41_tree_builder.md R119). -/
theorem mergeLoop_congr {s₀ t₀ : State} (hfreq : s₀.freq = t₀.freq) (fuel : Nat) {q : List NodeIdx} {k : Nat}
    {s t : State} (hs : Merging s₀ q k s) (ht : Merging t₀ q k t) (h : ∀ m, m < k → slotAt s m = slotAt t m)
    (hq : q ≠ []) (hf : q.length ≤ fuel + 1) :
    (mergeLoop fuel q k s).1 = (mergeLoop fuel q k t).1 ∧
      ∀ m, m < (leafQueue s₀).length - 1 → slotAt (mergeLoop fuel q k s).2 m = slotAt (mergeLoop fuel q k t).2 m := by
  induction fuel generalizing q k s t with
  | zero =>
    refine ⟨rfl, fun m hm => h m ?_⟩
    have h1 := hs.size
    have : 0 < q.length := List.length_pos_iff.2 hq
    omega
  | succ fuel ih =>
    have hL := leafQueue_length_le s₀
    have hsz := hs.size
    have hpos : 0 < q.length := List.length_pos_iff.2 hq
    have hlt := hs.queue_lt (by omega)
    have hfr : s.freq = t.freq := by rw [hs.frame, ht.frame]; exact hfreq
    have hcnt : ∀ i : NodeIdx, i.toNat < 257 + k → nodeCount s i = nodeCount t i := by
      intro i hi
      unfold nodeCount
      split
      · simp [freqAt, hfr]
      · rename_i hl
        have hl' : ¬ i.toNat < 257 := by simpa [isLeaf_iff] using hl
        rw [internalNode_eq, internalNode_eq, h _ (by omega)]
    have hg : grant s q = grant t q := grant_congr fun i hi => hcnt i (hlt i hi)
    rw [mergeLoop, mergeLoop, ← hg]
    cases h1 : grant s q with
    | none => exact absurd (grant_none h1) hq
    | some p =>
      obtain ⟨a, q₁⟩ := p
      have p1 := grant_perm h1
      have hlt1 : ∀ i ∈ q₁, i.toNat < 257 + k := fun i hi => hlt i (p1.symm.subset (by simp [hi]))
      have ha : a.toNat < 257 + k := hlt a (p1.symm.subset (by simp))
      have hg1 : grant s q₁ = grant t q₁ := grant_congr fun i hi => hcnt i (hlt1 i hi)
      simp only
      rw [← hg1]
      cases h2 : grant s q₁ with
      | none =>
        have hnil := grant_none h2
        subst hnil
        have hlen : q.length = 1 := by simpa using p1.length_eq
        exact ⟨rfl, fun m hm => h m (by omega)⟩
      | some p' =>
        obtain ⟨b, q₂⟩ := p'
        have p2 := grant_perm h2
        have hb : b.toNat < 257 + k := hlt1 b (p2.symm.subset (by simp))
        have e1 := p1.length_eq
        have e2 := p2.length_eq
        simp only [List.length_cons] at e1 e2
        simp only
        have hm2 := ht.merge (hg ▸ h1) (hg1 ▸ h2)
        rw [← hcnt a ha, ← hcnt b hb] at hm2
        rw [← hcnt a ha, ← hcnt b hb]
        refine ih (hs.merge h1 h2) hm2 ?_ (by simp) ?_
        · intro m hm
          have hm256 : m < 256 := by omega
          rw [slotAt_setNode _ _ _ _ hm256, slotAt_setNode _ _ _ _ hm256]
          split
          · rfl
          · exact h m (by omega)
        · simp only [List.length_cons]; omega

end Sys2Proof.Machine
end

