-- ==== Sys2Proof/Laws/BuiltTree.lean ====
section
/-! SUPPORT. The tree and the code table that BUILD leaves, and that they are a function of FREQ. -/

namespace Sys2Proof.Machine

/-! ### The traversal (41_tree_builder.md R117) -/

/-- The number a path writes after `bits`: first step highest. -/
def pathValue : Nat → List Bool → Nat
  | bits, [] => bits
  | bits, v :: p => pathValue (2 * bits + v.toNat) p

/-- The entry that the traversal records at the end of a path. -/
def pathEntry (len bits : Nat) (p : List Bool) : CodeEntry :=
  ⟨true, BitVec.ofNat 9 (len + p.length), BitVec.ofNat 256 (pathValue bits p)⟩

/-- Each entry after a visit is the old one, or that of a path from the node to the symbol's leaf. -/
theorem visit_entry (s : State) (depth : Nat) (i : NodeIdx) (len bits : Nat) (table : Vector CodeEntry Config.nsym)
    (sym : Nat) (hsym : sym < 257) :
    entry absentCode (visit s depth i len bits table) sym = entry absentCode table sym ∨
    ∃ p, (pathEnd s i p).toNat = sym ∧
      entry absentCode (visit s depth i len bits table) sym = pathEntry len bits p := by
  induction depth generalizing i len bits table with
  | zero => exact .inl rfl
  | succ depth ih =>
    rw [visit]
    split
    · exact .inl rfl
    · split
      · rw [entry_setIfInBounds _ _ _ _ _ hsym]
        split
        · rename_i h
          exact .inr ⟨[], h, rfl⟩
        · exact .inl rfl
      · rcases ih (nodeRight s i) (len + 1) (2 * bits + 1) (visit s depth (nodeLeft s i) (len + 1) (2 * bits) table)
          with h | ⟨p, hp, h⟩
        · rw [h]
          rcases ih (nodeLeft s i) (len + 1) (2 * bits) table with h | ⟨p, hp, h⟩
          · exact .inl h
          · refine .inr ⟨false :: p, hp, ?_⟩
            rw [h]
            simp [pathEntry, pathValue, Nat.add_comm, Nat.add_left_comm]
        · refine .inr ⟨true :: p, hp, ?_⟩
          rw [h]
          simp [pathEntry, pathValue, Nat.add_comm, Nat.add_left_comm]

/-- A visit deep enough reaches the leaf at the end of a path. -/
theorem visit_reaches (s : State) (depth : Nat) (i : NodeIdx) (len bits : Nat) (table : Vector CodeEntry Config.nsym)
    (p : List Bool) (hp : (pathEnd s i p).toNat < 257) (hd : p.length < depth) :
    ∃ p', (pathEnd s i p').toNat = (pathEnd s i p).toNat ∧
      entry absentCode (visit s depth i len bits table) (pathEnd s i p).toNat = pathEntry len bits p' := by
  induction depth generalizing i len bits table p with
  | zero => omega
  | succ depth ih =>
    have hne : i ≠ Config.noNode := by
      rintro rfl
      rw [pathEnd_noNode] at hp
      exact absurd hp (by decide)
    rw [visit, if_neg hne]
    split
    · rename_i hl
      cases p with
      | nil => exact ⟨[], rfl, by rw [pathEnd, entry_setIfInBounds _ _ _ _ _ (isLeaf_iff.1 hl), if_pos rfl]; rfl⟩
      | cons v p =>
        rw [pathEnd, childOn_leaf v hl, pathEnd_noNode] at hp
        exact absurd hp (by decide)
    · rename_i hl
      cases p with
      | nil => exact absurd (isLeaf_iff.2 hp) hl
      | cons v p =>
        have hlen : p.length < depth := by simpa using hd
        cases v with
        | false =>
          have hp' : (pathEnd s (nodeLeft s i) p).toNat < 257 := hp
          show ∃ p', (pathEnd s i p').toNat = (pathEnd s (nodeLeft s i) p).toNat ∧
            entry absentCode _ (pathEnd s (nodeLeft s i) p).toNat = _
          rcases visit_entry s depth (nodeRight s i) (len + 1) (2 * bits + 1)
              (visit s depth (nodeLeft s i) (len + 1) (2 * bits) table) _ hp' with h | ⟨p', hp'', h⟩
          · rw [h]
            obtain ⟨p', h1, h2⟩ := ih (nodeLeft s i) (len + 1) (2 * bits) table p hp' hlen
            refine ⟨false :: p', h1, ?_⟩
            rw [h2]
            simp [pathEntry, pathValue, Nat.add_comm, Nat.add_left_comm]
          · refine ⟨true :: p', hp'', ?_⟩
            rw [h]
            simp [pathEntry, pathValue, Nat.add_comm, Nat.add_left_comm]
        | true =>
          have hp' : (pathEnd s (nodeRight s i) p).toNat < 257 := hp
          show ∃ p', (pathEnd s i p').toNat = (pathEnd s (nodeRight s i) p).toNat ∧
            entry absentCode _ (pathEnd s (nodeRight s i) p).toNat = _
          obtain ⟨p', h1, h2⟩ := ih (nodeRight s i) (len + 1) (2 * bits + 1)
            (visit s depth (nodeLeft s i) (len + 1) (2 * bits) table) p hp' hlen
          refine ⟨true :: p', h1, ?_⟩
          rw [h2]
          simp [pathEntry, pathValue, Nat.add_comm, Nat.add_left_comm]

theorem visit_congr {s t : State} (h : s.nodes = t.nodes) (depth : Nat) (i : NodeIdx) (len bits : Nat)
    (table : Vector CodeEntry Config.nsym) : visit s depth i len bits table = visit t depth i len bits table := by
  have hl : ∀ j, nodeLeft s j = nodeLeft t j := fun j => childOn_congr h false j
  have hr : ∀ j, nodeRight s j = nodeRight t j := fun j => childOn_congr h true j
  induction depth generalizing i len bits table with
  | zero => rfl
  | succ depth ih => rw [visit, visit, hl, hr, ih, ih]

/-- A visit reads the children of the nodes it can reach alone. -/
theorem visit_congr_on {s t : State} (P : NodeIdx → Prop)
    (h : ∀ i, P i → isLeaf i = false →
      nodeLeft s i = nodeLeft t i ∧ nodeRight s i = nodeRight t i ∧ P (nodeLeft s i) ∧ P (nodeRight s i))
    (depth : Nat) (i : NodeIdx) (hi : P i) (len bits : Nat) (table : Vector CodeEntry Config.nsym) :
    visit s depth i len bits table = visit t depth i len bits table := by
  induction depth generalizing i len bits table with
  | zero => rfl
  | succ depth ih =>
    rw [visit, visit]
    by_cases hl : isLeaf i = true
    · simp [hl]
    · simp only [hl]
      obtain ⟨h1, h2, h3, h4⟩ := h i hi (by simpa using hl)
      rw [← h1, ← h2, ih _ h3, ih _ h4]

theorem genCodes_congr {s t : State} (hn : s.nodes = t.nodes) (hr : s.root = t.root) : genCodes s = genCodes t := by
  rw [genCodes, genCodes, hr]
  exact visit_congr hn _ _ _ _ _

theorem pathValue_snoc (bits : Nat) (p : List Bool) (v : Bool) :
    pathValue bits (p ++ [v]) = 2 * pathValue bits p + v.toNat := by
  induction p generalizing bits with
  | nil => rfl
  | cons u p ih => exact ih _

/-- A path of n steps writes a number below 2^n. -/
theorem pathValue_lt (p : List Bool) : pathValue 0 p < 2 ^ p.length := by
  induction p using List.reverseRecOn with
  | nil => simp [pathValue]
  | append_singleton p v ih =>
    rw [pathValue_snoc, List.length_append, List.length_singleton, Nat.pow_succ]
    cases v <;> simp <;> omega

/-- The bits of an entry of the traversal above its length are 0. -/
theorem pathEntry_bits_lt (p : List Bool) (hp : p.length ≤ 256) :
    (pathEntry 0 0 p).bits.toNat < 2 ^ (pathEntry 0 0 p).len.toNat := by
  have h1 := pathValue_lt p
  have h2 : (2 : Nat) ^ p.length ≤ 2 ^ 256 := Nat.pow_le_pow_right (by omega) hp
  have h3 : p.length % 2 ^ 9 = p.length := Nat.mod_eq_of_lt (by omega)
  simp only [pathEntry, BitVec.toNat_ofNat, Nat.zero_add, h3]
  rw [Nat.mod_eq_of_lt (by omega)]
  exact h1

theorem bitsDown_double (w x : Nat) (v : Bool) (n : Nat) (hn : n < w) :
    bitsDown (BitVec.ofNat w (2 * x + v.toNat)) (n + 1) = bitsDown (BitVec.ofNat w x) n ++ [v] := by
  induction n with
  | zero =>
    have h0 : (2 * x + v.toNat).testBit 0 = v := by cases v <;> simp
    simp only [bitsDown, BitVec.getLsbD_ofNat, h0, hn, decide_true, Bool.true_and, List.nil_append]
  | succ n ih =>
    have hb : (2 * x + v.toNat).testBit (n + 1) = x.testBit n := by
      rw [Nat.testBit_succ]
      congr 1
      cases v <;> simp
      omega
    rw [bitsDown, ih (by omega), bitsDown, List.cons_append]
    simp only [BitVec.getLsbD_ofNat, hb]
    simp [hn, show n < w by omega]

/-- The code an entry of the traversal holds is the path (10_state.md R33). -/
theorem codeBits_pathEntry (p : List Bool) (hp : p.length ≤ 256) : codeBits (pathEntry 0 0 p) = p := by
  have hlen : (pathEntry 0 0 p).len.toNat = p.length := by
    simp [pathEntry]; omega
  have key : ∀ p : List Bool, p.length ≤ 256 → bitsDown (BitVec.ofNat 256 (pathValue 0 p)) p.length = p := by
    intro p
    induction p using List.reverseRecOn with
    | nil => intro _; rfl
    | append_singleton p v ih =>
      intro h
      simp only [List.length_append, List.length_singleton] at h
      rw [pathValue_snoc, List.length_append, List.length_singleton, bitsDown_double _ _ _ _ (by omega),
        ih (by omega)]
  rw [codeBits, hlen]
  exact key p hp

/-! ### BUILD (41_tree_builder.md R110) -/

/-- BUILD writes the internal slots, ROOT, NLEAF, the code table and TREE_VALID, and nothing else. -/
theorem buildTree_writes (s : State) :
    ∃ n r l c, buildTree s = { s with nodes := n, root := r, nleaf := l, code := c, treeValid := true } := by
  have hm : ∀ (fuel : Nat) (q : List NodeIdx) (k : Nat) (t : State), ∃ n, (mergeLoop fuel q k t).2 = { t with nodes := n } := by
    intro fuel
    induction fuel with
    | zero => exact fun q k t => ⟨t.nodes, rfl⟩
    | succ fuel ih =>
      intro q k t
      rw [mergeLoop]
      split
      · exact ⟨t.nodes, rfl⟩
      · split
        · exact ⟨t.nodes, rfl⟩
        · obtain ⟨n, h⟩ := ih _ _ (setNode t k _)
          exact ⟨n, by rw [h]; rfl⟩
  obtain ⟨n, h⟩ := hm (leafQueue s).length (leafQueue s) 0 s
  exact ⟨n, _, _, _, by unfold buildTree; simp only [h]; rfl⟩

/-- The state after BUILD, of a table with a nonzero count: `s` was the state before, `t` is the state after. -/
structure Built (s t : State) : Prop where
  frame : t = { s with nodes := t.nodes, root := t.root, nleaf := t.nleaf, code := t.code, treeValid := true }
  merging : Merging s [t.root] ((leafQueue s).length - 1) { s with nodes := t.nodes }
  nleaf : t.nleaf.toNat = (leafQueue s).length
  code : t.code = genCodes t

theorem built_buildTree {s : State} (hq : leafQueue s ≠ []) : Built s (buildTree s) := by
  obtain ⟨r, h1, h2⟩ := (Merging.start s).loop (leafQueue s).length hq (by omega)
  have hL := leafQueue_length_le s
  have hn : (buildTree s).nodes = (mergeLoop (leafQueue s).length (leafQueue s) 0 s).2.nodes := rfl
  have hr : (buildTree s).root = r := by
    show onlyElement (mergeLoop (leafQueue s).length (leafQueue s) 0 s).1 = r
    rw [h1]; rfl
  refine ⟨?_, ?_, ?_, ?_⟩
  · obtain ⟨n, r, l, c, h⟩ := buildTree_writes s
    rw [h]
  · rw [hr, hn]
    have := h2.frame
    rw [← this]
    exact h2
  · show (BitVec.ofNat 9 (leafQueue s).length).toNat = _
    simp; omega
  · unfold buildTree
    exact genCodes_congr rfl rfl

/-- BUILD's results are a function of FREQ and of the slots it does not write (41_tree_builder.md R119). -/
theorem buildTree_congr {s t : State} (hfreq : s.freq = t.freq) (hq : leafQueue s ≠ []) :
    (buildTree s).root = (buildTree t).root ∧ (buildTree s).nleaf = (buildTree t).nleaf ∧
    (∀ m, m < (leafQueue s).length - 1 → slotAt (buildTree s) m = slotAt (buildTree t) m) := by
  have hqq := leafQueue_congr hfreq
  have ht := Merging.start t
  rw [← hqq] at ht
  obtain ⟨h1, h2⟩ := mergeLoop_congr hfreq (leafQueue s).length (Merging.start s) ht (by simp) hq (by omega)
  refine ⟨?_, ?_, ?_⟩
  · show onlyElement (mergeLoop (leafQueue s).length (leafQueue s) 0 s).1
      = onlyElement (mergeLoop (leafQueue t).length (leafQueue t) 0 t).1
    rw [h1, hqq]
  · show BitVec.ofNat 9 (leafQueue s).length = BitVec.ofNat 9 (leafQueue t).length
    rw [hqq]
  · intro m hm
    have := h2 m hm
    rw [hqq] at this
    rw [← hqq] at this
    show slotAt (mergeLoop (leafQueue s).length (leafQueue s) 0 s).2 m
      = slotAt (mergeLoop (leafQueue t).length (leafQueue t) 0 t).2 m
    rw [this, hqq]

/-- The leaves and the slots of the merges are all different. -/
theorem treeNodes_nodup (s : State) {k : Nat} (hk : k ≤ 256) :
    (leafQueue s ++ (List.range k).map mergeIndex).Nodup := by
  refine List.nodup_append.2 ⟨leafQueue_nodup s, List.Nodup.map_on ?_ List.nodup_range, ?_⟩
  · intro a ha b hb hab
    simp only [List.mem_range] at ha hb
    have := congrArg BitVec.toNat hab
    rw [mergeIndex_toNat (by omega), mergeIndex_toNat (by omega)] at this
    omega
  · intro a ha b hb hab
    subst hab
    have h1 := (mem_leafQueue.1 ha).1
    simp only [List.mem_map, List.mem_range] at hb
    obtain ⟨m, hm, rfl⟩ := hb
    rw [mergeIndex_toNat (by omega)] at h1
    omega

section
variable {s t : State}

theorem Built.freqAt_eq (h : Built s t) (n : Nat) : freqAt t n = freqAt s n := by rw [h.frame]; rfl

theorem Built.nleaf_le (h : Built s t) : t.nleaf.toNat ≤ 257 := h.nleaf ▸ leafQueue_length_le s

theorem Built.nleaf_pos (h : Built s t) : 0 < t.nleaf.toNat := by
  have := h.merging.size
  rw [h.nleaf]
  simp only [List.length_singleton] at this
  omega

theorem Built.merges (h : Built s t) : (leafQueue s).length - 1 = t.nleaf.toNat - 1 := by rw [h.nleaf]

theorem Built.slotAt_eq (_ : Built s t) (m : Nat) : slotAt { s with nodes := t.nodes } m = slotAt t m := rfl

/-- A node is in the tree exactly when it is a queued leaf or a slot that a merge wrote. -/
theorem Built.inTree_iff (h : Built s t) (i : NodeIdx) :
    inTree t i.toNat = true ↔ i ∈ leafQueue s ++ (List.range (t.nleaf.toNat - 1)).map mergeIndex := by
  have htv : t.treeValid = true := by rw [h.frame]
  have hle := h.nleaf_le
  simp only [inTree, htv, Bool.true_and, List.mem_append, List.mem_map, List.mem_range, mem_leafQueue, h.freqAt_eq]
  by_cases hi : i.toNat < 257
  · have : i.toNat < Config.nsym := hi
    simp only [this, if_true, decide_eq_true_eq, true_and]
    constructor
    · exact .inl
    · rintro (h1 | ⟨m, hm, rfl⟩)
      · exact h1
      · rw [mergeIndex_toNat (by omega)] at hi; omega
  · have : ¬ i.toNat < Config.nsym := hi
    simp only [this, if_false, decide_eq_true_eq, false_and, false_or]
    constructor
    · intro h1
      refine ⟨i.toNat - 257, by omega, ?_⟩
      apply BitVec.eq_of_toNat_eq
      rw [mergeIndex_toNat (by omega)]; omega
    · rintro ⟨m, hm, rfl⟩
      rw [mergeIndex_toNat (by omega)]; omega

theorem Built.perm (h : Built s t) :
    List.Perm (t.root :: kids t (t.nleaf.toNat - 1))
      (leafQueue s ++ (List.range (t.nleaf.toNat - 1)).map mergeIndex) := by
  have := h.merging.perm
  rw [h.merges] at this
  exact this

theorem Built.order (h : Built s t) {m : Nat} (hm : m < t.nleaf.toNat - 1) :
    (slotAt t m).left.toNat < 257 + m ∧ (slotAt t m).right.toNat < 257 + m :=
  h.merging.order m (by rw [h.merges]; exact hm)

theorem Built.nodes_nodup (h : Built s t) :
    (leafQueue s ++ (List.range (t.nleaf.toNat - 1)).map mergeIndex).Nodup :=
  treeNodes_nodup s (by have := h.nleaf_le; omega)

theorem Built.internal (h : Built s t) {i : NodeIdx} (hi : 257 ≤ i.toNat) (hin : inTree t i.toNat = true) :
    ∃ m, m < t.nleaf.toNat - 1 ∧ i.toNat = 257 + m ∧ nodeLeft t i = (slotAt t m).left ∧
      nodeRight t i = (slotAt t m).right ∧ nodeCount t i = (slotAt t m).count := by
  have htv : t.treeValid = true := by rw [h.frame]
  have hns : ¬ i.toNat < Config.nsym := by show ¬ i.toNat < 257; omega
  have hle : i.toNat ≤ 255 + t.nleaf.toNat := by simpa [inTree, htv, hns] using hin
  have hl : isLeaf i = false := by rw [Bool.eq_false_iff, ne_eq, isLeaf_iff]; omega
  refine ⟨i.toNat - 257, by omega, by omega, ?_, ?_, ?_⟩
  · simp [nodeLeft, hl, internalNode_eq]
  · simp [nodeRight, hl, internalNode_eq]
  · simp [nodeCount, hl, internalNode_eq]

theorem Built.slot_inTree (h : Built s t) {m : Nat} (hm : m < t.nleaf.toNat - 1) :
    inTree t (mergeIndex m).toNat = true :=
  (h.inTree_iff _).2 (List.mem_append_right _ (List.mem_map.2 ⟨m, List.mem_range.2 hm, rfl⟩))

theorem Built.kid_inTree (h : Built s t) {j : NodeIdx} (hj : j ∈ kids t (t.nleaf.toNat - 1)) :
    inTree t j.toNat = true :=
  (h.inTree_iff j).2 (h.perm.subset (List.mem_cons_of_mem _ hj))

theorem Built.root_inTree (h : Built s t) : inTree t t.root.toNat = true :=
  (h.inTree_iff _).2 (h.perm.subset (by simp))

theorem Built.child_inTree (h : Built s t) {i : NodeIdx} (hi : 257 ≤ i.toNat) (hin : inTree t i.toNat = true) (v : Bool) :
    inTree t (childOn t v i).toNat = true ∧ (childOn t v i).toNat < i.toNat := by
  obtain ⟨m, hm, hidx, hl, hr, -⟩ := h.internal hi hin
  have ho := h.order hm
  cases v
  · show inTree t (nodeLeft t i).toNat = true ∧ (nodeLeft t i).toNat < i.toNat
    rw [hl, hidx]
    exact ⟨h.kid_inTree (mem_kids.2 ⟨m, hm, .inl rfl⟩), ho.1⟩
  · show inTree t (nodeRight t i).toNat = true ∧ (nodeRight t i).toNat < i.toNat
    rw [hr, hidx]
    exact ⟨h.kid_inTree (mem_kids.2 ⟨m, hm, .inr rfl⟩), ho.2⟩

/-- Every node of the tree but ROOT is a child of a later slot of the tree. -/
theorem Built.has_parent (h : Built s t) {j : NodeIdx} (hj : inTree t j.toNat = true) (hne : j ≠ t.root) :
    ∃ m v, m < t.nleaf.toNat - 1 ∧ childOn t v (mergeIndex m) = j := by
  have hle := h.nleaf_le
  have h1 := h.perm.symm.subset ((h.inTree_iff j).1 hj)
  rcases List.mem_cons.1 h1 with h2 | h2
  · exact absurd h2 hne
  · obtain ⟨m, hm, hk⟩ := mem_kids.1 h2
    have hidx : (mergeIndex m).toNat = 257 + m := mergeIndex_toNat (by omega)
    have hl : isLeaf (mergeIndex m) = false := by rw [Bool.eq_false_iff, ne_eq, isLeaf_iff]; omega
    have hs : internalNode t (mergeIndex m) = slotAt t m := by
      rw [internalNode_eq, hidx, Nat.add_sub_cancel_left]
    rcases hk with hk | hk
    · exact ⟨m, false, hm, by simp [childOn, nodeLeft, hl, hs, hk]⟩
    · exact ⟨m, true, hm, by simp [childOn, nodeRight, hl, hs, hk]⟩

/-- Every node of the tree is at the end of a path from ROOT. -/
theorem Built.reachable (h : Built s t) (n : Nat) {j : NodeIdx} (hn : 1024 - j.toNat ≤ n) (hj : inTree t j.toNat = true) :
    ∃ p, pathEnd t t.root p = j := by
  induction n generalizing j with
  | zero => have := j.isLt; omega
  | succ n ih =>
    by_cases hne : j = t.root
    · exact ⟨[], hne.symm⟩
    · obtain ⟨m, v, hm, hc⟩ := h.has_parent hj hne
      have hle := h.nleaf_le
      have hidx : (mergeIndex m).toNat = 257 + m := mergeIndex_toNat (by omega)
      have hin := h.slot_inTree hm
      have hlt := (h.child_inTree (by omega) hin v).2
      rw [hc] at hlt
      have hjlt := j.isLt
      obtain ⟨p, hp⟩ := ih (j := mergeIndex m) (by omega) hin
      exact ⟨p ++ [v], by rw [pathEnd_append, hp]; exact hc⟩

/-- A path that stays on the tree has one step at most for each slot up to its start (41_tree_builder.md R122). -/
theorem Built.path_length (h : Built s t) (p : List Bool) {i : NodeIdx} (hi : inTree t i.toNat = true)
    (hp : (pathEnd t i p).toNat < 513) : p.length ≤ i.toNat - 256 := by
  induction p generalizing i with
  | nil => simp
  | cons v p ih =>
    by_cases hl : isLeaf i = true
    · rw [pathEnd, childOn_leaf v hl, pathEnd_noNode] at hp
      exact absurd hp (by decide)
    · have h257 : 257 ≤ i.toNat := by rw [isLeaf_iff] at hl; omega
      obtain ⟨h1, h2⟩ := h.child_inTree h257 hi v
      have := ih h1 hp
      simp only [List.length_cons]
      omega

theorem Built.root_le (h : Built s t) : t.root.toNat - 256 ≤ t.nleaf.toNat - 1 := by
  have htv : t.treeValid = true := by rw [h.frame]
  have hpos := h.nleaf_pos
  have := h.root_inTree
  by_cases hi : t.root.toNat < Config.nsym
  · have : t.root.toNat < 257 := hi
    omega
  · have : t.root.toNat ≤ 255 + t.nleaf.toNat := by simpa [inTree, htv, hi] using this
    omega

/-- The code table entry of a leaf in the tree is the path from ROOT to it. -/
theorem Built.code_leaf (h : Built s t) {sym : Nat} (hs : sym < 257) (hin : inTree t sym = true) :
    ∃ p, (pathEnd t t.root p).toNat = sym ∧ p.length ≤ t.nleaf.toNat - 1 ∧ codeAt t sym = pathEntry 0 0 p := by
  have hle := h.nleaf_le
  have hidx : (BitVec.ofNat 10 sym).toNat = sym := by simp; omega
  obtain ⟨p, hp⟩ := h.reachable 1024 (j := BitVec.ofNat 10 sym) (by omega) (by rw [hidx]; exact hin)
  have hlen : ∀ p', (pathEnd t t.root p').toNat = sym → p'.length ≤ t.nleaf.toNat - 1 := by
    intro p' hp'
    exact (h.path_length p' h.root_inTree (by omega)).trans h.root_le
  have hpn : (pathEnd t t.root p).toNat = sym := by rw [hp, hidx]
  obtain ⟨p', h1, h2⟩ := visit_reaches t (Config.maxlen + 1) t.root 0 0 (Vector.replicate Config.nsym absentCode) p
    (by omega) (by have := hlen p hpn; show p.length < 256 + 1; omega)
  rw [hpn] at h1 h2
  refine ⟨p', h1, hlen p' h1, ?_⟩
  rw [codeAt, h.code]
  exact h2

/-- The code table entry of a symbol without a leaf in the tree is absent. -/
theorem Built.code_absent (h : Built s t) {sym : Nat} (hs : sym < 257) (hin : inTree t sym ≠ true) :
    codeAt t sym = absentCode := by
  rw [codeAt, h.code]
  rcases visit_entry t (Config.maxlen + 1) t.root 0 0 (Vector.replicate Config.nsym absentCode) sym hs with h1 | ⟨p, hp, -⟩
  · rw [genCodes, h1]
    exact entry_replicate _ _ _ hs
  · exfalso
    have key : ∀ (p : List Bool) (i : NodeIdx), inTree t i.toNat = true → (pathEnd t i p).toNat < 257 →
        inTree t (pathEnd t i p).toNat = true := by
      intro p
      induction p with
      | nil => intro i hi _; exact hi
      | cons v p ih =>
        intro i hi hp
        by_cases hl : isLeaf i = true
        · rw [pathEnd, childOn_leaf v hl, pathEnd_noNode] at hp
          exact absurd hp (by decide)
        · have h257 : 257 ≤ i.toNat := by rw [isLeaf_iff] at hl; omega
          exact ih _ (h.child_inTree h257 hi v).1 hp
    have := key p t.root h.root_inTree (by omega)
    rw [hp] at this
    exact hin this

/-! ### What BUILD leaves, as the invariants say it -/

/-- BUILD leaves FREQ, so the leaf queue, as it was. -/
theorem Built.leafQueue_eq (h : Built s t) : leafQueue t = leafQueue s := by
  apply leafQueue_congr; rw [h.frame]

/-- ROOT is the one leaf or the last slot that BUILD wrote (10_state.md R28). -/
theorem Built.rootIsTop (h : Built s t) : RootIsTop t := by
  intro htv
  have hL := h.nleaf
  have hpos := h.nleaf_pos
  refine ⟨by rw [h.leafQueue_eq]; exact hL, hpos, h.root_inTree, ?_⟩
  have hperm := h.perm
  split
  · rename_i h1
    have : t.root ∈ leafQueue s := by
      have := (h.inTree_iff t.root).1 h.root_inTree
      simpa [h1] using this
    exact isLeaf_iff.2 (mem_leafQueue.1 this).1
  · rename_i h1
    by_contra hne
    have hle := h.nleaf_le
    have hm : t.nleaf.toNat - 2 < t.nleaf.toNat - 1 := by omega
    have hin := h.slot_inTree hm
    have hidx := mergeIndex_toNat (k := t.nleaf.toNat - 2) (by omega)
    have hnr : mergeIndex (t.nleaf.toNat - 2) ≠ t.root := by
      intro e; rw [← e, hidx] at hne; omega
    obtain ⟨m, v, hm', hc⟩ := h.has_parent hin hnr
    have hidx' := mergeIndex_toNat (k := m) (by omega)
    have := (h.child_inTree (by omega) (h.slot_inTree hm') v).2
    rw [hc, hidx, hidx'] at this
    omega

/-- Both children of a slot in the tree are in the tree (10_state.md R31). -/
theorem Built.treeIsFull (h : Built s t) : TreeIsFull t := by
  intro htv i hi hin
  have hl := h.child_inTree hi hin false
  have hr := h.child_inTree hi hin true
  exact ⟨hl.1, hr.1, hl.2, hr.2⟩

/-- COUNT is the exact sum of the children (41_tree_builder.md R116). -/
theorem Built.countsAreSums (h : Built s t) : CountsAreSums t := by
  intro htv i hi hin
  obtain ⟨m, hm, hidx, hl, hr, hc⟩ := h.internal hi hin
  have := h.merging.sums m (by rw [h.merges]; exact hm)
  rw [hl, hr, hc]
  have e : ∀ j, nodeCount { s with nodes := t.nodes } j = nodeCount t j := by
    intro j; rw [h.frame]; rfl
  rw [e, e] at this
  exact this

/-- ROOT and the children of the slots are all different. -/
theorem Built.kids_nodup (h : Built s t) : (t.root :: kids t (t.nleaf.toNat - 1)).Nodup :=
  h.perm.nodup_iff.2 h.nodes_nodup

/-- In a list of pairs without repeats, an element stands in one pair. -/
theorem flatMap_pair_unique {α : Type} (f : Nat → α × α) (n : Nat)
    (hn : ((List.range n).flatMap fun m => [(f m).1, (f m).2]).Nodup) {a b : Nat} (ha : a < n) (hb : b < n) {j : α}
    (h1 : (f a).1 = j ∨ (f a).2 = j) (h2 : (f b).1 = j ∨ (f b).2 = j) : a = b := by
  by_contra hne
  rw [List.nodup_flatMap] at hn
  have := (List.pairwise_iff_getElem.1 hn.2)
  rcases Nat.lt_or_gt_of_ne hne with h | h
  · have := this a b (by simpa) (by simpa) h
    simp only [List.getElem_range, List.disjoint_left] at this
    exact this (a := j) (by rcases h1 with h1 | h1 <;> simp [h1]) (by rcases h2 with h2 | h2 <;> simp [h2])
  · have := this b a (by simpa) (by simpa) h
    simp only [List.getElem_range, List.disjoint_left] at this
    exact this (a := j) (by rcases h2 with h1 | h1 <;> simp [h1]) (by rcases h1 with h2 | h2 <;> simp [h2])

/-- Every node but ROOT has one parent (10_state.md R31). -/
theorem Built.oneParent (h : Built s t) : OneParent t := by
  intro htv j hj hne
  obtain ⟨m, v, hm, hc⟩ := h.has_parent hj hne
  have hle := h.nleaf_le
  have hidx := mergeIndex_toNat (k := m) (by omega)
  refine ⟨mergeIndex m, ⟨by show 257 ≤ _; omega, h.slot_inTree hm, ?_⟩, ?_⟩
  · cases v
    · exact .inl hc
    · exact .inr hc
  · rintro i' ⟨hi1, hi2, hi3⟩
    obtain ⟨m', hm', hidx', hl, hr, -⟩ := h.internal hi1 hi2
    obtain ⟨m2, hm2, hidx2, hl2, hr2, -⟩ := h.internal (i := mergeIndex m) (by omega) (h.slot_inTree hm)
    have : m2 = m := by omega
    subst this
    have e := flatMap_pair_unique (fun m => ((slotAt t m).left, (slotAt t m).right)) (t.nleaf.toNat - 1)
      (List.nodup_cons.1 h.kids_nodup).2 hm' hm (j := j) (by rw [hl, hr] at hi3; exact hi3)
      (by cases v
          · left; rw [← hl2]; exact hc
          · right; rw [← hr2]; exact hc)
    exact BitVec.eq_of_toNat_eq (by omega)

/-- The codes are the paths of the tree (41_tree_builder.md R117). -/
theorem Built.codesFollowTree (h : Built s t) : CodesFollowTree t := by
  intro htv sym hs
  have hs : sym < 257 := hs
  have hle := h.nleaf_le
  by_cases hin : inTree t sym = true
  · obtain ⟨p, hp, hl, hc⟩ := h.code_leaf hs hin
    rw [hc, codeBits_pathEntry _ (by omega)]
    refine ⟨by simp [hin, pathEntry], fun _ => hp, pathEntry_bits_lt _ (by omega), fun hv => by simp [pathEntry] at hv⟩
  · have hc := h.code_absent hs hin
    rw [hc]
    refine ⟨by simp [hin, absentCode], fun hv => by simp [absentCode] at hv, by decide, fun _ => rfl⟩

/-- The codes are no longer than the tree is deep (41_tree_builder.md R122). -/
theorem Built.codesAreShort (h : Built s t) : CodesAreShort t := by
  intro htv sym hs hv
  have hs : sym < 257 := hs
  have hle := h.nleaf_le
  have hpos := h.nleaf_pos
  by_cases hin : inTree t sym = true
  · obtain ⟨p, hp, hl, hc⟩ := h.code_leaf hs hin
    rw [hc]; simp [pathEntry]
    rw [Nat.mod_eq_of_lt (by omega)]; omega
  · rw [h.code_absent hs hin] at hv; simp [absentCode] at hv

end

/-- Two states with the same slots have the same node table. -/
theorem nodes_ext {s t : State} (h : ∀ m, m < 256 → slotAt s m = slotAt t m) : s.nodes = t.nodes :=
  vector_ext_entry noSlot h

/-- BUILD leaves the slots above 255 + NLEAF as they were (10_state.md R27). -/
theorem Built.slot_eq {s t : State} (h : Built s t) {m : Nat} (hm : t.nleaf.toNat - 1 ≤ m) :
    slotAt t m = slotAt s m :=
  h.merging.rest m (by rw [h.merges]; exact hm)

/-- Building again from the same FREQ changes nothing (41_tree_builder.md R119). -/
theorem buildTree_idempotent {s : State} (hq : leafQueue s ≠ []) : buildTree (buildTree s) = buildTree s := by
  have hb := built_buildTree hq
  have hfr : (buildTree s).freq = s.freq := by rw [hb.frame]
  have hq2 : leafQueue (buildTree s) ≠ [] := by rw [leafQueue_congr hfr]; exact hq
  have hb2 := built_buildTree hq2
  obtain ⟨h1, h2, h3⟩ := buildTree_congr (s := buildTree s) (t := s) hfr hq2
  have hn : (buildTree (buildTree s)).nodes = (buildTree s).nodes := by
    apply nodes_ext
    intro m hm
    by_cases hlt : m < (leafQueue (buildTree s)).length - 1
    · exact h3 m hlt
    · exact hb2.slot_eq (by rw [hb2.nleaf]; omega)
  have hc : (buildTree (buildTree s)).code = (buildTree s).code := by
    rw [hb2.code, hb.code]; exact genCodes_congr hn h1
  have ht : (buildTree s).treeValid = true := by rw [hb.frame]
  rw [hb2.frame, hn, h1, h2, hc, ← ht]

/-- A nonzero count gives a leaf. -/
theorem leafQueue_ne_nil {s : State} (h : ∃ k, k < 257 ∧ freqAt s k ≠ 0#32) : leafQueue s ≠ [] := by
  obtain ⟨k, hk, hf⟩ := h
  have e : (BitVec.ofNat 10 k).toNat = k := by simp; omega
  have : BitVec.ofNat 10 k ∈ leafQueue s := by
    rw [mem_leafQueue, e]
    refine ⟨hk, ?_⟩
    have : (freqAt s k).toNat ≠ 0 := fun h => hf (BitVec.eq_of_toNat_eq h)
    omega
  intro h0; rw [h0] at this; cases this

/-- A node in the tree names a slot. -/
theorem inTree_lt {s : State} {i : Nat} (h : inTree s i = true) (hi : s.nleaf.toNat ≤ 257) : i < 513 := by
  unfold inTree at h
  rw [Bool.and_eq_true] at h
  have := h.2
  split at this
  · rename_i h'; have : i < 257 := h'; omega
  · simp at this; omega

/-- NLEAF is at most NSYM (10_state.md R29). -/
theorem RootIsTop.nleaf_le {s : State} (h : RootIsTop s) (ht : s.treeValid = true) : s.nleaf.toNat ≤ 257 :=
  (h ht).1 ▸ leafQueue_length_le s

end Sys2Proof.Machine
end

