-- ==== Sys2Proof/Laws/Arbiter.lean ====
section
/-! SUPPORT. What the arbiter grants: every merge of BUILD takes the two queued nodes of least key. -/

namespace Sys2Proof.Machine

/-- The fields of the slot that a merge writes. -/
theorem mergeIndex_fields (s : State) {m : Nat} (hm : m < 256) :
    nodeLeft s (mergeIndex m) = (slotAt s m).left ∧ nodeRight s (mergeIndex m) = (slotAt s m).right ∧
      nodeCount s (mergeIndex m) = (slotAt s m).count := by
  have hidx := mergeIndex_toNat hm
  have hl : isLeaf (mergeIndex m) = false := by rw [Bool.eq_false_iff, ne_eq, isLeaf_iff]; omega
  have hs : internalNode s (mergeIndex m) = slotAt s m := by rw [internalNode_eq, hidx, Nat.add_sub_cancel_left]
  simp [nodeLeft, nodeRight, nodeCount, hl, hs]

/-- The counts of the nodes before a merge depend on FREQ and the earlier slots alone. -/
theorem nodeCount_congr_below {s t : State} {k : Nat} (hf : s.freq = t.freq) (h : ∀ m, m < k → slotAt s m = slotAt t m)
    {i : NodeIdx} (hi : i.toNat < 257 + k) : nodeCount s i = nodeCount t i := by
  unfold nodeCount
  split
  · simp [freqAt, hf]
  · rename_i hl
    have hl' : ¬ i.toNat < 257 := by simpa [isLeaf_iff] using hl
    rw [internalNode_eq, internalNode_eq, h _ (by omega)]

/-- A queued node was made before the merge. -/
theorem queuedBefore_lt {s : State} {k : Nat} {j : NodeIdx} (h : queuedBefore s k j) : j.toNat < 257 + k := by
  rcases h.1 with ⟨h, -⟩ | ⟨-, h⟩
  · have : j.toNat < 257 := h; omega
  · exact h

/-- What is queued depends on FREQ and the earlier slots alone. -/
theorem queuedBefore_congr {s t : State} {k : Nat} (hk : k ≤ 256) (hf : s.freq = t.freq)
    (h : ∀ m, m < k → slotAt s m = slotAt t m) (j : NodeIdx) :
    queuedBefore s k j ↔ queuedBefore t k j := by
  have e : freqAt s j.toNat = freqAt t j.toNat := by simp [freqAt, hf]
  unfold queuedBefore
  rw [e]
  refine and_congr Iff.rfl ?_
  refine forall₂_congr fun m hm => ?_
  obtain ⟨a1, a2, -⟩ := mergeIndex_fields s (m := m) (by omega)
  obtain ⟨b1, b2, -⟩ := mergeIndex_fields t (m := m) (by omega)
  rw [a1, a2, b1, b2, h m hm]

/-- What a merge took depends on FREQ and the slots up to its own alone. -/
theorem mergesTheTwoLeast_congr {s t : State} {k : Nat} (hk : k < 256) (hf : s.freq = t.freq)
    (h : ∀ m, m ≤ k → slotAt s m = slotAt t m) (hm : mergesTheTwoLeast s k) : mergesTheTwoLeast t k := by
  obtain ⟨a1, a2, a3⟩ := mergeIndex_fields s hk
  obtain ⟨b1, b2, b3⟩ := mergeIndex_fields t hk
  have hlow : ∀ m, m < k → slotAt s m = slotAt t m := fun m hm => h m (by omega)
  unfold mergesTheTwoLeast at *
  rw [a1, a2, a3, h k (Nat.le_refl k)] at hm
  rw [b1, b2, b3]
  dsimp only at hm ⊢
  have hq := queuedBefore_congr (s := s) (t := t) (by omega) hf hlow
  have hc : ∀ i : NodeIdx, i.toNat < 257 + k → nodeCount s i = nodeCount t i :=
    fun i hi => nodeCount_congr_below hf hlow hi
  obtain ⟨h1, h2, h3, h4, h5, h6⟩ := hm
  have l1 := queuedBefore_lt h1
  have l2 := queuedBefore_lt h2
  refine ⟨(hq _).1 h1, (hq _).1 h2, h3, fun j hj hne => ?_, fun j hj hne hne' => ?_, ?_⟩
  · have := h4 j ((hq _).2 hj) hne
    rw [precedes, ← hc _ l1, ← hc _ (queuedBefore_lt hj)]
    exact this
  · have := h5 j ((hq _).2 hj) hne hne'
    rw [precedes, ← hc _ l2, ← hc _ (queuedBefore_lt hj)]
    exact this
  · rw [← hc _ l1, ← hc _ l2]; exact h6

/-- The queue of the loop holds exactly the nodes that are queued (41_tree_builder.md R111, R113). -/
theorem Merging.mem_queue {s₀ s : State} {q : List NodeIdx} {k : Nat} (h : Merging s₀ q k s) (hk : k ≤ 256) (j : NodeIdx) :
    j ∈ q ↔ queuedBefore s k j := by
  have hnd := treeNodes_nodup s₀ hk
  have hnd2 := h.perm.nodup_iff.2 hnd
  have hfr : freqAt s j.toNat = freqAt s₀ j.toNat := by rw [h.frame]; rfl
  have hmem : j ∈ q ++ kids s k ↔
      ((j.toNat < Config.nsym ∧ 0 < (freqAt s j.toNat).toNat) ∨ (Config.nsym ≤ j.toNat ∧ j.toNat < Config.nsym + k)) := by
    rw [h.perm.mem_iff, List.mem_append, mem_leafQueue, hfr]
    refine or_congr Iff.rfl ?_
    simp only [List.mem_map, List.mem_range]
    constructor
    · rintro ⟨m, hm, rfl⟩
      rw [mergeIndex_toNat (by omega)]; show 257 ≤ _ ∧ _ < 257 + k; omega
    · rintro ⟨h1, h2⟩
      have h1 : 257 ≤ j.toNat := h1
      have h2 : j.toNat < 257 + k := h2
      refine ⟨j.toNat - 257, by omega, ?_⟩
      apply BitVec.eq_of_toNat_eq
      rw [mergeIndex_toNat (by omega)]; omega
  have hk2 : j ∈ kids s k ↔
      ¬ ∀ m, m < k → nodeLeft s (mergeIndex m) ≠ j ∧ nodeRight s (mergeIndex m) ≠ j := by
    rw [mem_kids]
    push Not
    constructor
    · rintro ⟨m, hm, h⟩
      obtain ⟨a1, a2, -⟩ := mergeIndex_fields s (m := m) (by omega)
      refine ⟨m, hm, fun h1 => ?_⟩
      rw [a1] at h1; rw [a2]
      tauto
    · rintro ⟨m, hm, h⟩
      obtain ⟨a1, a2, -⟩ := mergeIndex_fields s (m := m) (by omega)
      rw [a1, a2] at h
      refine ⟨m, hm, ?_⟩
      tauto
  unfold queuedBefore
  rw [← hmem, List.mem_append]
  constructor
  · intro hj
    refine ⟨.inl hj, ?_⟩
    by_contra hc
    exact (List.nodup_append.1 hnd2).2.2 j hj j (hk2.2 hc) rfl
  · rintro ⟨h1 | h1, h2⟩
    · exact h1
    · exact absurd h2 (hk2.1 h1)

/-- A merge takes the two queued nodes of least key (41_tree_builder.md R112, R113). -/
theorem Merging.takes_least {s₀ s : State} {q q₁ q₂ : List NodeIdx} {k : Nat} {a b : NodeIdx} (h : Merging s₀ q k s)
    (h1 : grant s q = some (a, q₁)) (h2 : grant s q₁ = some (b, q₂)) (hk : k < 256) :
    mergesTheTwoLeast (setNode s k ⟨a, b, nodeCount s a + nodeCount s b⟩) k := by
  have hm := h.merge h1 h2
  have hsl : ∀ m, m < k → slotAt (setNode s k ⟨a, b, nodeCount s a + nodeCount s b⟩) m = slotAt s m := by
    intro m hm
    rw [slotAt_setNode _ _ _ _ (by omega), if_neg (by omega)]
  have hnew : slotAt (setNode s k ⟨a, b, nodeCount s a + nodeCount s b⟩) k = ⟨a, b, nodeCount s a + nodeCount s b⟩ := by
    rw [slotAt_setNode _ _ _ _ hk, if_pos rfl]
  have hsum := hm.sums k (by omega)
  rw [hnew] at hsum
  obtain ⟨e1, e2, e3⟩ := mergeIndex_fields (setNode s k ⟨a, b, nodeCount s a + nodeCount s b⟩) hk
  obtain ⟨g1, rfl, g3⟩ := grant_spec h1
  obtain ⟨k1, rfl, k3⟩ := grant_spec h2
  have hq := h.mem_queue (by omega)
  have hnd : q.Nodup :=
    (List.nodup_append.1 (h.perm.nodup_iff.2 (treeNodes_nodup s₀ (by omega)))).1
  have hqc := queuedBefore_congr (s := setNode s k ⟨a, b, nodeCount s a + nodeCount s b⟩) (t := s) (by omega)
    (setNode_freq _ _ _) hsl
  have hcc : ∀ i : NodeIdx, i.toNat < 257 + k →
      nodeCount (setNode s k ⟨a, b, nodeCount s a + nodeCount s b⟩) i = nodeCount s i :=
    fun i hi => nodeCount_congr_below (setNode_freq _ _ _) hsl hi
  have hb1 := hnd.mem_erase_iff.1 k1
  have la := queuedBefore_lt ((hq a).1 g1)
  have lb := queuedBefore_lt ((hq b).1 hb1.2)
  unfold mergesTheTwoLeast
  rw [e1, e2, e3, hnew]
  dsimp only
  refine ⟨(hqc a).2 ((hq a).1 g1), (hqc b).2 ((hq b).1 hb1.2), fun e => hb1.1 e.symm, ?_, ?_, hsum⟩
  · intro j hj hne
    have hj' := (hq j).2 ((hqc j).1 hj)
    have := g3 j hj'
    rw [precedes_iff, nodeKey, nodeKey, hcc a la, hcc j (queuedBefore_lt hj)]
    have hne2 : nodeKey s a ≠ nodeKey s j := fun e => hne (nodeKey_inj e).symm
    unfold nodeKey at *
    omega
  · intro j hj hne hne'
    have hj' := (hq j).2 ((hqc j).1 hj)
    have := k3 j (hnd.mem_erase_iff.2 ⟨hne, hj'⟩)
    rw [precedes_iff, nodeKey, nodeKey, hcc b lb, hcc j (queuedBefore_lt hj)]
    have hne2 : nodeKey s b ≠ nodeKey s j := fun e => hne' (nodeKey_inj e).symm
    unfold nodeKey at *
    omega

/-- So does every merge of the loop. -/
theorem Merging.loop_takes_least {s₀ : State} (fuel : Nat) {q : List NodeIdx} {k : Nat} {s : State}
    (h : Merging s₀ q k s) (hl : ∀ m, m < k → mergesTheTwoLeast s m) (hq : q ≠ []) (hf : q.length ≤ fuel + 1) :
    ∀ m, m < (leafQueue s₀).length - 1 → mergesTheTwoLeast (mergeLoop fuel q k s).2 m := by
  induction fuel generalizing q k s with
  | zero =>
    intro m hm
    have := h.size
    have : 0 < q.length := List.length_pos_iff.2 hq
    exact hl m (by omega)
  | succ fuel ih =>
    have hL := leafQueue_length_le s₀
    have hsz := h.size
    rw [mergeLoop]
    cases h1 : grant s q with
    | none => exact absurd (grant_none h1) hq
    | some p =>
      obtain ⟨a, q₁⟩ := p
      have p1 := (grant_perm h1).length_eq
      cases h2 : grant s q₁ with
      | none =>
        have hnil := grant_none h2
        subst hnil
        simp only [h2]
        intro m hm
        simp only [List.length_cons, List.length_nil] at p1
        exact hl m (by omega)
      | some p' =>
        obtain ⟨b, q₂⟩ := p'
        have p2 := (grant_perm h2).length_eq
        simp only [h2]
        simp only [List.length_cons] at p1 p2
        refine ih (h.merge h1 h2) ?_ (by simp) ?_
        · intro m hm
          by_cases e : m = k
          · subst e; exact h.takes_least h1 h2 (by omega)
          · refine mergesTheTwoLeast_congr (s := s) (by omega) rfl ?_ (hl m (by omega))
            intro m' hm'
            rw [slotAt_setNode _ _ _ _ (by omega), if_neg (by omega)]
        · simp only [List.length_cons]
          omega

/-- So does every merge of BUILD. -/
theorem buildTree_takes_least {s : State} (hq : leafQueue s ≠ []) (m : Nat) (hm : m < (leafQueue s).length - 1) :
    mergesTheTwoLeast (buildTree s) m := by
  have := Merging.loop_takes_least (leafQueue s).length (Merging.start s) (by intro m hm; omega) hq
    (by omega) m hm
  have hL := leafQueue_length_le s
  refine mergesTheTwoLeast_congr (by omega) ?_ ?_ this
  · obtain ⟨n, r, l, c, h⟩ := buildTree_writes s
    rw [h]
    obtain ⟨r, h1, h2⟩ := (Merging.start s).loop (leafQueue s).length hq (by omega)
    rw [h2.frame]
  · intro m _; rfl

end Sys2Proof.Machine
end

