-- ==== Sys2Proof/Laws/Decoder.lean ====
section
/-! SUPPORT. What a move of the cursor can do, and what walking a whole path does. -/

namespace Sys2Proof.Machine

/-- The four ways one move of the cursor ends (43_decoder.md R151). -/
theorem walkBit_cases {v : Bool} {s t : State} (h : walkBit v s = .next t) :
    namesSlot s.cur = true ∧
    ((childOn s v s.cur = Config.noNode ∧ t = { s with decState := .malformed }) ∨
     ((childOn s v s.cur).toNat = 256 ∧ t = { s with cur := childOn s v s.cur, decState := .done }) ∨
     ((childOn s v s.cur).toNat < 256 ∧ t = { emitByte (childOn s v s.cur) s with cur := s.root }) ∨
     (256 < (childOn s v s.cur).toNat ∧ childOn s v s.cur ≠ Config.noNode ∧ t = { s with cur := childOn s v s.cur })) := by
  unfold walkBit at h
  split at h
  · rename_i hn
    refine ⟨hn, ?_⟩
    dsimp only at h
    split at h
    · rename_i h1; cases h; exact .inl ⟨h1, rfl⟩
    · rename_i h1
      split at h
      · rename_i h2; cases h; exact .inr (.inl ⟨h2, rfl⟩)
      · rename_i h2
        have h2' : (childOn s v s.cur).toNat ≠ 256 := h2
        split at h
        · rename_i h3; cases h; exact .inr (.inr (.inl ⟨h3, rfl⟩))
        · rename_i h3
          have h3' : ¬ (childOn s v s.cur).toNat < 256 := h3
          cases h; exact .inr (.inr (.inr ⟨by omega, h1, rfl⟩))
  · cases h

/-- A move of the cursor stops only where CUR names no slot. -/
theorem walkBit_answers (v : Bool) (s : State) (h : namesSlot s.cur = true) : ∃ t, walkBit v s = .next t := by
  unfold walkBit
  rw [if_pos h]
  dsimp only
  split
  · exact ⟨_, rfl⟩
  · split
    · exact ⟨_, rfl⟩
    · split <;> exact ⟨_, rfl⟩

/-- A move writes CUR, DEC_STATE, DOUT_REG and DOUT alone; DOUT grows by at most one byte, held in DOUT_REG. -/
theorem walkBit_writes {v : Bool} {s t : State} (h : walkBit v s = .next t) :
    ∃ c d new, t = { s with cur := c, decState := d, dout := s.dout ++ new, doutReg := new.getLast?.getD s.doutReg } := by
  obtain ⟨-, ⟨-, rfl⟩ | ⟨-, rfl⟩ | ⟨-, rfl⟩ | ⟨-, -, rfl⟩⟩ := walkBit_cases h
  · exact ⟨s.cur, .malformed, [], by simp⟩
  · exact ⟨childOn s v s.cur, .done, [], by simp⟩
  · exact ⟨s.root, s.decState, [(childOn s v s.cur).setWidth 8], by simp [emitByte, emitD]⟩
  · exact ⟨childOn s v s.cur, s.decState, [], by simp⟩

theorem walkBits_writes {l : List Bool} {s t : State} (h : walkBits l s = .next t) :
    ∃ c d new, t = { s with cur := c, decState := d, dout := s.dout ++ new, doutReg := new.getLast?.getD s.doutReg } := by
  induction l generalizing s with
  | nil => cases h; exact ⟨t.cur, t.decState, [], by simp⟩
  | cons v l ih =>
    rw [walkBits] at h
    split at h
    · split at h
      · rename_i u hu
        obtain ⟨c, d, new, rfl⟩ := walkBit_writes hu
        obtain ⟨c', d', new', rfl⟩ := ih h
        refine ⟨c', d', new ++ new', ?_⟩
        simp [List.getLast?_append]
      · cases h
      · cases h
    · exact ih h

/-- Outside RUN no bit is read (43_decoder.md R152, R156). -/
theorem walkBits_stopped (l : List Bool) {s : State} (h : s.decState ≠ .run) : walkBits l s = .next s := by
  induction l with
  | nil => rfl
  | cons v l ih => rw [walkBits, if_neg h, ih]

theorem walkBits_append {p : List Bool} (q : List Bool) {s t : State} (h : walkBits p s = .next t) :
    walkBits (p ++ q) s = walkBits q t := by
  induction p generalizing s with
  | nil => cases h; rfl
  | cons v p ih =>
    rw [walkBits] at h
    rw [List.cons_append, walkBits]
    split at h
    · rename_i hr
      rw [if_pos hr]
      split at h
      · rename_i u hu
        exact ih h
      · cases h
      · cases h
    · rename_i hr
      rw [if_neg hr]
      exact ih h

theorem pathEnd_of_cur (s : State) (c i : NodeIdx) (p : List Bool) :
    pathEnd { s with cur := c } i p = pathEnd s i p := by
  induction p generalizing i with
  | nil => rfl
  | cons v p ih => exact ih _

/-- Walking a path that ends at a leaf: a byte's leaf emits the byte and returns the cursor to ROOT, the end-of-block
leaf stops the walk (43_decoder.md R151). -/
theorem walkBits_path (p : List Bool) {s : State} (hrun : s.decState = .run) (hp : p ≠ [])
    (hleaf : (pathEnd s s.cur p).toNat ≤ 256) :
    walkBits p s = .next
      (if (pathEnd s s.cur p).toNat = 256 then { s with cur := pathEnd s s.cur p, decState := .done }
       else { emitByte (pathEnd s s.cur p) s with cur := s.root }) := by
  induction p generalizing s with
  | nil => exact absurd rfl hp
  | cons v p ih =>
    have hend : pathEnd s s.cur (v :: p) = pathEnd s (childOn s v s.cur) p := rfl
    rw [hend] at hleaf ⊢
    have hslot : namesSlot s.cur = true := by
      by_contra hn
      have hnone : childOn s v s.cur = Config.noNode := by
        have h1 : ¬ s.cur.toNat < 513 := by simpa [namesSlot, Config.nnode] using hn
        have hl : isLeaf s.cur = false := by
          simp only [isLeaf, Config.nsym, decide_eq_false_iff_not]; omega
        have hi : internalNode s s.cur = noSlot := entry_outside _ _ _ (by show 256 ≤ s.cur.toNat - 257; omega)
        cases v <;> simp [childOn, nodeLeft, nodeRight, hl, hi, noSlot]
      rw [hnone, pathEnd_noNode] at hleaf
      exact absurd hleaf (by decide)
    have hc : childOn s v s.cur ≠ Config.noNode := by
      intro hn
      rw [hn, pathEnd_noNode] at hleaf
      exact absurd hleaf (by decide)
    rw [walkBits, if_pos hrun]
    obtain ⟨t, ht⟩ := walkBit_answers v s hslot
    rw [ht]
    dsimp only
    obtain ⟨-, ⟨h1, -⟩ | ⟨h1, rfl⟩ | ⟨h1, rfl⟩ | ⟨h1, -, rfl⟩⟩ := walkBit_cases ht
    · exact absurd h1 hc
    · cases p with
      | nil =>
        rw [walkBits_stopped _ (by simp)]
        simp [pathEnd, h1]
      | cons u p =>
        rw [pathEnd, childOn_leaf u (by simp [isLeaf, Config.nsym, h1]), pathEnd_noNode] at hleaf
        exact absurd hleaf (by decide)
    · cases p with
      | nil =>
        have : (childOn s v s.cur).toNat ≠ 256 := by omega
        simp [walkBits, pathEnd, this]
      | cons u p =>
        rw [pathEnd, childOn_leaf u (by simp only [isLeaf, Config.nsym, decide_eq_true_eq]; omega), pathEnd_noNode] at hleaf
        exact absurd hleaf (by decide)
    · cases p with
      | nil => simp only [pathEnd] at hleaf; omega
      | cons u p =>
        have := ih (s := { s with cur := childOn s v s.cur }) hrun (by simp) (by rw [pathEnd_of_cur]; exact hleaf)
        rw [this]
        simp only [pathEnd_of_cur]
        rfl

end Sys2Proof.Machine
end

