-- ==== Sys2Proof/Laws/Cursor.lean ====
section
/-! SUPPORT. A walk from a state that meets the block's invariants stays on the tree. -/

namespace Sys2Proof.Machine

/-- A move of the cursor keeps it in the tree (10_state.md R38). -/
theorem walkBit_keeps {v : Bool} {s : State} (hi : BlockInvariant s) (hr : s.decState = .run) :
    ∃ t, walkBit v s = .next t ∧ CursorInTree t := by
  obtain ⟨hrc, htop, hfull, hcur⟩ := hi
  have htv := hrc.1 hr
  have hin := hcur.1 hr
  have hlt := inTree_lt hin (htop.nleaf_le htv)
  obtain ⟨t, ht⟩ := walkBit_answers v s (by simp [namesSlot, Config.nnode]; omega)
  refine ⟨t, ht, ?_⟩
  obtain ⟨-, ⟨h1, rfl⟩ | ⟨h1, rfl⟩ | ⟨h1, rfl⟩ | ⟨h1, h2, rfl⟩⟩ := walkBit_cases ht
  · exact ⟨fun h => (by cases h), fun h => (by cases h)⟩
  · exact ⟨fun h => (by cases h), fun _ => h1⟩
  · exact ⟨fun _ => (htop htv).2.2.1, fun h => absurd (hr.symm.trans h) (by decide)⟩
  · refine ⟨fun _ => ?_, fun h => absurd (hr.symm.trans h) (by decide)⟩
    by_cases hl : isLeaf s.cur = true
    · rw [childOn_leaf v hl] at h2; exact absurd rfl h2
    · have h257 : 257 ≤ s.cur.toNat := by rw [isLeaf_iff] at hl; omega
      have := hfull htv s.cur h257 hin
      cases v
      · exact this.1
      · exact this.2.1

/-- A change of the decoder alone keeps the invariants, with the cursor in the tree. -/
theorem BlockInvariant.of_decoder {s t : State} (hi : BlockInvariant s) {c : NodeIdx} {d : DecState}
    {e : List Byte} {r : Byte} (ht : t = { s with cur := c, decState := d, dout := e, doutReg := r })
    (hd : d = .run → s.treeValid = true) (hc : CursorInTree t) : BlockInvariant t := by
  obtain ⟨hrc, htop, hfull, hcur⟩ := hi
  subst ht
  exact ⟨⟨hd, hrc.2⟩, htop, hfull, hc⟩

/-- So do the moves of any list of bits. -/
theorem walkBits_keeps (l : List Bool) {s : State} (hi : BlockInvariant s) :
    ∃ t, walkBits l s = .next t ∧ BlockInvariant t := by
  induction l generalizing s with
  | nil => exact ⟨s, rfl, hi⟩
  | cons v l ih =>
    rw [walkBits]
    split
    · rename_i hr
      obtain ⟨t, ht, hc⟩ := walkBit_keeps (v := v) hi hr
      rw [ht]
      obtain ⟨c, d, new, hw⟩ := walkBit_writes ht
      exact ih (BlockInvariant.of_decoder hi hw (fun _ => hi.1.1 hr) hc)
    · exact ih hi

end Sys2Proof.Machine
end

