-- ==== Sys2Proof/Laws/Decode.lean ====
section
/-! SUPPORT. The fields of a command word, once each. -/

namespace Sys2Proof

/-- The bits of a command word (30_encoding.md R71). -/
theorem commandWord_getLsbD (op : BitVec 4) (arg : Arg) (data : Freq) (j : Nat) :
    (commandWord op arg data).getLsbD j =
      if j < 32 then data.getLsbD j else if j < 41 then arg.getLsbD (j - 32)
      else if j < 60 then false else op.getLsbD (j - 60) := by
  show (op ++ 0#19 ++ arg ++ data : BitVec (4 + 19 + 9 + 32)).getLsbD j = _
  rw [BitVec.getLsbD_append, BitVec.getLsbD_append, BitVec.getLsbD_append]
  by_cases h1 : j < 32
  · simp [h1]
  · by_cases h2 : j < 41
    · have : j - 32 < 9 := by omega
      simp [h1, h2, this]
    · have h2' : ¬ j - 32 < 9 := by omega
      by_cases h3 : j < 60
      · have : j - 32 - 9 < 19 := by omega
        simp [h1, h2, h2', h3, this]
      · have h3' : ¬ j - 32 - 9 < 19 := by omega
        have e : j - 32 - 9 - 19 = j - 60 := by omega
        simp [h1, h2, h2', h3, h3', e]

theorem opField_commandWord (op : BitVec 4) (arg : Arg) (data : Freq) : opField (commandWord op arg data) = op := by
  apply BitVec.eq_of_getLsbD_eq
  intro j hj
  have h1 : ¬ 60 + j < 32 := by omega
  have h2 : ¬ 60 + j < 41 := by omega
  simp [opField, commandWord_getLsbD, hj, h1, h2]

theorem rsvField_commandWord (op : BitVec 4) (arg : Arg) (data : Freq) : rsvField (commandWord op arg data) = 0#19 := by
  apply BitVec.eq_of_getLsbD_eq
  intro j hj
  have h1 : ¬ 41 + j < 32 := by omega
  have h3 : 41 + j < 60 := by omega
  simp [rsvField, commandWord_getLsbD, hj, h1, h3]

theorem argField_commandWord (op : BitVec 4) (arg : Arg) (data : Freq) : argField (commandWord op arg data) = arg := by
  apply BitVec.eq_of_getLsbD_eq
  intro j hj
  have h2 : 32 + j < 41 := by omega
  simp [argField, commandWord_getLsbD, hj, h2]

theorem dataField_commandWord (op : BitVec 4) (arg : Arg) (data : Freq) :
    dataField (commandWord op arg data) = data := by
  apply BitVec.eq_of_getLsbD_eq
  intro j hj
  simp [dataField, commandWord_getLsbD, hj]

/-- A word is its four fields, put together (30_encoding.md R71). -/
theorem commandWord_fields (w : Word) (h : rsvField w = 0#19) : commandWord (opField w) (argField w) (dataField w) = w := by
  apply BitVec.eq_of_getLsbD_eq
  intro j hj
  have hr : ∀ k, k < 19 → w.getLsbD (41 + k) = false := by
    intro k hk
    have := congrArg (fun v => v.getLsbD k) h
    simpa [rsvField, hk] using this
  rw [commandWord_getLsbD]
  by_cases h1 : j < 32
  · simp [dataField, h1]
  · by_cases h2 : j < 41
    · have e : 32 + (j - 32) = j := by omega
      have : j - 32 < 9 := by omega
      simp [argField, h1, h2, this, e]
    · by_cases h3 : j < 60
      · have := hr (j - 41) (by omega)
        rw [show 41 + (j - 41) = j by omega] at this
        simp [h1, h2, h3, this]
      · have e : 60 + (j - 60) = j := by omega
        have : j - 60 < 4 := by omega
        simp [opField, h1, h2, h3, this, e]

/-- What a legal word's fields are (30_encoding.md R76). -/
theorem decode_ok_fields {w : Word} {i : Instr} (h : decode w = .ok i) :
    rsvField w = 0#19 ∧ opField w = opcode i ∧ argField w = encodedArg i ∧ dataField w = encodedData i := by
  have plain : ∀ {op : BitVec 4} {k : Nat} {i' : Instr}, decodePlain w i' = .ok i → (opField w).toNat = k →
      op.toNat = k → opcode i' = op → encodedArg i' = 0#9 → encodedData i' = 0#32 →
      opField w = opcode i ∧ argField w = encodedArg i ∧ dataField w = encodedData i := by
    intro op k i' hd hk hop h1 h2 h3
    unfold decodePlain at hd
    split at hd
    · rename_i hz
      cases hd
      refine ⟨?_, by rw [hz.1, h2], by rw [hz.2, h3]⟩
      rw [h1]
      exact BitVec.eq_of_toNat_eq (by rw [hk, hop])
    · cases hd
  have withArg : ∀ {op : BitVec 4} {k : Nat} {mk : Arg → Instr}, decodeArg w mk = .ok i → (opField w).toNat = k →
      op.toNat = k → (∀ a, opcode (mk a) = op) → (∀ a, encodedArg (mk a) = a) → (∀ a, encodedData (mk a) = 0#32) →
      opField w = opcode i ∧ argField w = encodedArg i ∧ dataField w = encodedData i := by
    intro op k mk hd hk hop h1 h2 h3
    unfold decodeArg at hd
    split at hd
    · rename_i hz
      cases hd
      refine ⟨?_, by rw [h2], by rw [h3, hz]⟩
      rw [h1]
      exact BitVec.eq_of_toNat_eq (by rw [hk, hop])
    · cases hd
  unfold decode at h
  split at h
  · cases h
  · rename_i hr
    refine ⟨by simpa using hr, ?_⟩
    split at h
    · exact plain (op := 0x0#4) h (by assumption) rfl rfl rfl rfl
    · exact plain (op := 0x1#4) h (by assumption) rfl rfl rfl rfl
    · rename_i hk
      cases h
      exact ⟨BitVec.eq_of_toNat_eq (by rw [hk]; rfl), rfl, rfl⟩
    · exact plain (op := 0x3#4) h (by assumption) rfl rfl rfl rfl
    · exact withArg (op := 0x4#4) h (by assumption) rfl (fun _ => rfl) (fun _ => rfl) fun _ => rfl
    · exact plain (op := 0x5#4) h (by assumption) rfl rfl rfl rfl
    · exact plain (op := 0x6#4) h (by assumption) rfl rfl rfl rfl
    · exact withArg (op := 0x7#4) h (by assumption) rfl (fun _ => rfl) (fun _ => rfl) fun _ => rfl
    · exact plain (op := 0x8#4) h (by assumption) rfl rfl rfl rfl
    · exact plain (op := 0x9#4) h (by assumption) rfl rfl rfl rfl
    · cases h

end Sys2Proof
end

