-- ==== Sys2Proof/Laws/Encoder.lean ====
section
/-! SUPPORT. What putting bits does: the bits the encoder has sent grow by exactly those bits. -/

namespace Sys2Proof.Machine

/-- `putBit` writes ACC, ACC_CNT, EOUT_REG and EOUT alone. -/
theorem putBit_frame (v : Bool) (s : State) :
    putBit v s = { s with acc := (putBit v s).acc, accCnt := (putBit v s).accCnt,
                          eoutReg := (putBit v s).eoutReg, eout := (putBit v s).eout } := by
  unfold putBit
  dsimp only
  split <;> rfl

/-- `putBits` writes ACC, ACC_CNT, EOUT_REG and EOUT alone. -/
theorem putBits_writes (l : List Bool) (s : State) :
    ∃ a c r e, putBits l s = { s with acc := a, accCnt := c, eoutReg := r, eout := e } := by
  induction l generalizing s with
  | nil => exact ⟨s.acc, s.accCnt, s.eoutReg, s.eout, rfl⟩
  | cons v l ih =>
    obtain ⟨a, c, r, e, h⟩ := ih (putBit v s)
    refine ⟨a, c, r, e, ?_⟩
    rw [putBit_frame v s] at h
    rw [putBits, putBit_frame v s, h]

theorem putBits_frame (l : List Bool) (s : State) :
    putBits l s = { s with acc := (putBits l s).acc, accCnt := (putBits l s).accCnt,
                           eoutReg := (putBits l s).eoutReg, eout := (putBits l s).eout } := by
  obtain ⟨a, c, r, e, h⟩ := putBits_writes l s
  simp [h]

/-- One more bit sent (42_encoder.md R131). -/
theorem sentBits_putBit (v : Bool) (s : State) : sentBits (putBit v s) = sentBits s ++ [v] := by
  have hc := s.accCnt.isLt
  unfold putBit
  dsimp only
  split
  · rename_i h
    have hk : s.accCnt.toNat = 7 := by omega
    have hb := bitsDown_shiftIn s.acc v 7 (by omega)
    simp only [sentBits, emitE_eout, List.flatMap_append, List.flatMap_cons, List.flatMap_nil, byteBits, hb, hk]
    simp [bitsDown]
  · rename_i h
    have hm : (s.accCnt.toNat + 1) % 8 = s.accCnt.toNat + 1 := Nat.mod_eq_of_lt (by omega)
    simp [sentBits, BitVec.toNat_ofNat, hm, bitsDown_shiftIn s.acc v s.accCnt.toNat (by omega)]

theorem sentBits_putBits (l : List Bool) (s : State) : sentBits (putBits l s) = sentBits s ++ l := by
  induction l generalizing s with
  | nil => simp [putBits]
  | cons v l ih => simp [putBits, ih, sentBits_putBit]

/-- ACC_CNT after putting bits: modulo 8. -/
theorem accCnt_putBits (l : List Bool) (s : State) :
    (putBits l s).accCnt.toNat = (s.accCnt.toNat + l.length) % 8 := by
  induction l generalizing s with
  | nil => simp [putBits]; omega
  | cons v l ih =>
    have hc := s.accCnt.isLt
    have h1 : (putBit v s).accCnt.toNat = (s.accCnt.toNat + 1) % 8 := by
      unfold putBit; dsimp only; split
      · rename_i h; simp [h]
      · simp
    simp only [putBits, ih, h1, List.length_cons]
    omega

/-- ACC holds nothing above its ACC_CNT bits (10_state.md R36, R46). -/
theorem accBound_putBits (l : List Bool) (s : State) (h : s.acc.toNat < 2 ^ s.accCnt.toNat) :
    (putBits l s).acc.toNat < 2 ^ (putBits l s).accCnt.toNat := by
  induction l generalizing s with
  | nil => exact h
  | cons v l ih =>
    apply ih
    have hc := s.accCnt.isLt
    have ha := s.acc.isLt
    unfold putBit; dsimp only; split
    · simp
    · rename_i h8
      have hm : (s.accCnt.toNat + 1) % 8 = s.accCnt.toNat + 1 := Nat.mod_eq_of_lt (by omega)
      have hb : (bitValue 8 v).toNat ≤ 1 := by cases v <;> simp [bitValue]
      have h7 : (2 : Nat) ^ s.accCnt.toNat ≤ 2 ^ 6 := Nat.pow_le_pow_right (by omega) (by omega)
      have hor : (s.acc.toNat * 2 ||| (bitValue 8 v).toNat) < 2 ^ (s.accCnt.toNat + 1) :=
        Nat.or_lt_two_pow (by rw [Nat.pow_succ]; omega)
          (by have : 1 ≤ 2 ^ s.accCnt.toNat := Nat.one_le_two_pow
              rw [Nat.pow_succ]; omega)
      simp only [BitVec.toNat_or, BitVec.toNat_shiftLeft, BitVec.toNat_ofNat, hm, Nat.shiftLeft_eq, Nat.pow_one]
      rw [Nat.mod_eq_of_lt (a := s.acc.toNat * 2) (by omega)]
      exact hor

/-- What has been emitted on EOUT is only appended to, and EOUT_REG holds its last byte. -/
theorem putBits_eout (l : List Bool) (s : State) :
    ∃ new, (putBits l s).eout = s.eout ++ new ∧ (putBits l s).eoutReg = new.getLast?.getD s.eoutReg := by
  induction l generalizing s with
  | nil => exact ⟨[], by simp [putBits]⟩
  | cons v l ih =>
    obtain ⟨new, h1, h2⟩ := ih (putBit v s)
    rw [putBits]
    by_cases h8 : s.accCnt.toNat + 1 = 8
    · refine ⟨((s.acc <<< 1) ||| bitValue 8 v) :: new, ?_, ?_⟩
      · rw [h1]; simp [putBit, h8]
      · rw [h2]; simp [putBit, h8, List.getLast?_cons]
    · exact ⟨new, by rw [h1]; simp [putBit, h8], by rw [h2]; simp [putBit, h8]⟩

/-- `close()` writes ACC, ACC_CNT, EOUT_REG and EOUT alone. -/
theorem closeStream_frame (s : State) :
    closeStream s = { s with acc := (closeStream s).acc, accCnt := (closeStream s).accCnt,
                             eoutReg := (closeStream s).eoutReg, eout := (closeStream s).eout } := by
  unfold closeStream
  split <;> rfl

/-- The low bits of a word shifted left are its high bits and zeros. -/
theorem bitsDown_shiftLeft {w : Nat} (v : BitVec w) (n k : Nat) (h : n + k ≤ w) :
    bitsDown (v <<< k) (n + k) = bitsDown v n ++ List.replicate k false := by
  induction n with
  | zero =>
    rw [Nat.zero_add]
    have : ∀ j, j ≤ k → bitsDown (v <<< k) j = List.replicate j false := by
      intro j hj
      induction j with
      | zero => rfl
      | succ j ih => simp [bitsDown, ih (by omega), List.replicate_succ]; intros; omega
    simpa [bitsDown] using this k (Nat.le_refl k)
  | succ n ih =>
    have : n + 1 + k = (n + k) + 1 := by omega
    rw [this, bitsDown, ih (by omega)]
    simp [bitsDown]
    omega

/-- `close()` sends the zero bits that complete the byte (42_encoder.md R135). -/
theorem sentBits_closeStream (s : State) :
    sentBits (closeStream s) = sentBits s ++ List.replicate ((8 - s.accCnt.toNat % 8) % 8) false := by
  have hc := s.accCnt.isLt
  unfold closeStream
  split
  · rename_i h
    have hp : (8 - s.accCnt.toNat % 8) % 8 = 8 - s.accCnt.toNat := by omega
    have hb := bitsDown_shiftLeft s.acc s.accCnt.toNat (8 - s.accCnt.toNat) (by omega)
    rw [show s.accCnt.toNat + (8 - s.accCnt.toNat) = 8 by omega] at hb
    simp only [sentBits, emitE_eout, List.flatMap_append, List.flatMap_cons, List.flatMap_nil, byteBits,
      hb, hp, List.append_nil]
    simp [bitsDown]
  · rename_i h
    have hz : s.accCnt.toNat = 0 := by omega
    simp [hz]

theorem accCnt_closeStream (s : State) : (closeStream s).accCnt = 0#3 := by
  unfold closeStream
  split
  · rfl
  · rename_i h
    exact BitVec.eq_of_toNat_eq (by simp; omega)

/-- ACC after `close()`, where it held nothing above its ACC_CNT bits. -/
theorem acc_closeStream (s : State) (h : s.acc.toNat < 2 ^ s.accCnt.toNat) : (closeStream s).acc = 0#8 := by
  unfold closeStream
  split
  · rfl
  · rename_i hz
    have : s.accCnt.toNat = 0 := by omega
    rw [this] at h
    exact BitVec.eq_of_toNat_eq (by simp; omega)

end Sys2Proof.Machine
end

