-- ==== Sys2Proof/Laws/Optimal.lean ====
section
/-! SUPPORT. The cost of BUILD's tree (41_tree_builder.md R120): the weighted path length is the sum of the internal
counts, and no prefix code costs less. -/

namespace Sys2Proof.Machine

/-- Sum of 2^(N - length). -/
def kraft (N : Nat) (ls : List Nat) : Nat := (ls.map fun l => 2 ^ (N - l)).sum

theorem kraft_cons (N l : Nat) (ls : List Nat) : kraft N (l :: ls) = 2 ^ (N - l) + kraft N ls := by simp [kraft]

/-- Neither of two codes is a prefix of the other. -/
def noPrefix (p q : List Bool) : Prop := ¬ p <+: q ∧ ¬ q <+: p

/-- Kraft's inequality for a prefix code. -/
theorem kraft_of_prefixFree (N : Nat) (L : List (List Bool)) (hp : L.Pairwise noPrefix) (hN : ∀ w ∈ L, w.length ≤ N) :
    kraft N (L.map List.length) ≤ 2 ^ N := by
  induction N generalizing L with
  | zero =>
    match L, hp with
    | [], _ => simp [kraft]
    | [w], _ => simp [kraft]
    | w :: v :: L, hp =>
      exfalso
      have hw : w = [] := List.eq_nil_of_length_eq_zero (by have := hN w (by simp); omega)
      have := (List.pairwise_cons.1 hp).1 v (by simp)
      exact this.1 (by rw [hw]; exact List.nil_prefix)
  | succ N ih =>
    by_cases hnil : [] ∈ L
    · have : L = [[]] := by
        cases L with
        | nil => cases hnil
        | cons w L =>
          have hc := (List.pairwise_cons.1 hp).1
          have hw : L = [] := by
            rw [List.eq_nil_iff_forall_not_mem]
            intro v hv
            rcases List.mem_cons.1 hnil with h | h
            · exact (hc v hv).1 (by rw [← h]; exact List.nil_prefix)
            · exact (hc _ h).2 List.nil_prefix
          subst hw
          simpa [eq_comm] using hnil
      subst this; simp [kraft]
    · let tl (b : Bool) : List (List Bool) := L.filterMap fun w => match w with | [] => none | c :: t => if c = b then some t else none
      have hsum : ∀ L : List (List Bool), [] ∉ L → 
          kraft (N + 1) (L.map List.length) = kraft N ((L.filterMap fun w => match w with | [] => none | c :: t => if c = false then some t else none).map List.length) + kraft N ((L.filterMap fun w => match w with | [] => none | c :: t => if c = true then some t else none).map List.length) := by
        intro L
        induction L with
        | nil => intro _; rfl
        | cons w L ih2 =>
          intro hn
          have := ih2 (fun h => hn (by simp [h]))
          cases w with
          | nil => simp at hn
          | cons c t =>
            have e : N + 1 - (t.length + 1) = N - t.length := by omega
            cases c
            · simp only [List.map_cons, kraft_cons, List.filterMap_cons, List.length_cons, this, e, if_true, Bool.false_eq_true, if_false]
              omega
            · simp only [List.map_cons, kraft_cons, List.filterMap_cons, List.length_cons, this, e, if_true, Bool.true_eq_false, if_false]
              omega
      have hpt : ∀ b, (tl b).Pairwise noPrefix := by
        intro b
        refine List.Pairwise.filterMap _ ?_ hp
        intro w v hwv t ht u hu
        match w, v with
        | [], _ => simp at ht
        | _, [] => simp at hu
        | c :: w, d :: v =>
          simp at ht hu
          obtain ⟨rfl, rfl⟩ := ht
          obtain ⟨rfl, rfl⟩ := hu
          constructor
          · intro h; exact hwv.1 (List.cons_prefix_cons.2 ⟨rfl, h⟩)
          · intro h; exact hwv.2 (List.cons_prefix_cons.2 ⟨rfl, h⟩)
      have hlt : ∀ b, ∀ w ∈ tl b, w.length ≤ N := by
        intro b w hw
        rw [List.mem_filterMap] at hw
        obtain ⟨v, hv, h⟩ := hw
        have := hN v hv
        match v with
        | [] => simp at h
        | c :: v => simp at h; obtain ⟨-, rfl⟩ := h; simpa using this
      rw [hsum L hnil, Nat.pow_succ]
      have h0 := ih (tl false) (hpt false) (hlt false)
      have h1 := ih (tl true) (hpt true) (hlt true)
      simp only [tl] at h0 h1
      omega

/-- weight * length, summed. -/
def costOf (P : List (Nat × Nat)) : Nat := (P.map fun p => p.1 * p.2).sum

theorem costOf_cons (w l : Nat) (P : List (Nat × Nat)) : costOf ((w, l) :: P) = w * l + costOf P := by simp [costOf]

/-- A least weight may take the longest length: the lengths stay the same, the cost does not grow. -/
theorem bubble (N w l : Nat) (P : List (Nat × Nat)) (hw : ∀ p ∈ P, w ≤ p.1) :
    ∃ M P', P'.map Prod.fst = P.map Prod.fst ∧ (∀ p ∈ P', p.2 ≤ M) ∧ (∀ B, l ≤ B → (∀ p ∈ P, p.2 ≤ B) → M ≤ B ∧ ∀ p ∈ P', p.2 ≤ B) ∧
      kraft N (M :: P'.map Prod.snd) = kraft N (l :: P.map Prod.snd) ∧ w * M + costOf P' ≤ w * l + costOf P := by
  induction P with
  | nil => exact ⟨l, [], rfl, by simp, by simp, rfl, Nat.le_refl _⟩
  | cons p P ih =>
    obtain ⟨wy, ly⟩ := p
    obtain ⟨M, P', h1, h2, h3, h4, h5⟩ := ih (fun p hp => hw p (by simp [hp]))
    have hwy : w ≤ wy := hw (wy, ly) (by simp)
    by_cases hl : ly ≤ M
    · refine ⟨M, (wy, ly) :: P', by simp [h1], ?_, ?_, ?_, ?_⟩
      · intro p hp
        rcases List.mem_cons.1 hp with rfl | hp
        · exact hl
        · exact h2 p hp
      · intro B hB hP
        have := h3 B hB (fun p hp => hP p (by simp [hp]))
        refine ⟨this.1, fun p hp => ?_⟩
        rcases List.mem_cons.1 hp with rfl | hp
        · exact hP _ (by simp)
        · exact this.2 p hp
      · simp only [List.map_cons, kraft_cons] at h4 ⊢; omega
      · rw [costOf_cons, costOf_cons]; omega
    · refine ⟨ly, (wy, M) :: P', by simp [h1], ?_, ?_, ?_, ?_⟩
      · intro p hp
        rcases List.mem_cons.1 hp with rfl | hp
        · show M ≤ ly; omega
        · have := h2 p hp; omega
      · intro B hB hP
        have := h3 B hB (fun p hp => hP p (by simp [hp]))
        refine ⟨hP (wy, ly) (by simp), fun p hp => ?_⟩
        rcases List.mem_cons.1 hp with rfl | hp
        · exact this.1
        · exact this.2 p hp
      · simp only [List.map_cons, kraft_cons] at h4 ⊢; omega
      · rw [costOf_cons, costOf_cons]
        obtain ⟨d, rfl⟩ : ∃ d, wy = w + d := ⟨wy - w, by omega⟩
        obtain ⟨e, rfl⟩ : ∃ e, ly = M + e := ⟨ly - M, by omega⟩
        have e1 : w * (M + e) = w * M + w * e := Nat.mul_add _ _ _
        have e2 : (w + d) * (M + e) = w * M + w * e + d * (M + e) := by rw [Nat.add_mul, e1]
        have e3 : (w + d) * M = w * M + d * M := Nat.add_mul _ _ _
        have e4 : d * M ≤ d * (M + e) := Nat.mul_le_mul_left _ (by omega)
        omega

theorem kraft_dvd (N M : Nat) (ls : List Nat) (h : ∀ l ∈ ls, l ≤ M) (hM : M ≤ N) : 2 ^ (N - M) ∣ kraft N ls := by
  unfold kraft
  apply List.dvd_sum
  intro x hx
  rw [List.mem_map] at hx
  obtain ⟨l, hl, rfl⟩ := hx
  exact Nat.pow_dvd_pow 2 (by have := h l hl; omega)

/-- Two least weights may be merged one level up (the step of the optimality proof). -/
theorem exchange (N wa la wb lb : Nat) (P : List (Nat × Nat)) (hab : wa ≤ wb) (hb : ∀ p ∈ P, wb ≤ p.1)
    (hk : kraft N (la :: lb :: P.map Prod.snd) ≤ 2 ^ N) (hla : la ≤ N) (hlb : lb ≤ N) (hP : ∀ p ∈ P, p.2 ≤ N) :
    ∃ ln P', P'.map Prod.fst = P.map Prod.fst ∧ ln ≤ N ∧ (∀ p ∈ P', p.2 ≤ N) ∧ kraft N (ln :: P'.map Prod.snd) ≤ 2 ^ N ∧
      wa + wb + costOf ((wa + wb, ln) :: P') ≤ costOf ((wa, la) :: (wb, lb) :: P) := by
  obtain ⟨M, Q, h1, h2, h3, h4, h5⟩ := bubble N wa la ((wb, lb) :: P) (by
    intro p hp
    rcases List.mem_cons.1 hp with rfl | hp
    · exact hab
    · have := hb p hp; omega)
  have h3N := h3 N hla (by
    intro p hp
    rcases List.mem_cons.1 hp with rfl | hp
    · exact hlb
    · exact hP p hp)
  match Q, h1, h2, h3N, h4, h5 with
  | [], h1, _, _, _, _ => simp at h1
  | (w1, l1) :: P1, h1, h2, h3N, h4, h5 =>
    simp only [List.map_cons, List.cons.injEq] at h1
    obtain ⟨rfl, k1⟩ := h1
    have hb1 : ∀ p ∈ P1, w1 ≤ p.1 := by
      intro p hp
      have : p.1 ∈ P.map Prod.fst := by rw [← k1]; exact List.mem_map_of_mem hp
      rw [List.mem_map] at this
      obtain ⟨q, hq, e⟩ := this
      rw [← e]; exact hb q hq
    obtain ⟨M2, P2, g1, g2, g3, g4, g5⟩ := bubble N w1 l1 P1 hb1
    have gM := g3 M (h2 (w1, l1) (by simp)) (fun p hp => h2 p (by simp [hp]))
    have gN := g3 N (h3N.2 (w1, l1) (by simp)) (fun p hp => h3N.2 p (by simp [hp]))
    simp only [List.map_cons, kraft_cons] at h4 g4 hk
    have hkr : 2 ^ (N - M) + (2 ^ (N - M2) + kraft N (P2.map Prod.snd)) ≤ 2 ^ N := by omega
    have hM2 : 2 ^ (N - M2) + (2 ^ (N - M2) + kraft N (P2.map Prod.snd)) ≤ 2 ^ N := by
      have hd : 2 ^ (N - M2) ∣ 2 ^ (N - M2) + kraft N (P2.map Prod.snd) := by
        have := kraft_dvd N M2 (M2 :: P2.map Prod.snd) (by
          intro l hl
          rcases List.mem_cons.1 hl with rfl | hl
          · exact Nat.le_refl _
          · rw [List.mem_map] at hl
            obtain ⟨p, hp, rfl⟩ := hl
            exact g2 p hp) gN.1
        rwa [kraft_cons] at this
      have hd2 : 2 ^ (N - M2) ∣ 2 ^ N := Nat.pow_dvd_pow 2 (by omega)
      obtain ⟨x, hx⟩ := hd
      obtain ⟨y, hy⟩ := hd2
      have hpos : 0 < 2 ^ (N - M) := Nat.pow_pos (by omega)
      rw [hx, hy] at hkr ⊢
      have hlt : 2 ^ (N - M2) * x < 2 ^ (N - M2) * y := by omega
      have hxy : x < y := Nat.lt_of_mul_lt_mul_left hlt
      calc 2 ^ (N - M2) + 2 ^ (N - M2) * x = 2 ^ (N - M2) * (x + 1) := by rw [Nat.mul_add]; omega
        _ ≤ 2 ^ (N - M2) * y := Nat.mul_le_mul_left _ hxy
    have hpos2 : 0 < M2 := by
      by_contra h0
      have : M2 = 0 := by omega
      subst this
      have : 0 < 2 ^ N := Nat.pow_pos (by omega)
      simp only [Nat.sub_zero] at hM2
      omega
    refine ⟨M2 - 1, P2, g1.trans k1, by omega, gN.2, ?_, ?_⟩
    · rw [kraft_cons]
      have : N - (M2 - 1) = (N - M2) + 1 := by omega
      rw [this, Nat.pow_succ]; omega
    · rw [costOf_cons] at h5 ⊢
      rw [costOf_cons, costOf_cons]
      rw [costOf_cons] at h5
      obtain ⟨e, rfl⟩ : ∃ e, M2 = e + 1 := ⟨M2 - 1, by omega⟩
      have hm : wa * (e + 1) ≤ wa * M := Nat.mul_le_mul_left _ gM.1
      have e1 : (wa + w1) * e = wa * e + w1 * e := Nat.add_mul _ _ _
      rw [Nat.mul_add, Nat.mul_one] at g5 hm
      simp only [Nat.add_sub_cancel]
      omega

/-! ### The merge loop -/

theorem perm_lift (P : List (Nat × Nat)) (w : Nat) (L : List Nat) (h : (P.map Prod.fst).Perm (w :: L)) :
    ∃ l P', P.Perm ((w, l) :: P') ∧ (P'.map Prod.fst).Perm L := by
  have : w ∈ P.map Prod.fst := h.symm.subset (by simp)
  rw [List.mem_map] at this
  obtain ⟨⟨w', l⟩, hm, rfl⟩ := this
  have hp := List.perm_cons_erase hm
  refine ⟨l, P.erase (w', l), hp, ?_⟩
  have := (hp.map Prod.fst).symm.trans h
  simpa using this

theorem costOf_perm {P Q : List (Nat × Nat)} (h : P.Perm Q) : costOf P = costOf Q := (h.map _).sum_eq
theorem kraft_perm {N : Nat} {P Q : List (Nat × Nat)} (h : P.Perm Q) : kraft N (P.map Prod.snd) = kraft N (Q.map Prod.snd) :=
  ((h.map _).map _).sum_eq

/-- The counts of the slots k to n - 1. -/
def mergedSum (s : State) (k n : Nat) : Nat := ((List.range n).map fun m => if k ≤ m then (slotAt s m).count.toNat else 0).sum

/-- The merges from here on cost no more than any lengths that meet Kraft's inequality. -/
theorem loop_cost {s₀ : State} (fuel : Nat) {q : List NodeIdx} {k : Nat} {s : State} (h : Merging s₀ q k s) (hq : q ≠ [])
    (hf : q.length ≤ fuel + 1) (N : Nat) (P : List (Nat × Nat)) (hP : (P.map Prod.fst).Perm (q.map fun i => (nodeCount s i).toNat))
    (hN : ∀ p ∈ P, p.2 ≤ N) (hk : kraft N (P.map Prod.snd) ≤ 2 ^ N) :
    mergedSum (mergeLoop fuel q k s).2 k ((leafQueue s₀).length - 1) ≤ costOf P := by
  induction fuel generalizing q k s P with
  | zero =>
    have hs := h.size
    have : 0 < q.length := List.length_pos_iff.2 hq
    have : mergedSum s k ((leafQueue s₀).length - 1) = 0 := by
      unfold mergedSum
      apply List.sum_eq_zero
      intro x hx
      rw [List.mem_map] at hx
      obtain ⟨m, hm, rfl⟩ := hx
      rw [List.mem_range] at hm
      rw [if_neg (by omega)]
    show mergedSum s k _ ≤ _
    omega
  | succ fuel ih =>
    have hL := leafQueue_length_le s₀
    have hsz := h.size
    have hpos : 0 < q.length := List.length_pos_iff.2 hq
    rw [mergeLoop]
    cases h1 : grant s q with
    | none => exact absurd (grant_none h1) hq
    | some p =>
      obtain ⟨a, q₁⟩ := p
      have p1 := grant_perm h1
      cases h2 : grant s q₁ with
      | none =>
        have hnil := grant_none h2
        subst hnil
        have hlen : q.length = 1 := by simpa using p1.length_eq
        have : mergedSum s k ((leafQueue s₀).length - 1) = 0 := by
          unfold mergedSum
          apply List.sum_eq_zero
          intro x hx
          rw [List.mem_map] at hx
          obtain ⟨m, hm, rfl⟩ := hx
          rw [List.mem_range] at hm
          rw [if_neg (by omega)]
        simp only [h2]
        omega
      | some p' =>
        obtain ⟨b, q₂⟩ := p'
        have p2 := grant_perm h2
        simp only [h2]
        have l1 := p1.length_eq
        have l2 := p2.length_eq
        simp only [List.length_cons] at l1 l2
        have hm := h.merge h1 h2
        have hk256 : k < 256 := by omega
        have hqp : q.Perm (a :: b :: q₂) := p1.trans (p2.cons a)
        have hP1 := hP.trans (hqp.map fun i => (nodeCount s i).toNat)
        simp only [List.map_cons] at hP1
        obtain ⟨la, P1, e1, f1⟩ := perm_lift P _ _ hP1
        obtain ⟨lb, P2, e2, f2⟩ := perm_lift P1 _ _ f1
        have eP : P.Perm ((_, la) :: (_, lb) :: P2) := e1.trans (e2.cons _)
        obtain ⟨-, -, gm⟩ := grant_spec h1
        obtain ⟨-, -, gm2⟩ := grant_spec h2
        have kmon : ∀ i j : NodeIdx, nodeKey s i ≤ nodeKey s j → (nodeCount s i).toNat ≤ (nodeCount s j).toNat := by
          intro i j hij
          have := i.isLt
          have := j.isLt
          simp only [nodeKey] at hij; omega
        have hab : (nodeCount s a).toNat ≤ (nodeCount s b).toNat := kmon _ _ (gm b (hqp.symm.subset (by simp)))
        have hb : ∀ p ∈ P2, (nodeCount s b).toNat ≤ p.1 := by
          intro p hp
          have : p.1 ∈ q₂.map fun i => (nodeCount s i).toNat := f2.subset (List.mem_map_of_mem hp)
          rw [List.mem_map] at this
          obtain ⟨j, hj, e⟩ := this
          rw [← e]
          exact kmon _ _ (gm2 j (p2.symm.subset (by simp [hj])))
        have hkP : kraft N (la :: lb :: P2.map Prod.snd) ≤ 2 ^ N := by
          have := kraft_perm (N := N) eP
          simp only [List.map_cons] at this
          omega
        obtain ⟨ln, P3, g1, g2, g3, g4, g5⟩ := exchange N _ la _ lb P2 hab hb hkP
          (hN ((nodeCount s a).toNat, la) (eP.symm.subset (by simp)))
          (hN ((nodeCount s b).toNat, lb) (eP.symm.subset (by simp))) (fun p hp => hN _ (eP.symm.subset (by simp [hp])))
        have hsum := hm.sums k (by omega)
        have hnew : slotAt (setNode s k ⟨a, b, nodeCount s a + nodeCount s b⟩) k = ⟨a, b, nodeCount s a + nodeCount s b⟩ := by
          rw [slotAt_setNode _ _ _ _ hk256, if_pos rfl]
        have hlow := hm.queue_lt (by omega)
        have hlt := h.queue_lt (by omega)
        have hcnt : ∀ i : NodeIdx, i.toNat < 257 + k →
            nodeCount (setNode s k ⟨a, b, nodeCount s a + nodeCount s b⟩) i = nodeCount s i :=
          fun i hi => nodeCount_setNode_ne _ _ _ _ (by omega)
        have ha := hlt a (hqp.symm.subset (by simp))
        have hbb := hlt b (hqp.symm.subset (by simp))
        rw [hnew] at hsum
        dsimp only at hsum
        rw [hcnt a ha, hcnt b hbb] at hsum
        have hcn : (nodeCount (setNode s k ⟨a, b, nodeCount s a + nodeCount s b⟩) (mergeIndex k)).toNat = (nodeCount s a).toNat + (nodeCount s b).toNat := by
          rw [(mergeIndex_fields _ hk256).2.2, hnew]; exact hsum
        have hih := ih hm (by simp) (by simp only [List.length_cons]; omega) (((nodeCount s a).toNat + (nodeCount s b).toNat, ln) :: P3) (by
            rw [List.map_cons, List.map_cons, hcn, g1]
            refine List.Perm.cons _ (f2.trans ?_)
            exact List.Perm.of_eq (List.map_congr_left fun i hi => by
              rw [hcnt i (hlt i (hqp.symm.subset (by simp [hi])))])) (by
            intro p hp
            rcases List.mem_cons.1 hp with rfl | hp
            · exact g2
            · exact g3 p hp) (by simpa using g4)
        have hsplit : ∀ (t : State) (n : Nat), k < n → mergedSum t k n = (slotAt t k).count.toNat + mergedSum t (k + 1) n := by
          intro t n hn
          unfold mergedSum
          induction n with
          | zero => omega
          | succ n ihn =>
            rw [List.range_succ, List.map_append, List.sum_append, List.map_append, List.sum_append]
            simp only [List.map_cons, List.map_nil, List.sum_cons, List.sum_nil]
            by_cases e : k = n
            · subst e
              have z1 : ((List.range k).map fun m => if k ≤ m then (slotAt t m).count.toNat else 0).sum = 0 := by
                apply List.sum_eq_zero
                intro x hx
                rw [List.mem_map] at hx
                obtain ⟨m, hm, rfl⟩ := hx
                rw [List.mem_range] at hm
                rw [if_neg (by omega)]
              have z2 : ((List.range k).map fun m => if k + 1 ≤ m then (slotAt t m).count.toNat else 0).sum = 0 := by
                apply List.sum_eq_zero
                intro x hx
                rw [List.mem_map] at hx
                obtain ⟨m, hm, rfl⟩ := hx
                rw [List.mem_range] at hm
                rw [if_neg (by omega)]
              rw [z1, z2, if_pos (Nat.le_refl _), if_neg (by omega)]; omega
            · rw [ihn (by omega), if_pos (by omega), if_pos (by omega)]; omega
        have hkeep : slotAt (mergeLoop fuel (mergeIndex k :: q₂) (k + 1) (setNode s k ⟨a, b, nodeCount s a + nodeCount s b⟩)).2 k = slotAt (setNode s k ⟨a, b, nodeCount s a + nodeCount s b⟩) k := by
          have keep : ∀ (fuel : Nat) (q : List NodeIdx) (k' : Nat) (t : State), k < k' → slotAt (mergeLoop fuel q k' t).2 k = slotAt t k := by
            intro fuel
            induction fuel with
            | zero => intro q k' t _; rfl
            | succ fuel ih =>
              intro q k' t hk'
              rw [mergeLoop]
              split
              · rfl
              · split
                · rfl
                · rw [ih _ _ _ (by omega), slotAt_setNode _ _ _ _ hk256, if_neg (by omega)]
          exact keep _ _ _ _ (by omega)
        rw [hsplit _ _ (by omega), hkeep, hnew]
        dsimp only
        rw [hsum, costOf_perm eP]
        omega


/-! ### The depth of a node, and the cost as a sum over the slots -/

variable {s t : State}

theorem Built.noNode_not_inTree (h : Built s t) : inTree t Config.noNode.toNat ≠ true := by
  intro hin
  have := inTree_lt hin h.nleaf_le
  exact absurd this (by decide)

/-- A path that ends in the tree stays in it. -/
theorem Built.path_inTree (h : Built s t) (p q : List Bool) {i : NodeIdx} (hi : inTree t i.toNat = true)
    (hp : inTree t (pathEnd t i (p ++ q)).toNat = true) : inTree t (pathEnd t i p).toNat = true := by
  induction p generalizing i with
  | nil => exact hi
  | cons v p ih =>
    by_cases hl : isLeaf i = true
    · rw [List.cons_append, pathEnd, childOn_leaf v hl, pathEnd_noNode] at hp
      exact absurd hp h.noNode_not_inTree
    · have h257 : 257 ≤ i.toNat := by rw [isLeaf_iff] at hl; omega
      exact ih (h.child_inTree h257 hi v).1 hp

/-- The last step to a node of the tree comes from a slot that holds it. -/
theorem Built.last_step (h : Built s t) (p : List Bool) (v : Bool)
    (hp : inTree t (pathEnd t t.root (p ++ [v])).toNat = true) :
    ∃ m, m < t.nleaf.toNat - 1 ∧ pathEnd t t.root p = mergeIndex m ∧
      pathEnd t t.root (p ++ [v]) = if v then (slotAt t m).right else (slotAt t m).left := by
  have hin := h.path_inTree p [v] h.root_inTree hp
  have hle := h.nleaf_le
  have he : pathEnd t t.root (p ++ [v]) = childOn t v (pathEnd t t.root p) := by rw [pathEnd_append]; rfl
  rw [he] at hp
  by_cases hl : isLeaf (pathEnd t t.root p) = true
  · rw [childOn_leaf v hl] at hp
    exact absurd hp h.noNode_not_inTree
  · have h257 : 257 ≤ (pathEnd t t.root p).toNat := by rw [isLeaf_iff] at hl; omega
    obtain ⟨m, hm, hidx, h1, h2, -⟩ := h.internal h257 hin
    refine ⟨m, hm, BitVec.eq_of_toNat_eq (by rw [hidx, mergeIndex_toNat (by omega)]), ?_⟩
    rw [he, childOn, h1, h2]

theorem Built.root_not_kid (h : Built s t) {m : Nat} (hm : m < t.nleaf.toNat - 1) (v : Bool) :
    t.root ≠ if v then (slotAt t m).right else (slotAt t m).left := by
  intro he
  refine (List.nodup_cons.1 h.kids_nodup).1 (mem_kids.2 ⟨m, hm, ?_⟩)
  cases v
  · exact .inl he.symm
  · exact .inr he.symm

/-- A node of the tree has one path from ROOT. -/
theorem Built.path_unique (h : Built s t) (p q : List Bool) (hp : inTree t (pathEnd t t.root p).toNat = true)
    (he : pathEnd t t.root p = pathEnd t t.root q) : p = q := by
  have hn := (List.nodup_cons.1 h.kids_nodup).2
  induction p using List.reverseRecOn generalizing q with
  | nil =>
    induction q using List.reverseRecOn with
    | nil => rfl
    | append_singleton q v _ =>
      obtain ⟨m, hm, -, h2⟩ := h.last_step q v (he ▸ hp)
      exact absurd (he.trans h2) (h.root_not_kid hm v)
  | append_singleton p v ih =>
    obtain ⟨m, hm, h1, h2⟩ := h.last_step p v hp
    induction q using List.reverseRecOn with
    | nil => exact absurd (he.symm.trans h2) (h.root_not_kid hm v)
    | append_singleton q u _ =>
      obtain ⟨m', hm', h3, h4⟩ := h.last_step q u (he ▸ hp)
      rw [h2, h4] at he
      have e : m = m' := flatMap_pair_unique (fun m => ((slotAt t m).left, (slotAt t m).right)) _ hn hm hm'
        (j := if v then (slotAt t m).right else (slotAt t m).left) (by cases v <;> simp) (by rw [he]; cases u <;> simp)
      subst e
      have hd : (slotAt t m).left ≠ (slotAt t m).right := by
        have := (List.nodup_flatMap.1 hn).1 m (by simpa using hm)
        simpa using this
      have hvu : v = u := by
        cases v <;> cases u
        · rfl
        · exact absurd he (by simpa using hd)
        · exact absurd he (by simpa using hd.symm)
        · rfl
      rw [ih q (h.path_inTree p [v] h.root_inTree hp) (h1.trans h3.symm), hvu]

/-- The depth of a node of the tree: one number for every path to it. -/
theorem Built.depth (h : Built s t) :
    ∃ d : NodeIdx → Nat, ∀ p, inTree t (pathEnd t t.root p).toNat = true → d (pathEnd t t.root p) = p.length := by
  classical
  refine ⟨fun j => if hj : ∃ p, pathEnd t t.root p = j then hj.choose.length else 0, fun p hp => ?_⟩
  have hj : ∃ q, pathEnd t t.root q = pathEnd t t.root p := ⟨p, rfl⟩
  simp only [dif_pos hj]
  exact congrArg List.length (h.path_unique p _ hp hj.choose_spec.symm).symm

theorem sum_kids (f : NodeIdx → Nat) (n : Nat) :
    ((kids t n).map f).sum = ((List.range n).map fun m => f (slotAt t m).left + f (slotAt t m).right).sum := by
  induction n with
  | zero => rfl
  | succ n ih =>
    have e : kids t (n + 1) = kids t n ++ [(slotAt t n).left, (slotAt t n).right] := by
      simp [kids, List.range_succ, List.flatMap_append]
    rw [e, List.range_succ, List.map_append, List.sum_append, List.map_append, List.sum_append, ih]
    simp

/-- The weighted path length of BUILD's codes is the sum of the counts of the internal nodes. -/
theorem Built.cost_eq (h : Built s t) :
    ((leafQueue s).map fun i => (nodeCount t i).toNat * (codeAt t i.toNat).len.toNat).sum =
      ((List.range (t.nleaf.toNat - 1)).map fun m => (slotAt t m).count.toNat).sum := by
  obtain ⟨d, hd⟩ := h.depth
  have hle := h.nleaf_le
  have hroot : d t.root = 0 := hd [] h.root_inTree
  have hchild : ∀ m, m < t.nleaf.toNat - 1 →
      d (slotAt t m).left = d (mergeIndex m) + 1 ∧ d (slotAt t m).right = d (mergeIndex m) + 1 := by
    intro m hm
    have hin := h.slot_inTree hm
    have hidx := mergeIndex_toNat (k := m) (by omega)
    obtain ⟨p, hp⟩ := h.reachable 1024 (j := mergeIndex m) (by omega) hin
    have hdp := hd p (by rw [hp]; exact hin)
    rw [hp] at hdp
    obtain ⟨f1, f2, -⟩ := mergeIndex_fields t (m := m) (by omega)
    have step : ∀ v, d (childOn t v (mergeIndex m)) = p.length + 1 := by
      intro v
      have he : pathEnd t t.root (p ++ [v]) = childOn t v (mergeIndex m) := by rw [pathEnd_append, hp]; rfl
      have := hd (p ++ [v]) (by rw [he]; exact (h.child_inTree (by omega) hin v).1)
      rw [he] at this
      simpa using this
    have s0 := step false
    have s1 := step true
    simp only [childOn, Bool.false_eq_true, if_false, if_true, f1, f2] at s0 s1
    omega
  have hcode : ∀ i ∈ leafQueue s, (codeAt t i.toNat).len.toNat = d i := by
    intro i hi
    have hin : inTree t i.toNat = true := (h.inTree_iff i).2 (List.mem_append_left _ hi)
    obtain ⟨p, hp, hpl, hc⟩ := h.code_leaf (mem_leafQueue.1 hi).1 hin
    have hpi : pathEnd t t.root p = i := BitVec.eq_of_toNat_eq hp
    have := hd p (by rw [hp]; exact hin)
    rw [hpi] at this
    rw [hc, this]
    simp only [pathEntry, BitVec.toNat_ofNat, Nat.zero_add]
    omega
  have hperm := (h.perm.map fun i => (nodeCount t i).toNat * d i).sum_eq
  rw [List.map_cons, List.sum_cons, hroot, Nat.mul_zero, Nat.zero_add, sum_kids, List.map_append, List.sum_append,
    List.map_map] at hperm
  have hslots : ((List.range (t.nleaf.toNat - 1)).map fun m =>
        (nodeCount t (slotAt t m).left).toNat * d (slotAt t m).left +
          (nodeCount t (slotAt t m).right).toNat * d (slotAt t m).right).sum =
      ((List.range (t.nleaf.toNat - 1)).map ((fun i => (nodeCount t i).toNat * d i) ∘ mergeIndex)).sum +
        ((List.range (t.nleaf.toNat - 1)).map fun m => (slotAt t m).count.toNat).sum := by
    rw [← List.sum_map_add]
    refine congrArg List.sum (List.map_congr_left fun m hm => ?_)
    have hm : m < t.nleaf.toNat - 1 := by simpa using hm
    have hin := h.slot_inTree hm
    have hidx := mergeIndex_toNat (k := m) (by omega)
    obtain ⟨f1, f2, f3⟩ := mergeIndex_fields t (m := m) (by omega)
    have hs := h.countsAreSums (by rw [h.frame]) (mergeIndex m) (by show 257 ≤ _; omega) hin
    rw [f1, f2, f3] at hs
    obtain ⟨c1, c2⟩ := hchild m hm
    simp only [Function.comp, c1, c2, f3, hs]
    ring
  rw [hslots] at hperm
  have : ((leafQueue s).map fun i => (nodeCount t i).toNat * (codeAt t i.toNat).len.toNat).sum =
      ((leafQueue s).map fun i => (nodeCount t i).toNat * d i).sum :=
    congrArg List.sum (List.map_congr_left fun i hi => by rw [hcode i hi])
  omega

/-- No prefix code on the symbols of the table costs less than BUILD's. -/
theorem buildTree_cost_le (hq : leafQueue s ≠ []) (c : NodeIdx → List Bool)
    (hc : (leafQueue s).Pairwise fun i j => noPrefix (c i) (c j)) :
    ((leafQueue s).map fun i => (nodeCount (buildTree s) i).toNat * (codeAt (buildTree s) i.toNat).len.toNat).sum ≤
      ((leafQueue s).map fun i => (nodeCount s i).toNat * (c i).length).sum := by
  have h := built_buildTree hq
  obtain ⟨N, hN⟩ : ∃ N, ∀ i ∈ leafQueue s, (c i).length ≤ N :=
    ⟨((leafQueue s).map fun i => (c i).length).sum, fun i hi => List.single_le_sum (by simp) _ (List.mem_map_of_mem hi)⟩
  have hl := loop_cost (leafQueue s).length (Merging.start s) hq (by omega) N
    ((leafQueue s).map fun i => ((nodeCount s i).toNat, (c i).length)) (by simp [Function.comp_def])
    (by
      intro p hp
      rw [List.mem_map] at hp
      obtain ⟨i, hi, rfl⟩ := hp
      exact hN i hi)
    (by
      have := kraft_of_prefixFree N ((leafQueue s).map c) (List.pairwise_map.2 hc) (by simpa using hN)
      simpa [Function.comp_def] using this)
  have hsum : mergedSum (mergeLoop (leafQueue s).length (leafQueue s) 0 s).2 0 ((leafQueue s).length - 1) =
      ((List.range ((buildTree s).nleaf.toNat - 1)).map fun m => (slotAt (buildTree s) m).count.toNat).sum := by
    rw [mergedSum, h.nleaf]
    simp only [Nat.zero_le, if_true]
    rfl
  rw [h.cost_eq, ← hsum]
  simpa [costOf, Function.comp_def] using hl

end Sys2Proof.Machine
end

