-- ==== Sys2Proof/Laws/PerInstr.lean ====
section
/-! SUPPORT. Statements made per instruction: the fields of each command's word. -/

/-- The word of an instruction holds its OP, ARG and DATA, and RSV = 0 (30_encoding.md R71, R73). -/
def Sys2Proof.Laws.EncodedFields.Statement (i : Sys2Proof.Instr) : Prop :=
  Sys2Proof.opField (Sys2Proof.encode i) = Sys2Proof.opcode i ∧ Sys2Proof.rsvField (Sys2Proof.encode i) = 0#19 ∧
    Sys2Proof.argField (Sys2Proof.encode i) = Sys2Proof.encodedArg i ∧
    Sys2Proof.dataField (Sys2Proof.encode i) = Sys2Proof.encodedData i

namespace Sys2Proof.Laws.EncodedFields

theorem of_encode (i : Instr) : Statement i :=
  ⟨opField_commandWord _ _ _, rsvField_commandWord _ _ _, argField_commandWord _ _ _, dataField_commandWord _ _ _⟩

theorem nop : Statement .nop := of_encode _
theorem clear : Statement .clear := of_encode _
theorem ldfreq (sym : Arg) (count : Freq) : Statement (.ldfreq sym count) := of_encode _
theorem build : Statement .build := of_encode _
theorem enc (arg : Arg) : Statement (.enc arg) := of_encode _
theorem encEnd : Statement .encEnd := of_encode _
theorem decStart : Statement .decStart := of_encode _
theorem decByte (arg : Arg) : Statement (.decByte arg) := of_encode _
theorem decEnd : Statement .decEnd := of_encode _
theorem clrerr : Statement .clrerr := of_encode _

end Sys2Proof.Laws.EncodedFields
end

