-- ==== Sys2Proof/Laws/Port.lean ====
section
/-! SUPPORT. What the host's moves do to the fields that no table row names: the counter of free draws and the words. -/

namespace Sys2Proof.Machine

@[simp] theorem assertReset_draws (s : State) : (assertReset s).draws = s.draws := rfl
@[simp] theorem assertReset_prog (s : State) : (assertReset s).prog = [] := rfl
@[simp] theorem assertReset_pos (s : State) : (assertReset s).pos = 0 := rfl
@[simp] theorem assertReset_fatal (s : State) : (assertReset s).fatal = false := rfl
@[simp] theorem readPort_draws (addr : RbAddr) (s : State) : (readPort addr s).2.draws = s.draws + 1 := rfl
@[simp] theorem loadProgram_prog (s : State) (ws : List Word) : (loadProgram s ws).prog = ws := rfl
@[simp] theorem loadProgram_pos (s : State) (ws : List Word) : (loadProgram s ws).pos = 0 := rfl

@[simp] theorem drainE_draws (s : State) : (drainE s).2.draws = s.draws := by unfold drainE; split <;> rfl

@[simp] theorem drainD_draws (s : State) : (drainD s).2.draws = s.draws := by unfold drainD; split <;> rfl

end Sys2Proof.Machine
end

