-- ==== Sys2Proof/Laws/Step.lean ====
section
/-! SUPPORT. What a step can do, once. -/

namespace Sys2Proof.Machine

/-- A step either holds the state, with no word to take, or performs a word and advances the position. -/
theorem step_cases {s t : State} (h : step s = .next t) :
    (nextWord s = none ∧ t = s) ∨ ∃ w u, nextWord s = some w ∧ performWord w s = .next u ∧ t = advance u := by
  unfold step at h
  cases hw : nextWord s with
  | none => simp only [hw] at h; cases h; exact .inl ⟨rfl, rfl⟩
  | some w =>
    simp only [hw] at h
    cases hp : performWord w s with
    | next u => rw [hp] at h; cases h; exact .inr ⟨w, u, rfl, hp, rfl⟩
    | fault r => rw [hp] at h; cases h
    | refused r => rw [hp] at h; cases h

/-- A word performs its command, or is rejected as illegal. -/
theorem performWord_cases {w : Word} {s u : State} (h : performWord w s = .next u) :
    (∃ i, decode w = .ok i ∧ exec i s = .next u) ∨
    (∃ e, decode w = .error e ∧ rejectIllegal s = .next u) := by
  unfold performWord at h
  cases hd : decode w with
  | ok i => rw [hd] at h; exact .inl ⟨i, rfl, h⟩
  | error e => rw [hd] at h; exact .inr ⟨e, rfl, h⟩

theorem rejectIllegal_eq (s : State) :
    rejectIllegal s = .next (if s.fatal = true then s else raiseError .illegal s) := by
  unfold rejectIllegal checked
  cases s.fatal <;> rfl

/-- One more step of a run, of any machine. -/
theorem coreRun_succ (M : Host.Core) (n : Nat) (s : M.State) :
    M.run (n + 1) s =
      match M.step s with
      | .next s' => M.run n s'
      | .fault r => .fault r
      | .refused r => .refused r := rfl

/-- A run goes on from the next state of its first step. -/
theorem run_succ (n : Nat) {s t : State} (h : step s = .next t) : core.run (n + 1) s = core.run n t := by
  have hc : core.step s = .next t := h
  exact (coreRun_succ core n s).trans (by rw [hc])

/-! ### What a command can do -/

/-- The checks of a command, in the order of its page (60_exceptions.md R184). -/
def checksOf : Instr → State → List (Bool × ErrCode)
  | .nop, _ => []
  | .clear, s => [(streamOpen s, .seq)]
  | .ldfreq sym _, s => [(!symbolInRange sym, .badarg), (streamOpen s, .seq)]
  | .build, s => [(streamOpen s, .seq), ((leafQueue s).isEmpty, .empty)]
  | .enc arg, s => [(!byteInRange arg, .badarg), (!s.treeValid, .notree), (!(codeAt s arg.toNat).valid, .nocode)]
  | .encEnd, s => [(!s.treeValid, .notree), (!(codeAt s Config.eob).valid, .nocode)]
  | .decStart, s => [(!s.treeValid, .notree)]
  | .decByte arg, s => [(!byteInRange arg, .badarg), (decide (s.decState = .idle), .seq)]
  | .decEnd, s => [(decide (s.decState = .idle), .seq)]
  | .clrerr, _ => []

/-- The effect of a command whose checks have passed. -/
def effectOf : Instr → State → Result
  | .nop, s => .next s
  | .clear, s => .next { s with freq := preScanTable, treeValid := false }
  | .ldfreq sym count, s => .next { setFreq s sym.toNat count with treeValid := false }
  | .build, s => .next (buildTree s)
  | .enc arg, s => .next { writeCode arg.toNat s with encOpen := true }
  | .encEnd, s => .next { closeStream (writeCode Config.eob s) with encOpen := false }
  | .decStart, s => .next { s with cur := s.root, decState := if s.root.toNat = Config.eob then .done else .run }
  | .decByte arg, s => walkBits (byteBits (argByte arg)) s
  | .decEnd, s => .next (if s.decState = .run then { s with decState := .trunc } else s)
  | .clrerr, s => .next (clearErr s)

theorem exec_eq (i : Instr) (s : State) : exec i s = checked s (checksOf i s) (effectOf i s) := by
  cases i <;> rfl

theorem exec_dropped (i : Instr) {s : State} (h : s.fatal = true) : exec i s = .next s := by
  rw [exec_eq]; exact checked_dropped _ _ h

theorem exec_rejected {i : Instr} {s : State} {e : ErrCode} (h : s.fatal = false)
    (hc : firstFailing (checksOf i s) = some e) : exec i s = .next (raiseErr e s) := by
  rw [exec_eq]; exact checked_raises _ h hc

theorem exec_performed {i : Instr} {s : State} (h : s.fatal = false) (hc : firstFailing (checksOf i s) = none) :
    exec i s = effectOf i s := by
  rw [exec_eq]; exact checked_performs _ h hc

/-- The three ways a command ends: dropped, rejected, performed (60_exceptions.md R184). -/
theorem exec_cases {i : Instr} {s t : State} (h : exec i s = .next t) :
    (s.fatal = true ∧ t = s) ∨
    (s.fatal = false ∧ ∃ e, firstFailing (checksOf i s) = some e ∧ t = raiseErr e s) ∨
    (s.fatal = false ∧ firstFailing (checksOf i s) = none ∧ effectOf i s = .next t) := by
  rw [exec_eq] at h
  obtain ⟨h1, h2⟩ | ⟨h1, e, h2, h3⟩ | ⟨h1, h2, h3⟩ := checked_cases h
  · cases h2; exact .inl ⟨h1, rfl⟩
  · cases h3; exact .inr (.inl ⟨h1, e, h2, rfl⟩)
  · exact .inr (.inr ⟨h1, h2, h3.symm⟩)

/-- `write_code` writes ACC, ACC_CNT, EOUT_REG and EOUT alone. -/
theorem writeCode_frame (sym : Nat) (s : State) :
    writeCode sym s = { s with acc := (writeCode sym s).acc, accCnt := (writeCode sym s).accCnt,
                               eoutReg := (writeCode sym s).eoutReg, eout := (writeCode sym s).eout } :=
  putBits_frame _ _

/-- What no command's effect writes: the host's words and the position, FATAL, BUSY, and the model's draws; only CLRERR
writes ERR_CODE (30_encoding.md R73, 60_exceptions.md R189). -/
theorem effectOf_frame {i : Instr} {s t : State} (h : effectOf i s = .next t) :
    t.prog = s.prog ∧ t.pos = s.pos ∧ t.fatal = s.fatal ∧ t.busy = s.busy ∧ t.draws = s.draws ∧
      (t.errCode = s.errCode ∨ (i = .clrerr ∧ t.errCode = .none)) := by
  cases i with
  | nop => cases h; simp
  | clear => cases h; simp
  | ldfreq sym count => cases h; simp
  | build =>
    cases h
    obtain ⟨n, r, l, c, hb⟩ := buildTree_writes s
    rw [hb]; simp
  | enc arg => cases h; rw [writeCode_frame]; simp
  | encEnd => cases h; rw [closeStream_frame, writeCode_frame]; simp
  | decStart => cases h; simp
  | decByte arg =>
    obtain ⟨c, d, new, rfl⟩ := walkBits_writes (s := s) (t := t) h
    simp
  | decEnd => cases h; split <;> simp
  | clrerr => cases h; simp [clearErr]

/-- Rejecting an illegal word leaves all but ERR_CODE as it was. -/
theorem rejectIllegal_cases {s u : State} (h : rejectIllegal s = .next u) :
    u = s ∨ (s.fatal = false ∧ u = afterError .illegal s) := by
  rw [rejectIllegal_eq] at h
  cases h
  split
  · exact .inl rfl
  · rename_i hf; exact .inr ⟨by simpa using hf, raiseError_eq _ _⟩

/-- With a word to take, a step performs that word. -/
theorem step_word {s t : State} {w : Word} (hb : s.busy = false) (hw : s.prog[s.pos]? = some w) (h : step s = .next t) :
    ∃ u, performWord w s = .next u ∧ t = advance u := by
  obtain ⟨hn, -⟩ | ⟨w', u, hn, hp, rfl⟩ := step_cases h
  · simp [nextWord, hb, hw] at hn
  · simp [nextWord, hb, hw] at hn
    subst hn; exact ⟨u, hp, rfl⟩

/-- A step changes nothing, or has a word to take. -/
theorem step_idle_or {s t : State} (h : step s = .next t) : t = s ∨ ∃ w, s.busy = false ∧ s.prog[s.pos]? = some w := by
  obtain ⟨hn, rfl⟩ | ⟨w', u, hn, hp, rfl⟩ := step_cases h
  · exact .inl rfl
  · right
    unfold nextWord at hn
    cases hb : s.busy
    · simp [hb] at hn; exact ⟨w', rfl, hn⟩
    · simp [hb] at hn

/-- What a step does to the tables: it invalidates the tree, leaves them all, or builds with no stream open. -/
theorem step_tables {s t : State} (h : step s = .next t) :
    t.treeValid = false ∨
    (t.freq = s.freq ∧ t.nodes = s.nodes ∧ t.root = s.root ∧ t.nleaf = s.nleaf ∧ t.code = s.code ∧
      t.treeValid = s.treeValid) ∨
    (leafQueue s ≠ [] ∧ t = advance (buildTree s) ∧ s.decState ≠ .run ∧ s.encOpen = false) := by
  obtain rfl | ⟨w, hb, hw⟩ := step_idle_or h
  · simp
  obtain ⟨u, hp, rfl⟩ := step_word hb hw h
  obtain ⟨i, hd, he⟩ | ⟨e, hd, he⟩ := performWord_cases hp
  · obtain ⟨hf, rfl⟩ | ⟨hf, e, hc, rfl⟩ | ⟨hf, hc, he⟩ := exec_cases he
    · simp [advance]
    · rw [raiseErr_frame]; simp [advance]
    · cases i with
      | nop => cases he; simp [advance]
      | clear => cases he; simp [advance]
      | ldfreq a b => cases he; simp [advance]
      | build =>
        cases he
        right; right
        cases ho : streamOpen s
        · refine ⟨?_, rfl, ?_⟩
          · rintro hn; simp [checksOf, firstFailing, hn, ho] at hc
          · simp [streamOpen] at ho; exact ho.symm
        · simp [checksOf, firstFailing, ho] at hc
      | enc a => cases he; rw [writeCode_frame]; simp [advance]
      | encEnd => cases he; rw [closeStream_frame, writeCode_frame]; simp [advance]
      | decStart => cases he; simp [advance]
      | decByte a =>
        obtain ⟨c, d, new, rfl⟩ := walkBits_writes (s := s) (t := u) he
        simp [advance]
      | decEnd => cases he; split <;> simp [advance]
      | clrerr => cases he; simp [advance, clearErr]
  · rcases rejectIllegal_cases he with rfl | ⟨hf, rfl⟩ <;> simp [advance, afterError]

end Sys2Proof.Machine
end

