-- ==== Sys2Proof/Tests/Slice0.lean ====
section
/-! SUPPORT. Tests and witnesses. Every expected value is the spec's: the words of 30_encoding.md R80 and the vectors of
95_test_vectors.md, named in each docstring. A `witness_<Name>` theorem shows states and operands that meet the hypotheses
of the obligation of that name, one conjunct per clause. -/

namespace Sys2Proof.Tests

set_option Elab.async false

open Sys2Proof Sys2Proof.Machine

/-! ### Small states -/

/-- Reset, then the given FREQ entries (FREQ[256] stays 1 unless given). -/
def table (counts : List (Nat × Freq)) : State := counts.foldl (fun s p => setFreq s p.1 p.2) State.reset

/-- That table after BUILD. -/
def built (counts : List (Nat × Freq)) : State := buildTree (table counts)

/-- The aab table (95_test_vectors.md, Notation). -/
def aabTable : State := table [(0x61, 2#32), (0x62, 1#32)]

/-- The aab tree (95_test_vectors.md, Notation). -/
def aab : State := buildTree aabTable

/-- A state with one word at the command port. -/
def withWord (w : Word) (s : State) : State := { s with prog := [w], pos := 0 }

/-- The aab tree with a word at the command port. -/
def aabWith (w : Word) : State := buildTree (withWord w aabTable)

/-- The table of V-BLD-10: one byte, no end-of-block leaf. -/
def lone : State := table [(0x41, 5#32), (256, 0#32)]

/-- The table of V-BLD-11: two bytes, no end-of-block leaf. -/
def noEob : State := table [(0x61, 1#32), (0x62, 1#32), (256, 0#32)]

/-- The table of V-ERR-6: every count 0. -/
def emptyTable : State := table [(256, 0#32)]

/-- A state in the fatal state. -/
def dead (s : State) : State := { s with errCode := .nocode, fatal := true }

/-- A state with an open encode stream and the given bits waiting. -/
def sending (acc : BitVec 8) (accCnt : BitVec 3) (s : State) : State :=
  { s with acc := acc, accCnt := accCnt, encOpen := true }

/-- A state with an open decode stream at the root. -/
def walking (s : State) : State := { s with decState := .run, cur := s.root }

/-- A state with the decoder stopped at the end-of-block leaf. -/
def finished (s : State) : State := { s with decState := .done, cur := 256#10 }

/-- The next state of an answer. -/
def nextOf : Machine.Result → Option State
  | .next s => some s
  | .fault _ => none
  | .refused _ => none

/-- The STATUS word after a step on a command word. -/
def statusAfter (w : Word) (s : State) : Option Word := (nextOf (step (placeWord w s))).map statusWord

theorem illegal_of_error {w : Word} {e : DecodeError} (h : decode w = .error e) : ∀ i, decode w ≠ .ok i := by
  intro i hi
  rw [h] at hi
  cases hi

/-! ### Well-formedness (30_encoding.md R72, R78) -/

theorem test_ldfreq_257_is_ill_formed : (Instr.ldfreq 257#9 5#32).wellFormed = false := by decide
theorem test_ldfreq_511_is_ill_formed : (Instr.ldfreq 511#9 5#32).wellFormed = false := by decide
theorem test_ldfreq_256_is_well_formed : (Instr.ldfreq 256#9 0xFFFFFFFF#32).wellFormed = true := by decide
theorem test_enc_256_is_ill_formed : (Instr.enc 256#9).wellFormed = false := by decide
theorem test_enc_255_is_well_formed : (Instr.enc 255#9).wellFormed = true := by decide
theorem test_decByte_256_is_ill_formed : (Instr.decByte 256#9).wellFormed = false := by decide
theorem test_decByte_255_is_well_formed : (Instr.decByte 255#9).wellFormed = true := by decide

/-! ### Decoding (30_encoding.md R71, R73, R80) -/

theorem test_decode_nop : decode 0x0000000000000000#64 = .ok .nop := by decide
theorem test_decode_clear : decode 0x1000000000000000#64 = .ok .clear := by decide
/-- OP 0010, RSV 0, ARG 001100001 (97), DATA 2, bit by bit. -/
theorem test_decode_ldfreq :
    decode 0b0010000000000000000000000110000100000000000000000000000000000010#64 = .ok (.ldfreq 97#9 2#32) := by decide
theorem test_decode_ldfreq_eob : decode 0x2000010000000001#64 = .ok (.ldfreq 256#9 1#32) := by decide
theorem test_decode_build : decode 0x3000000000000000#64 = .ok .build := by decide
/-- OP 0100, RSV 0, ARG 001100001 (0x61), DATA 0, bit by bit. -/
theorem test_decode_enc :
    decode 0b0100000000000000000000000110000100000000000000000000000000000000#64 = .ok (.enc 0x61#9) := by decide
theorem test_decode_encEnd : decode 0x5000000000000000#64 = .ok .encEnd := by decide
theorem test_decode_decStart : decode 0x6000000000000000#64 = .ok .decStart := by decide
theorem test_decode_decByte : decode 0x7000002C00000000#64 = .ok (.decByte 0x2C#9) := by decide
theorem test_decode_decEnd : decode 0x8000000000000000#64 = .ok .decEnd := by decide
theorem test_decode_clrerr : decode 0x9000000000000000#64 = .ok .clrerr := by decide
theorem test_decode_reserved_opcode : decode 0xF000000000000000#64 = .error .reservedOpcode := by decide
theorem test_decode_reserved_bit : decode 0x1000020000000000#64 = .error .reservedBits := by decide
theorem test_decode_unused_field : decode 0x4000006100000001#64 = .error .unusedField := by decide
theorem test_decodeTableWord : decodeTableWord 64 0x7000002C00000000 = some (.decByte 0x2C#9) := by decide
theorem test_encode_ldfreq : encode (.ldfreq 97#9 2#32) = 0x2000006100000002#64 := by decide

/-! ### One step of each command -/

/-- The host's word is the next one the step takes, from reset. -/
theorem test_withFetchWord :
    (nextOf (step (State.reset.withFetchWord 64 0x2000006100000002))).map (fun s => (freqAt s 97, s.pos)) =
      some (2#32, 1) := by decide +kernel
/-- V-CTL-1. -/
theorem test_nop : statusAfter 0x0000000000000000#64 (sending 0b0010#8 4#3 aab) = some 0x013#64 := by decide +kernel
/-- V-CTL-2, its second word. -/
theorem test_clrerr : statusAfter 0x9000000000000000#64 { State.reset with errCode := .badarg } = some 0#64 := by
  decide +kernel
/-- V-CTL-5. -/
theorem test_clrerr_dropped : statusAfter 0x9000000000000000#64 (dead aab) = some 0x1601#64 := by decide +kernel
/-- V-FT-7. -/
theorem test_clear : (nextOf (execClear aab)).map (fun s => (freqAt s 0x61, freqAt s 256, s.treeValid)) =
    some (0#32, 1#32, false) := by decide +kernel
/-- V-ERR-7. -/
theorem test_clear_seq : statusAfter 0x1000000000000000#64 (sending 0#8 1#3 aab) = some 0x507#64 := by decide +kernel
/-- V-FT-5. -/
theorem test_ldfreq : (nextOf (execLdfreq 0#9 0xFFFFFFFF#32 State.reset)).map (fun s => (freqAt s 0, s.errCode)) =
    some (0xFFFFFFFF#32, .none) := by decide +kernel
/-- V-FT-8. -/
theorem test_ldfreq_badarg : statusAfter 0x2000010100000005#64 State.reset = some 0x200#64 := by decide +kernel
/-- V-BLD-4: a tree with ties. -/
theorem test_build_abracadabra :
    (nextOf (execBuild (table [(0x61, 5#32), (0x62, 2#32), (0x63, 1#32), (0x64, 1#32), (0x72, 2#32)]))).map
      (fun s => (s.nleaf, s.root, internalNode s 260#10, codeAt s 0x72, codeAt s 256)) =
    some (6#9, 261#10, ⟨258#10, 259#10, 7#41⟩, ⟨true, 3#9, 0b110#256⟩, ⟨true, 3#9, 0b100#256⟩) := by decide +kernel
/-- V-BLD-9: sums beyond 32 bits. -/
theorem test_build_large :
    (nextOf (execBuild (table [(0, 0xFFFFFFFF#32), (0x41, 0xFFFFFFFF#32), (256, 0xFFFFFFFF#32)]))).map
      (fun s => (internalNode s 257#10, internalNode s 258#10, codeAt s 0x41)) =
    some (⟨0#10, 0x41#10, 0x1FFFFFFFE#41⟩, ⟨256#10, 257#10, 0x2FFFFFFFD#41⟩, ⟨true, 2#9, 0b11#256⟩) := by
  decide +kernel
/-- V-ENC-7. -/
theorem test_enc : (nextOf (execEnc 0x61#9 aab)).map (fun s => (s.acc, s.accCnt, s.eout, statusWord s)) =
    some (0#8, 1#3, [], 0x007#64) := by decide +kernel
/-- V-ENC-14. -/
theorem test_enc_nocode : statusAfter 0x4000006300000000#64 aab = some 0x1601#64 := by decide +kernel
/-- V-ENC-9. -/
theorem test_encEnd : (nextOf (execEncEnd (sending 0b0010#8 4#3 aab))).map (fun s => (s.eout, s.accCnt, s.encOpen)) =
    some ([0x2C#8], 0#3, false) := by decide +kernel
/-- V-ENC-13. -/
theorem test_encEnd_nocode : statusAfter 0x5000000000000000#64 (sending 0#8 0#3 (buildTree lone)) = some 0x1603#64 := by
  decide +kernel
/-- V-DEC-1. -/
theorem test_decStart : (nextOf (execDecStart aab)).map (fun s => (s.cur, statusWord s)) = some (258#10, 0x021#64) := by
  decide +kernel
/-- V-DEC-9: the tree is the end-of-block leaf alone. -/
theorem test_decStart_done : statusAfter 0x6000000000000000#64 (built []) = some 0x041#64 := by decide +kernel
/-- V-DEC-2. -/
theorem test_decByte : (nextOf (execDecByte 0x2C#9 (walking aab))).map (fun s => (s.dout, s.doutReg, s.decState, s.cur)) =
    some ([0x61#8, 0x61#8, 0x62#8], 0x62#8, .done, 256#10) := by decide +kernel
/-- V-DEC-10. -/
theorem test_decByte_malformed : statusAfter 0x7000000000000000#64 (walking (buildTree lone)) = some 0x081#64 := by
  decide +kernel
/-- V-DEC-6. -/
theorem test_decEnd : statusAfter 0x8000000000000000#64 (walking aab) = some 0x061#64 := by decide +kernel
/-- V-DEC-15. -/
theorem test_decEnd_seq : statusAfter 0x8000000000000000#64 State.reset = some 0x500#64 := by decide +kernel
/-- V-ERR-1. -/
theorem test_illegal : statusAfter 0xA000000000000000#64 State.reset = some 0x100#64 := by decide +kernel
/-- The aab tree's readback (95_test_vectors.md 2.2): leaf 0x61, leaf 0x63, slot 258, and the code of 0x62. -/
theorem test_readback :
    memRead 0#64 aab 0x1061#16 = 0x00000000013FFFFF#64 ∧ memRead 0#64 aab 0x1063#16 = 0x00000000001FFFFF#64 ∧
    memRead 0#64 aab 0x1102#16 = 0x0000000002240461#64 ∧ memRead 0#64 aab 0x2062#16 = 0x202#64 ∧
    memRead 0#64 aab 0x3188#16 = 0x2#64 ∧ memRead 0#64 aab 0x0007#16 = 0#64 := by decide +kernel
/-- 30_encoding.md R78: decimal, hexadecimal, a quoted character, EOB, a comment; an operand out of range is refused. -/
theorem test_assembler :
    assembleLine "LDFREQ 'a', 0x2 ; count".toList = some [.ldfreq 97#9 2#32] ∧
    assembleLine "LDFREQ EOB, 1".toList = some [.ldfreq 256#9 1#32] ∧
    assembleLine "ENC 256".toList = none ∧
    assembleLine "DECSTREAM 44".toList = some [.decStart, .decByte 44#9, .decEnd] := by decide +kernel

/-! ### The counts of the tables, and the invariants of the states the witnesses use -/

theorem freqAt_reset {k : Nat} (hk : k < 257) : freqAt State.reset k = if k = 256 then 1#32 else 0#32 := by
  show (((Vector.replicate 257 0#32).set 256 1#32)[k]?).getD 0#32 = _
  rw [Vector.getElem?_set, Vector.getElem?_replicate, if_pos hk]
  split <;> split <;> first | rfl | omega

theorem emptyTable_counts {k : Nat} (hk : k < 257) : freqAt emptyTable k = 0#32 := by
  simp only [emptyTable, table, List.foldl, freqAt_setFreq _ _ _ _ hk, freqAt_reset hk]
  rcases eq_or_ne k 256 with rfl | h
  · rfl
  · rw [if_neg h.symm, if_neg h]

theorem lone_counts {k : Nat} (hk : k < 257) : freqAt lone k ≠ 0#32 ↔ k = 0x41 := by
  simp only [lone, table, List.foldl, freqAt_setFreq _ _ _ _ hk, freqAt_reset hk]
  rcases eq_or_ne k 256 with rfl | h
  · decide
  · rcases eq_or_ne k 0x41 with rfl | h'
    · decide
    · simp [h.symm, h, h'.symm, h']

theorem aabTable_counts {k : Nat} (hk : k < 257) : freqAt aabTable k ≠ 0#32 ↔ (k = 0x61 ∨ k = 0x62 ∨ k = 256) := by
  simp only [aabTable, table, List.foldl, freqAt_setFreq _ _ _ _ hk, freqAt_reset hk]
  rcases eq_or_ne k 256 with rfl | h
  · decide
  · rcases eq_or_ne k 0x61 with rfl | h1
    · decide
    · rcases eq_or_ne k 0x62 with rfl | h2
      · decide
      · simp [h1.symm, h2.symm, h, h1, h2]

theorem reset_counts {k : Nat} (hk : k < 257) : freqAt State.reset k ≠ 0#32 ↔ k = 256 := by
  rw [freqAt_reset hk]
  split <;> simp_all

theorem pair_counts (b : Nat) (c : Freq) (hc : c ≠ 0#32) (hb : b < 256) {k : Nat} (hk : k < 257) :
    freqAt (table [(b, c)]) k ≠ 0#32 ↔ (k = b ∨ k = 256) := by
  simp only [table, List.foldl, freqAt_setFreq _ _ _ _ hk, freqAt_reset hk]
  split
  · simp_all
  · split <;> simp <;> omega

theorem lone_ne : leafQueue lone ≠ [] := by decide +kernel
theorem aabTable_ne : leafQueue aabTable ≠ [] := by decide +kernel

theorem aabWith_built (w : Word) (hq : leafQueue (withWord w aabTable) ≠ []) : Built (withWord w aabTable) (aabWith w) :=
  built_buildTree hq

theorem aab_built : Built aabTable aab := built_buildTree aabTable_ne

/-- A tree just built with a decoder in RUN at its root meets the block's invariants. -/
theorem walking_invariant {s : State} (hq : leafQueue s ≠ []) (hr : RegistersConsistent (walking (buildTree s))) :
    BlockInvariant (walking (buildTree s)) :=
  ⟨hr, (built_buildTree hq).rootIsTop, (built_buildTree hq).treeIsFull,
    fun _ => (built_buildTree hq).root_inTree, by simp [walking]⟩

/-- A tree just built with a decoder in DONE meets the block's invariants. -/
theorem finished_invariant {s : State} (hq : leafQueue s ≠ []) (hr : RegistersConsistent (finished (buildTree s))) :
    BlockInvariant (finished (buildTree s)) :=
  ⟨hr, (built_buildTree hq).rootIsTop, (built_buildTree hq).treeIsFull, by simp [finished], fun _ => rfl⟩

theorem walking_codes {s : State} (hq : leafQueue s ≠ []) : CodesFollowTree (walking (buildTree s)) := by
  intro htv sym hsym
  have h := (built_buildTree hq).codesFollowTree htv sym hsym
  have hp := pathEnd_congr (s := walking (buildTree s)) (t := buildTree s) rfl
  exact ⟨h.1, fun hv => (congrArg _ (hp _ _)).trans (h.2.1 hv), h.2.2⟩

theorem exists_of_nextOf {r : Machine.Result} (h : (nextOf r).isSome = true) : ∃ t, r = .next t := by
  cases r with
  | next s => exact ⟨s, rfl⟩
  | fault f => cases h
  | refused f => cases h

/-! ### Witnesses: encoding and steps -/

theorem witness_EncodeOfDecodeIsTheWord : decode 0x200001FFFFFFFFFF#64 = .ok (.ldfreq 511#9 0xFFFFFFFF#32) := by decide

theorem witness_LegalWordsMatchTheTable :
    (0x1000020000000000#64).extractLsb' 41 19 ≠ 0#19 ∧
    ((0x3000000000000001#64).extractLsb' 60 4 ≠ 0x2#4 ∧ (0x3000000000000001#64).extractLsb' 0 32 ≠ 0#32) ∧
    ((0x0000000100000000#64).extractLsb' 60 4 ≠ 0x2#4 ∧ (0x0000000100000000#64).extractLsb' 60 4 ≠ 0x4#4 ∧
      (0x0000000100000000#64).extractLsb' 60 4 ≠ 0x7#4 ∧ (0x0000000100000000#64).extractLsb' 32 9 ≠ 0#9) ∧
    (∀ i, decode 0x1000020000000000#64 ≠ .ok i) ∧ State.reset.fatal = false :=
  ⟨by decide, by decide, by decide, illegal_of_error test_decode_reserved_bit, rfl⟩

theorem witness_ReservedOpcodesAreIllegal :
    0xA ≤ ((0xA000000000000000#64).extractLsb' 60 4).toNat ∧ 0xA ≤ ((0xF000000000000000#64).extractLsb' 60 4).toNat ∧
    State.reset.fatal = false := by decide

theorem witness_StepRunsTheDecodedCommand :
    (aabWith 0x3000000000000000#64).busy = false ∧
    (aabWith 0x3000000000000000#64).prog[(aabWith 0x3000000000000000#64).pos]? = some 0x3000000000000000#64 ∧
    decode 0x3000000000000000#64 = .ok .build := by decide +kernel

theorem witness_StepRejectsAnIllegalWord :
    (aabWith 0xF000000000000000#64).busy = false ∧
    (aabWith 0xF000000000000000#64).prog[(aabWith 0xF000000000000000#64).pos]? = some 0xF000000000000000#64 ∧
    ∀ i, decode 0xF000000000000000#64 ≠ .ok i :=
  ⟨by decide +kernel, by decide +kernel, illegal_of_error test_decode_reserved_opcode⟩

theorem witness_PositionAdvancesByOne :
    (dead (aabWith 0x9000000000000000#64)).busy = false ∧
      (dead (aabWith 0x9000000000000000#64)).prog[(dead (aabWith 0x9000000000000000#64)).pos]? =
        some 0x9000000000000000#64 ∧
      ∃ t, step (dead (aabWith 0x9000000000000000#64)) = .next t :=
  ⟨by decide +kernel, by decide +kernel, exists_of_nextOf (by decide +kernel)⟩

theorem witness_StepWithoutAWordHoldsTheState :
    State.reset.prog.length ≤ State.reset.pos ∧ { aabWith 0#64 with busy := true }.busy = true := ⟨Nat.le_refl 0, rfl⟩

/-! ### Witnesses: one command each -/

theorem witness_NopFollowsItsRule :
    (0x0000000000000001#64).extractLsb' 60 4 = 0x0#4 ∧ 0x0000000000000001#64 ≠ 0x0000000000000000#64 ∧
    State.reset.fatal = false := by decide

theorem witness_ClrerrFollowsItsRule :
    (dead aab).fatal = true ∧ aab.fatal = false ∧
    (0x9000000000000001#64).extractLsb' 60 4 = 0x9#4 ∧ 0x9000000000000001#64 ≠ 0x9000000000000000#64 := by
  decide +kernel

theorem witness_ClearFollowsItsRule :
    (dead aab).fatal = true ∧
    ((sending 0#8 1#3 aab).fatal = false ∧ (sending 0#8 1#3 aab).encOpen = true) ∧
    ((walking aab).fatal = false ∧ (walking aab).decState = .run) ∧
    ((finished aab).fatal = false ∧ (finished aab).encOpen = false ∧ (finished aab).decState ≠ .run ∧
      (finished aab).busy = false) ∧
    (0x1000020000000000#64).extractLsb' 60 4 = 0x1#4 ∧ 0x1000020000000000#64 ≠ 0x1000000000000000#64 := by
  decide +kernel

theorem witness_LdfreqFollowsItsRule :
    (dead aab).fatal = true ∧ (State.reset.fatal = false ∧ 256 < (257#9 : Arg).toNat) ∧
    ((walking aab).fatal = false ∧ (256#9 : Arg).toNat ≤ 256 ∧ (walking aab).decState = .run) ∧
    (aab.fatal = false ∧ (256#9 : Arg).toNat ≤ 256 ∧ aab.encOpen = false ∧ aab.decState ≠ .run ∧ 0 ≠ (256#9 : Arg).toNat) ∧
    (0x2000020000000000#64).extractLsb' 60 4 = 0x2#4 ∧ (0x2000020000000000#64).extractLsb' 41 19 ≠ 0#19 := by
  decide +kernel

theorem witness_BuildFollowsItsRule :
    (dead aab).fatal = true ∧ ((walking aab).fatal = false ∧ (walking aab).decState = .run) ∧
    (emptyTable.fatal = false ∧ emptyTable.encOpen = false ∧ emptyTable.decState ≠ .run ∧
      ∀ k, k < 257 → freqAt emptyTable k = 0#32) ∧
    (aabTable.fatal = false ∧ aabTable.encOpen = false ∧ aabTable.decState ≠ .run ∧ freqAt aabTable 256 ≠ 0#32 ∧
      257 + 1 ≤ 255 + aab.nleaf.toNat ∧ 255 + aab.nleaf.toNat < 257 + 2) ∧
    (0x3000000000000001#64).extractLsb' 60 4 = 0x3#4 ∧ 0x3000000000000001#64 ≠ 0x3000000000000000#64 :=
  ⟨rfl, ⟨by decide +kernel, rfl⟩, ⟨rfl, rfl, by decide, fun _ => emptyTable_counts⟩, by decide +kernel, by decide⟩

theorem buildTree_freq (s : State) : (finished (buildTree s)).freq = s.freq := by
  obtain ⟨n, r, l, c, h⟩ := buildTree_writes s
  rw [h]
  rfl

/-- The second state is one with the same counts in which BUILD has run and the decoder has stopped. -/
theorem finished_freq : aabTable.freq = (finished aab).freq := (buildTree_freq aabTable).symm

theorem witness_BuildDependsOnFreqAlone :
    aabTable.freq = (finished aab).freq ∧ aabTable.fatal = false ∧ aabTable.encOpen = false ∧ aabTable.decState ≠ .run ∧
    (finished aab).fatal = false ∧ (finished aab).encOpen = false ∧ (finished aab).decState ≠ .run ∧
    freqAt aabTable 256 ≠ 0#32 := ⟨finished_freq, by decide +kernel⟩

theorem witness_OneSymbolGivesASingleLeaf :
    lone.fatal = false ∧ lone.encOpen = false ∧ lone.decState ≠ .run ∧
    (∀ k, k < 257 → (freqAt lone k ≠ 0#32 ↔ k = 0x41)) ∧ ∀ k, k < 257 → (freqAt State.reset k ≠ 0#32 ↔ k = 256) :=
  ⟨rfl, rfl, by decide, fun _ => lone_counts, fun _ => reset_counts⟩

/-- V-BLD-3, where the end-of-block leaf is the lesser, and V-BLD-7, a tie. -/
theorem witness_TwoSymbolsGiveTwoLeaves :
    (∀ k, k < 257 → (freqAt (table [(0x41, 1000#32)]) k ≠ 0#32 ↔ (k = 0x41 ∨ k = 256))) ∧
    (table [(0x41, 1000#32)]).fatal = false ∧ (table [(0x41, 1000#32)]).encOpen = false ∧
    (table [(0x41, 1000#32)]).decState ≠ .run ∧
    ∀ k, k < 257 → (freqAt (table [(0, 1#32)]) k ≠ 0#32 ↔ (k = 0 ∨ k = 256)) :=
  ⟨fun _ => pair_counts _ _ (by decide) (by decide), rfl, rfl, by decide,
    fun _ => pair_counts _ _ (by decide) (by decide)⟩

theorem witness_PresentCodesAreAPrefixCode :
    aab.treeValid = true ∧ RootIsTop aab ∧ CodesFollowTree aab ∧ (codeAt aab 0x61).valid = true ∧
    (buildTree lone).treeValid = true ∧ RootIsTop (buildTree lone) ∧ CodesFollowTree (buildTree lone) ∧
    (codeAt (buildTree lone) 0x41).valid = true ∧ (codeAt (buildTree lone) 0x41).len = 0#9 :=
  ⟨by decide +kernel, aab_built.rootIsTop, aab_built.codesFollowTree, by decide +kernel, by decide +kernel,
    (built_buildTree lone_ne).rootIsTop, (built_buildTree lone_ne).codesFollowTree, by decide +kernel, by decide +kernel⟩

/-- The prefix code that gives 0x61 "11", 0x62 "10" and the end-of-block symbol "0". -/
theorem witness_BuiltCodesCostTheLeast :
    ∃ c : Nat → List Bool, aabTable.fatal = false ∧ aabTable.encOpen = false ∧ aabTable.decState ≠ .run ∧
      freqAt aabTable 256 ≠ 0#32 ∧
      ∀ a b, a < 257 → b < 257 → freqAt aabTable a ≠ 0#32 → freqAt aabTable b ≠ 0#32 → c a <+: c b → a = b := by
  refine ⟨fun k => if k = 0x61 then [true, true] else if k = 0x62 then [true, false] else [false], by decide +kernel,
    by decide +kernel, by decide +kernel, by decide +kernel, ?_⟩
  intro a b ha hb ha0 hb0 hab
  rw [aabTable_counts ha] at ha0
  rw [aabTable_counts hb] at hb0
  rcases ha0 with rfl | rfl | rfl <;> rcases hb0 with rfl | rfl | rfl <;> first | rfl | exact absurd hab (by decide)

theorem witness_PutBitFollowsItsRule :
    (sending 0x3F#8 6#3 aab).accCnt.toNat < 7 ∧ (sending 0x7F#8 7#3 aab).accCnt.toNat = 7 := by decide

theorem witness_EncFollowsItsRule :
    (dead aab).fatal = true ∧ (State.reset.fatal = false ∧ 255 < (256#9 : Arg).toNat) ∧
    ((255#9 : Arg).toNat ≤ 255 ∧ State.reset.treeValid = false) ∧
    (aab.fatal = false ∧ aab.treeValid = true ∧ (codeAt aab (0x63#9 : Arg).toNat).valid = false) ∧
    ((sending 0x7F#8 7#3 aab).fatal = false ∧ (0x62#9 : Arg).toNat ≤ 255 ∧ (sending 0x7F#8 7#3 aab).treeValid = true ∧
      (codeAt (sending 0x7F#8 7#3 aab) (0x62#9 : Arg).toNat).valid = true ∧
      (sending 0x7F#8 7#3 aab).acc.toNat < 2 ^ (sending 0x7F#8 7#3 aab).accCnt.toNat) ∧
    (0x4000006100000001#64).extractLsb' 60 4 = 0x4#4 ∧ (0x4000006100000001#64).extractLsb' 0 32 ≠ 0#32 := by
  decide +kernel

theorem witness_EncEndFollowsItsRule :
    (dead aab).fatal = true ∧ (State.reset.fatal = false ∧ State.reset.treeValid = false) ∧
    ((buildTree lone).fatal = false ∧ (buildTree lone).treeValid = true ∧ (codeAt (buildTree lone) 256).valid = false) ∧
    ((sending 0x3F#8 6#3 aab).fatal = false ∧ (sending 0x3F#8 6#3 aab).treeValid = true ∧
      (codeAt (sending 0x3F#8 6#3 aab) 256).valid = true ∧
      (sending 0x3F#8 6#3 aab).acc.toNat < 2 ^ (sending 0x3F#8 6#3 aab).accCnt.toNat) ∧
    (0x5000000000000001#64).extractLsb' 60 4 = 0x5#4 ∧ 0x5000000000000001#64 ≠ 0x5000000000000000#64 := by
  decide +kernel

theorem witness_EncodedBodyHasThePayloadsLength :
    aab.fatal = false ∧ aab.treeValid = true ∧ aab.accCnt = 0#3 ∧
    (∀ x ∈ [0x61#8, 0x61#8, 0x62#8], (codeAt aab x.toNat).valid = true) ∧ (codeAt aab 256).valid = true := by
  decide +kernel

theorem witness_DecStartFollowsItsRule :
    (dead aab).fatal = true ∧ (State.reset.fatal = false ∧ State.reset.treeValid = false) ∧
    ((built []).fatal = false ∧ (built []).treeValid = true ∧ (built []).root = 256#10) ∧
    (aab.fatal = false ∧ aab.treeValid = true ∧ aab.root ≠ 256#10) ∧
    (0x6000000100000000#64).extractLsb' 60 4 = 0x6#4 ∧ 0x6000000100000000#64 ≠ 0x6000000000000000#64 := by
  decide +kernel

/-- CUR at the leaf 256 and at the slots 257 and 258 of the aab tree, whose children are a byte's leaf, the end-of-block
leaf and an internal slot; and at slot 512, made to hold no children. -/
theorem witness_CursorMoveFollowsItsRule :
    ((walking (built [])).decState = .run ∧ (walking (built [])).cur.toNat = 256) ∧
    ((walking aab).decState = .run ∧ 256 < (walking aab).cur.toNat ∧ (walking aab).cur.toNat ≤ 512 ∧
      (nodeLeft (walking aab) (walking aab).cur).toNat ≤ 255 ∧ 256 < (nodeRight (walking aab) (walking aab).cur).toNat ∧
      nodeRight (walking aab) (walking aab).cur ≠ 0x3FF#10 ∧ (nodeRight (walking aab) 257#10).toNat = 256) ∧
    nodeLeft (setNode { walking aab with cur := 512#10 } 255 noSlot) 512#10 = 0x3FF#10 := by decide +kernel

theorem witness_DecByteFollowsItsRule :
    (dead aab).fatal = true ∧ (State.reset.fatal = false ∧ 255 < (256#9 : Arg).toNat) ∧
    ((255#9 : Arg).toNat ≤ 255 ∧ State.reset.decState = .idle) ∧
    ((walking aab).fatal = false ∧ (walking aab).decState ≠ .idle ∧ BlockInvariant (walking aab)) ∧
    ((finished aab).decState ≠ .idle ∧ BlockInvariant (finished aab)) ∧
    (0x7000020000000000#64).extractLsb' 60 4 = 0x7#4 ∧ (0x7000020000000000#64).extractLsb' 41 19 ≠ 0#19 :=
  ⟨by decide +kernel, by decide +kernel, by decide +kernel,
    ⟨by decide +kernel, by decide +kernel, walking_invariant aabTable_ne (by decide +kernel)⟩,
    ⟨by decide +kernel, finished_invariant aabTable_ne (by decide +kernel)⟩, by decide⟩

theorem witness_DecEndFollowsItsRule :
    (dead aab).fatal = true ∧ (State.reset.fatal = false ∧ State.reset.decState = .idle) ∧
    ((walking aab).fatal = false ∧ (walking aab).decState = .run) ∧
    ((finished aab).fatal = false ∧ (finished aab).decState = .done) ∧
    (0x8000000000000001#64).extractLsb' 60 4 = 0x8#4 ∧ 0x8000000000000001#64 ≠ 0x8000000000000000#64 := by
  decide +kernel

theorem witness_StoppedDecoderReadsNoMoreBits :
    (finished aab).decState = .done ∧ { aab with decState := .trunc }.decState = .trunc ∧
    { aab with decState := .malformed }.decState = .malformed ∧ (255#9 : Arg).toNat ≤ 255 := ⟨rfl, rfl, rfl, by decide⟩

theorem witness_WalkingACodeGivesItsSymbol :
    (walking aab).treeValid = true ∧ RootIsTop (walking aab) ∧ CodesFollowTree (walking aab) ∧
    (walking aab).decState = .run ∧ (walking aab).cur = (walking aab).root ∧ 1 < (walking aab).nleaf.toNat ∧
    (codeAt (walking aab) 0x62).valid = true ∧ (codeAt (walking aab) 256).valid = true :=
  ⟨by decide +kernel, (walking_invariant aabTable_ne (by decide +kernel)).2.1, walking_codes aabTable_ne, rfl, rfl, by decide +kernel, by decide +kernel,
    by decide +kernel⟩

theorem witness_DecodingAnEncodedStreamGivesTheInput :
    (aabTable.fatal = false ∧ aabTable.encOpen = false ∧ aabTable.decState ≠ .run ∧ aabTable.accCnt = 0#3 ∧
      freqAt aabTable 256 ≠ 0#32 ∧ (∀ x ∈ [0x61#8, 0x61#8, 0x62#8], freqAt aabTable x.toNat ≠ 0#32) ∧
      (finished aab).fatal = false ∧ (finished aab).encOpen = false ∧ (finished aab).decState ≠ .run) ∧
    (finished aab).freq = aabTable.freq := ⟨by decide +kernel, finished_freq.symm⟩

/-- The state has a DEC_BYTE at the port, the step V-DEC-11 takes. -/
theorem witness_WithoutEobLeafNoStreamEndsNormally :
    ∃ s, s = walking (buildTree (withWord 0x7000005500000000#64 noEob)) ∧ s.treeValid = true ∧ freqAt s 256 = 0#32 ∧
      BlockInvariant s ∧ CodesFollowTree s ∧ s.fatal = false ∧ s.decState ≠ .done ∧ ∃ t, step s = .next t :=
  ⟨_, rfl, by decide +kernel, by decide +kernel, walking_invariant (by decide +kernel) (by decide +kernel),
    walking_codes (by decide +kernel), by decide +kernel, by decide +kernel, exists_of_nextOf (by decide +kernel)⟩

/-! ### Witnesses: errors and whole-block rules -/

theorem witness_FatalStateDropsEveryWord :
    (dead (aabWith 0x1000000000000000#64)).fatal = true ∧ (dead (aabWith 0x1000000000000000#64)).busy = false ∧
    (dead (aabWith 0x1000000000000000#64)).prog[(dead (aabWith 0x1000000000000000#64)).pos]? =
      some 0x1000000000000000#64 := by decide +kernel

theorem witness_ErrorsRecordOnlyTheirCode : ErrCode.illegal ≠ .nocode ∧ ErrCode.none ≠ .nocode := by decide

/-- ENC of a symbol without a code, the step that sets FATAL. -/
theorem witness_ErrorStateChangesOnlyByRule :
    (aabWith 0x4000006300000000#64).busy = false ∧
    (aabWith 0x4000006300000000#64).prog[(aabWith 0x4000006300000000#64).pos]? = some 0x4000006300000000#64 ∧
    (aabWith 0x4000006300000000#64).fatal = false ∧
    (nextOf (step (aabWith 0x4000006300000000#64))).map (·.fatal) = some true := by decide +kernel

theorem witness_TablesChangeOnlyByTheirCommands :
    (aabWith 0x2000006100000009#64).busy = false ∧
    (aabWith 0x2000006100000009#64).prog[(aabWith 0x2000006100000009#64).pos]? = some 0x2000006100000009#64 ∧
    (nextOf (step (aabWith 0x2000006100000009#64))).map (fun t => (freqAt t 0x61, t.treeValid)) = some (9#32, false) := by
  decide +kernel

theorem witness_OpenStreamLocksTheTables :
    (sending 0#8 1#3 aab).encOpen = true ∧ (walking (aabWith 0x3000000000000000#64)).decState = .run ∧
      (walking (aabWith 0x3000000000000000#64)).fatal = false ∧
      ∃ t, step (walking (aabWith 0x3000000000000000#64)) = .next t :=
  ⟨rfl, rfl, by decide +kernel, exists_of_nextOf (by decide +kernel)⟩

theorem witness_ChannelsAreOnlyAppendedTo :
    (nextOf (step (sending 0x7F#8 7#3 (aabWith 0x4000006200000000#64)))).map (·.eout) = some [0xFF#8] := by
  decide +kernel

/-- A state differs from itself with another last slot only outside a tree of fewer than 257 leaves. -/
theorem same_last_slot {s : State} (hl : s.nleaf.toNat < 257) (n : Node) : SameButUnspecified s (setNode s 255 n) := by
  refine ⟨rfl, ?_, fun _ => rfl⟩
  intro m hm hin
  have h : m ≠ 255 := by
    rintro rfl
    simp only [inTree, Config.nsym, Bool.and_eq_true, if_neg (show ¬ 257 + 255 < 257 by omega),
      decide_eq_true_eq] at hin
    omega
  simp only [setNode, entry_setIfInBounds _ _ _ _ _ (show m < 256 from hm), if_neg (Ne.symm h)]

theorem witness_UnspecifiedTablesAreNeverSeen :
    ∃ s, s = walking (aabWith 0x7000002C00000000#64) ∧ SameButUnspecified s (setNode s 255 noSlot) ∧ BlockInvariant s ∧
      ∃ t, step s = .next t :=
  ⟨_, rfl, same_last_slot (by decide +kernel) noSlot, walking_invariant (by decide +kernel) (by decide +kernel),
    exists_of_nextOf (by decide +kernel)⟩

/-! ### Witnesses: invariants, reset and the host interface -/

theorem witness_StepKeepsTheRegisterInvariants :
    ∃ s, s = sending 0x7F#8 7#3 (aabWith 0x5000000000000000#64) ∧ RegistersConsistent s ∧ ∃ t, step s = .next t :=
  ⟨_, rfl, by decide +kernel, exists_of_nextOf (by decide +kernel)⟩

/-- BUILD at the port of a built tree. -/
theorem witness_StepKeepsTheTreeFull :
    ∃ s, s = aabWith 0x3000000000000000#64 ∧ RootIsTop s ∧ TreeIsFull s ∧ OneParent s ∧ CountsAreSums s ∧
      s.treeValid = true ∧ ∃ t, step s = .next t :=
  have h := aabWith_built 0x3000000000000000#64 (by decide +kernel)
  ⟨_, rfl, h.rootIsTop, h.treeIsFull, h.oneParent, h.countsAreSums, by decide +kernel, exists_of_nextOf (by decide +kernel)⟩

theorem witness_StepKeepsCodesOnTheTree :
    ∃ s, s = aabWith 0x3000000000000000#64 ∧ CodesFollowTree s ∧ CodesAreShort s ∧ s.treeValid = true ∧
      ∃ t, step s = .next t :=
  have h := aabWith_built 0x3000000000000000#64 (by decide +kernel)
  ⟨_, rfl, h.codesFollowTree, h.codesAreShort, by decide +kernel, exists_of_nextOf (by decide +kernel)⟩

theorem witness_StepKeepsTheTreeBuiltFromFreq :
    ∃ s, s = aabWith 0x4000006100000000#64 ∧ TreeIsBuilt s ∧ s.treeValid = true ∧ ∃ t, step s = .next t :=
  ⟨_, rfl, fun _ => ⟨by decide +kernel, buildTree_idempotent (by decide +kernel)⟩, by decide +kernel,
    exists_of_nextOf (by decide +kernel)⟩

theorem witness_StepAnswersAndKeepsTheBlockInvariant :
    BlockInvariant (walking aab) ∧ BlockInvariant (finished aab) :=
  ⟨walking_invariant aabTable_ne (by decide +kernel), finished_invariant aabTable_ne (by decide +kernel)⟩

/-- Addresses at the ends of the map's ranges, over a built tree. -/
theorem witness_ReadbackFollowsTheMap :
    aab.busy = false ∧ aab.treeValid = true ∧ 257 + 0 ≤ 255 + aab.nleaf.toNat ∧ 257 + 1 ≤ 255 + aab.nleaf.toNat ∧
    freqAt aab 256 ≠ 0#32 ∧ memRead 0#64 aab 0x0007#16 = 0#64 ∧ memRead 0#64 aab 0x0200#16 = 1#64 ∧
    memRead 0#64 aab 0x0201#16 = 0#64 ∧ memRead 0#64 aab 0x2101#16 = 0#64 ∧ memRead 0#64 aab 0x3404#16 = 0#64 := by
  decide +kernel

theorem witness_OnlyTheAnyValueCasesAreFree :
    readsAnyValue aab 0x1102#16 = false ∧ (0x2000#16 ≠ 0#16 ∧ { aab with busy := true }.busy = true) ∧
    (State.reset.busy = false ∧ State.reset.treeValid = false ∧ 0x2000 ≤ (0x2100#16).toNat ∧ (0x2100#16).toNat ≤ 0x2100 ∧
      0x3000 ≤ (0x3403#16).toNat ∧ (0x3403#16).toNat ≤ 0x3403) ∧
    (0x1101 ≤ (0x1103#16).toNat ∧ (0x1103#16).toNat ≤ 0x1200 ∧ inTree aab ((0x1103#16).toNat - 0x1000) = false) := by
  decide +kernel

theorem witness_ReadbackHasNoSideEffect : readsAnyValue aab 0x0000#16 = false ∧ readsAnyValue aab 0x1200#16 = true := by
  decide +kernel

/-- A step from a state in which the host has read; and the read of an any-value word before and after a reset. -/
theorem witness_EveryReadTakesAFreshDraw :
    (nextOf (step { aabWith 0x4000006100000000#64 with draws := 5 })).map (·.draws) = some 5 ∧
    readsAnyValue State.reset 0x2000#16 = true ∧
    (assertReset (readPort 0x2000#16 State.reset).2).draws = 1 := by decide +kernel

theorem witness_HostMovesFollowTheirRows :
    aab.busy = false ∧ aab.pos = aab.prog.length ∧ { aab with eout := [0x2C#8] }.eout = 0x2C#8 :: [] ∧
    { aab with dout := [0x61#8, 0x62#8] }.dout = 0x61#8 :: [0x62#8] := ⟨by decide +kernel, by decide +kernel, rfl, rfl⟩

theorem witness_PseudoCommandsExpandAsWritten : (256 : Nat) < 257 := by decide

theorem witness_AssembledCodeNeverRaisesBadarg :
    (∃ is, assembleLine "LDFREQ 256, 4294967295".toList = some is) ∧
    (Instr.enc 255#9).wellFormed = true ∧
    (nextOf (exec (.enc 255#9) { State.reset with errCode := .badarg })).map (·.errCode) = some .badarg :=
  ⟨⟨[.ldfreq 256#9 0xFFFFFFFF#32], by decide +kernel⟩, by decide, by decide +kernel⟩

end Sys2Proof.Tests
end

section
/-! SUPPORT. What one step can leave, case by case, and what makes a command's checks pass. -/

namespace Sys2Proof.Machine

/-- How a word that the step takes ends: dropped while FATAL, rejected as illegal, rejected by the first failing check of
its command, or performed (60_exceptions.md R184, 30_encoding.md R74). -/
inductive WordOutcome (w : Word) (s : State) : State → Prop
  | dropped (hf : s.fatal = true) : WordOutcome w s s
  | illegal (hf : s.fatal = false) (hd : ∀ i, decode w ≠ .ok i) : WordOutcome w s (raiseErr .illegal s)
  | rejected {i : Instr} {e : ErrCode} (hf : s.fatal = false) (hd : decode w = .ok i)
      (hc : firstFailing (checksOf i s) = some e) : WordOutcome w s (raiseErr e s)
  | performed {i : Instr} {u : State} (hf : s.fatal = false) (hd : decode w = .ok i)
      (hc : firstFailing (checksOf i s) = none) (he : effectOf i s = .next u) : WordOutcome w s u

theorem decode_ne_ok {w : Word} {e : DecodeError} (h : decode w = .error e) (i : Instr) : decode w ≠ .ok i := by
  rw [h]
  nofun

theorem performWord_of_decode {w : Word} {i : Instr} (h : decode w = .ok i) (s : State) :
    performWord w s = exec i s := by
  unfold performWord
  rw [h]

theorem performWord_of_illegal {w : Word} (h : ∀ i, decode w ≠ .ok i) (s : State) :
    performWord w s = rejectIllegal s := by
  unfold performWord
  cases hd : decode w with
  | ok i => exact absurd hd (h i)
  | error e => rfl

theorem performWord_next_iff {w : Word} {s u : State} : performWord w s = .next u ↔ WordOutcome w s u := by
  constructor
  · intro h
    obtain ⟨i, hd, he⟩ | ⟨e, hd, he⟩ := performWord_cases h
    · obtain ⟨hf, rfl⟩ | ⟨hf, e, hc, rfl⟩ | ⟨hf, hc, he⟩ := exec_cases he
      · exact .dropped hf
      · exact .rejected hf hd hc
      · exact .performed hf hd hc he
    · obtain ⟨hf, hu⟩ | ⟨hf, e', hc, hu⟩ | ⟨-, hc, -⟩ := checked_cases he
      · cases hu; exact .dropped hf
      · cases hc; cases hu; exact .illegal hf (decode_ne_ok hd)
      · cases hc
  · rintro (hf | ⟨hf, hd⟩ | ⟨hf, hd, hc⟩ | ⟨hf, hd, hc, he⟩)
    · unfold performWord
      split
      · exact exec_dropped _ hf
      · exact checked_dropped _ _ hf
    · rw [performWord_of_illegal hd]; exact checked_raises _ hf rfl
    · rw [performWord_of_decode hd]; exact exec_rejected hf hc
    · rw [performWord_of_decode hd, exec_performed hf hc, he]

/-- A step with a word at the port performs it and advances the position (10_state.md R20, R21). -/
theorem step_eq_of_word {s : State} {w : Word} (hb : s.busy = false) (hw : s.prog[s.pos]? = some w) :
    step s = afterCommand (performWord w s) := by
  simp [step, nextWord, hb, hw]

theorem step_outcome {s t : State} {w : Word} (hb : s.busy = false) (hw : s.prog[s.pos]? = some w)
    (h : step s = .next t) : ∃ u, WordOutcome w s u ∧ t = advance u := by
  obtain ⟨u, hp, rfl⟩ := step_word hb hw h
  exact ⟨u, performWord_next_iff.1 hp, rfl⟩

/-- A property that survives the advance of the position, a raised error and each command's effect is kept by every
step. -/
theorem step_keeps {P : State → Prop} (hadvance : ∀ s, P s → P (advance s))
    (hraise : ∀ e s, s.fatal = false → P s → P (raiseErr e s))
    (heffect : ∀ i s t, s.fatal = false → firstFailing (checksOf i s) = none → P s → effectOf i s = .next t → P t)
    {s t : State} (hs : P s) (h : step s = .next t) : P t := by
  obtain rfl | ⟨w, hb, hw⟩ := step_idle_or h
  · exact hs
  obtain ⟨u, ho, rfl⟩ := step_outcome hb hw h
  apply hadvance
  cases ho with
  | dropped => exact hs
  | illegal hf => exact hraise _ _ hf hs
  | rejected hf => exact hraise _ _ hf hs
  | performed hf _ hc he => exact heffect _ _ _ hf hc hs he

/-! ### Raised errors -/

theorem raiseErr_fatal (e : ErrCode) (s : State) : (raiseErr e s).fatal = (errIsFatal e || s.fatal) := by
  cases e <;> simp [raiseErr, errIsFatal]

theorem raiseErr_errCode_of_nonfatal {e : ErrCode} (s : State) (h : e ≠ .nocode) :
    (raiseErr e s).errCode = if s.errCode = .none then e else s.errCode := by
  rw [raiseErr_nonfatal s h, raiseError_errCode]

theorem errIsFatal_iff {e : ErrCode} : errIsFatal e = true ↔ e = .nocode := by
  cases e <;> simp [errIsFatal]

/-! ### What passed checks say -/

theorem streamOpen_eq_false {s : State} : streamOpen s = false ↔ s.encOpen = false ∧ s.decState ≠ .run := by
  simp [streamOpen]

/-- The commands that write FREQ, the tree or the code table (10_state.md R24, R27 to R30, R33). -/
def writesTables : Instr → Bool
  | .clear | .ldfreq _ _ | .build => true
  | .nop | .enc _ | .encEnd | .decStart | .decByte _ | .decEnd | .clrerr => false

/-- The table commands run only with no stream open (70_reset_and_hazards.md R206). -/
theorem closed_of_checks {i : Instr} {s : State} (hi : writesTables i = true)
    (hc : firstFailing (checksOf i s) = none) : s.encOpen = false ∧ s.decState ≠ .run := by
  have hall := firstFailing_none hc
  rw [← streamOpen_eq_false]
  cases i with
  | clear => exact hall (streamOpen s, .seq) (by simp [checksOf])
  | ldfreq sym count => exact hall (streamOpen s, .seq) (by simp [checksOf])
  | build => exact hall (streamOpen s, .seq) (by simp [checksOf])
  | nop | enc _ | encEnd | decStart | decByte _ | decEnd | clrerr => cases hi

theorem leafQueue_ne_nil_of_checks {s : State} (hc : firstFailing (checksOf .build s) = none) : leafQueue s ≠ [] := by
  have := firstFailing_none hc ((leafQueue s).isEmpty, .empty) (by simp [checksOf])
  simpa using this

/-- ENC, ENC_END and DEC_START run only with a valid tree. -/
theorem treeValid_of_checks {i : Instr} {s : State} (hi : (∃ arg, i = .enc arg) ∨ i = .encEnd ∨ i = .decStart)
    (hc : firstFailing (checksOf i s) = none) : s.treeValid = true := by
  have h : (!s.treeValid) = false := by
    apply firstFailing_none hc (!s.treeValid, .notree)
    obtain ⟨arg, rfl⟩ | rfl | rfl := hi <;> simp [checksOf]
  simpa using h

/-- NOCODE is raised by ENC and ENC_END alone, of a symbol without a code (42_encoder.md R130, R134). -/
theorem nocode_of_checks {i : Instr} {s : State} (h : firstFailing (checksOf i s) = some .nocode) :
    s.treeValid = true ∧ ((∃ arg, i = .enc arg ∧ (codeAt s arg.toNat).valid = false) ∨
      (i = .encEnd ∧ (codeAt s Config.eob).valid = false)) := by
  cases i with
  | nop | clrerr => cases h
  | clear | ldfreq _ _ | build | decStart | decByte _ | decEnd =>
    simp only [checksOf, firstFailing] at h
    split_ifs at h <;> cases h
  | enc arg =>
    simp only [checksOf, firstFailing] at h
    split_ifs at h with h1 h2 h3
    · cases h
    · cases h
    · exact ⟨by simpa using h2, .inl ⟨arg, rfl, by simpa using h3⟩⟩
  | encEnd =>
    simp only [checksOf, firstFailing] at h
    split_ifs at h with h2 h3
    · cases h
    · exact ⟨by simpa using h2, .inr ⟨rfl, by simpa using h3⟩⟩

end Sys2Proof.Machine
end

section
/-! SUPPORT. The tables of the block: which commands leave them, and the invariants that read them alone. -/

namespace Sys2Proof.Machine

/-- FREQ, the tree and the code table are the same (10_state.md R24, R27 to R30, R33). -/
structure SameTables (s t : State) : Prop where
  freq : t.freq = s.freq
  nodes : t.nodes = s.nodes
  root : t.root = s.root
  nleaf : t.nleaf = s.nleaf
  code : t.code = s.code
  treeValid : t.treeValid = s.treeValid

/-- The tables alone, in a state that holds the reset values elsewhere. -/
def tablesOf (s : State) : State :=
  { State.reset with
    freq := s.freq, nodes := s.nodes, root := s.root, nleaf := s.nleaf, code := s.code, treeValid := s.treeValid }

theorem SameTables.tablesOf_eq {s t : State} (h : SameTables s t) : tablesOf t = tablesOf s := by
  simp [tablesOf, h.freq, h.nodes, h.root, h.nleaf, h.code, h.treeValid]

theorem SameTables.inTree_eq {s t : State} (h : SameTables s t) (i : Nat) : inTree t i = inTree s i :=
  show inTree (tablesOf t) i = inTree (tablesOf s) i by rw [h.tablesOf_eq]

theorem raiseErr_sameTables (e : ErrCode) (s : State) : SameTables s (raiseErr e s) := by
  constructor <;> simp

/-- Every effect but those of CLEAR, LDFREQ and BUILD leaves the tables. -/
theorem effectOf_sameTables {i : Instr} {s t : State} (hi : writesTables i = false) (h : effectOf i s = .next t) :
    SameTables s t := by
  cases i with
  | clear | ldfreq _ _ | build => cases hi
  | nop | decStart | clrerr => cases h; constructor <;> rfl
  | enc arg => cases h; rw [writeCode_frame]; constructor <;> rfl
  | encEnd => cases h; rw [closeStream_frame, writeCode_frame]; constructor <;> rfl
  | decByte arg =>
    obtain ⟨c, d, new, rfl⟩ := walkBits_writes (s := s) (t := t) h
    constructor <;> rfl
  | decEnd => cases h; split <;> constructor <;> rfl

/-- An invariant that reads the tables alone, says nothing while TREE_VALID = 0, and holds of what BUILD leaves. -/
structure TableInvariant (P : State → Prop) : Prop where
  congr : ∀ {s t}, SameTables s t → P s → P t
  invalid : ∀ {s}, s.treeValid = false → P s
  build : ∀ {s}, leafQueue s ≠ [] → P (buildTree s)

/-- Every step keeps such an invariant. -/
theorem TableInvariant.step {P : State → Prop} (hP : TableInvariant P) {s t : State} (hs : P s)
    (h : step s = .next t) : P t := by
  obtain hv | ⟨h1, h2, h3, h4, h5, h6⟩ | ⟨hq, rfl, -, -⟩ := step_tables h
  · exact hP.invalid hv
  · exact hP.congr ⟨h1, h2, h3, h4, h5, h6⟩ hs
  · exact hP.congr (s := buildTree s) (by constructor <;> rfl) (hP.build hq)

/-- A predicate guarded by TREE_VALID that is the same of a state and of its tables is a table invariant once BUILD
establishes it. -/
theorem TableInvariant.of_tablesOf {P : State → Prop} (htables : ∀ s, P (tablesOf s) ↔ P s)
    (hinvalid : ∀ s, s.treeValid ≠ true → P s) (hbuilt : ∀ {s t}, Built s t → P t) : TableInvariant P where
  congr h hs := by rwa [← htables, h.tablesOf_eq, htables]
  invalid hv := hinvalid _ (by simp [hv])
  build hq := hbuilt (built_buildTree hq)

theorem rootIsTop_tableInvariant : TableInvariant RootIsTop :=
  .of_tablesOf (fun _ => Iff.rfl) (fun _ hv htv => absurd htv hv) Built.rootIsTop

theorem treeIsFull_tableInvariant : TableInvariant TreeIsFull :=
  .of_tablesOf (fun _ => Iff.rfl) (fun _ hv htv => absurd htv hv) Built.treeIsFull

theorem oneParent_tableInvariant : TableInvariant OneParent :=
  .of_tablesOf (fun _ => Iff.rfl) (fun _ hv htv => absurd htv hv) Built.oneParent

theorem countsAreSums_tableInvariant : TableInvariant CountsAreSums :=
  .of_tablesOf (fun _ => Iff.rfl) (fun _ hv htv => absurd htv hv) Built.countsAreSums

theorem codesFollowTree_tableInvariant : TableInvariant CodesFollowTree :=
  .of_tablesOf
    (fun s => by
      have hp := pathEnd_congr (s := tablesOf s) (t := s) rfl
      unfold CodesFollowTree
      simp only [hp]
      exact Iff.rfl)
    (fun _ hv htv => absurd htv hv) Built.codesFollowTree

theorem codesAreShort_tableInvariant : TableInvariant CodesAreShort :=
  .of_tablesOf (fun _ => Iff.rfl) (fun _ hv htv => absurd htv hv) Built.codesAreShort

/-! ### Building again -/

/-- The code table that BUILD leaves is a function of FREQ alone (41_tree_builder.md R119). -/
theorem buildTree_code_congr {s t : State} (hfreq : s.freq = t.freq) (hq : leafQueue s ≠ []) :
    (buildTree s).code = (buildTree t).code := by
  have hb := built_buildTree hq
  have hb' : Built t (buildTree t) := built_buildTree (by rwa [← leafQueue_congr hfreq])
  obtain ⟨hroot, -, hslots⟩ := buildTree_congr hfreq hq
  rw [hb.code, hb'.code, genCodes, genCodes, ← hroot]
  refine visit_congr_on (fun i => inTree (buildTree s) i.toNat = true) ?_ _ _ hb.root_inTree _ _ _
  intro i hin hl
  have h257 : 257 ≤ i.toNat := by rw [Bool.eq_false_iff, ne_eq, isLeaf_iff] at hl; omega
  obtain ⟨m, hm, hidx, -⟩ := hb.internal h257 hin
  have hnode : internalNode (buildTree s) i = internalNode (buildTree t) i := by
    rw [internalNode_eq, internalNode_eq]
    exact hslots _ (by rw [hb.merges]; omega)
  refine ⟨by simp [nodeLeft, hl, hnode], by simp [nodeRight, hl, hnode], ?_, ?_⟩
  · exact (hb.child_inTree h257 hin false).1
  · exact (hb.child_inTree h257 hin true).1

/-- Building changes nothing where the tables are already those that BUILD computes from the same FREQ. -/
theorem buildTree_eq_self {s t : State} (h : SameTables (buildTree s) t) (hfreq : t.freq = s.freq)
    (hq : leafQueue s ≠ []) : buildTree t = t := by
  have hq' : leafQueue t ≠ [] := by rwa [leafQueue_congr hfreq]
  have hb := built_buildTree hq'
  obtain ⟨hroot, hnleaf, hslots⟩ := buildTree_congr hfreq hq'
  have hslot : ∀ m, slotAt t m = slotAt (buildTree s) m := fun m => by rw [slotAt, slotAt, h.nodes]
  have hnodes : (buildTree t).nodes = t.nodes := by
    apply nodes_ext
    intro m _
    by_cases hlt : m < (leafQueue t).length - 1
    · rw [hslots m hlt, hslot]
    · exact hb.slot_eq (by rw [hb.nleaf]; omega)
  have hvalid : true = t.treeValid := by rw [h.treeValid, (built_buildTree hq).frame]
  rw [hb.frame, hnodes, hroot, hnleaf, buildTree_code_congr hfreq hq', ← h.root, ← h.nleaf, ← h.code, hvalid]

theorem treeIsBuilt_tableInvariant : TableInvariant TreeIsBuilt where
  congr {s t} h hs htv := by
    obtain ⟨hq, hb⟩ := hs (h.treeValid ▸ htv)
    exact ⟨by rwa [leafQueue_congr h.freq], buildTree_eq_self (by rw [hb]; exact h) h.freq hq⟩
  invalid hv htv := by rw [hv] at htv; cases htv
  build {s} hq _ := by
    have hfreq : (buildTree s).freq = s.freq := by rw [(built_buildTree hq).frame]
    exact ⟨by rwa [leafQueue_congr hfreq], buildTree_idempotent hq⟩

end Sys2Proof.Machine
end

section
/-! SUPPORT. Every step keeps the invariants over the registers (10_state.md R46). -/

namespace Sys2Proof.Machine

theorem raiseErr_keeps_registers (e : ErrCode) {s : State} (hf : s.fatal = false) (hs : RegistersConsistent s) :
    RegistersConsistent (raiseErr e s) := by
  obtain ⟨hrun, hopen, -, hcnt, hacc, hbusy⟩ := hs
  refine ⟨by simpa using hrun, by simpa using hopen, fun h => ?_, by simpa using hcnt, by simpa using hacc,
    by simpa using hbusy⟩
  have he : e = .nocode := by simpa [raiseErr_fatal, hf, errIsFatal_iff] using h
  rw [he, raiseErr_nocode, raiseFatal_errCode]

/-- The table commands leave ACC and both streams, which are closed. -/
theorem registers_of_closed {s t : State} (hs : RegistersConsistent s) (hclosed : s.encOpen = false ∧ s.decState ≠ .run)
    (hf : t.fatal = false) (hbusy : t.busy = s.busy) (hdec : t.decState = s.decState) (hopen : t.encOpen = s.encOpen)
    (hacc : t.acc = s.acc) (hcnt : t.accCnt = s.accCnt) : RegistersConsistent t := by
  obtain ⟨-, -, -, hcnt', hacc', hbusy'⟩ := hs
  refine ⟨fun h => absurd (hdec ▸ h) hclosed.2, fun h => ?_, fun h => ?_, fun _ => hcnt ▸ hcnt' hclosed.1, ?_,
    hbusy ▸ hbusy'⟩
  · rw [hopen, hclosed.1] at h; cases h
  · rw [hf] at h; cases h
  · rw [hacc, hcnt]; exact hacc'

theorem effectOf_keeps_registers {i : Instr} {s t : State} (hf : s.fatal = false)
    (hc : firstFailing (checksOf i s) = none) (hs : RegistersConsistent s) (h : effectOf i s = .next t) :
    RegistersConsistent t := by
  obtain ⟨hrun, hopen, hfatal, hcnt, hacc, hbusy⟩ := id hs
  cases i with
  | nop => cases h; exact hs
  | clear => cases h; exact registers_of_closed hs (closed_of_checks rfl hc) hf rfl rfl rfl rfl rfl
  | ldfreq sym count => cases h; exact registers_of_closed hs (closed_of_checks rfl hc) hf rfl rfl rfl rfl rfl
  | build =>
    cases h
    obtain ⟨n, r, l, c, hb⟩ := buildTree_writes s
    rw [hb]
    exact registers_of_closed hs (closed_of_checks rfl hc) hf rfl rfl rfl rfl rfl
  | enc arg =>
    cases h
    have hbound := accBound_putBits (codeBits (codeAt s arg.toNat)) s hacc
    rw [writeCode_frame]
    exact ⟨hrun, fun _ => treeValid_of_checks (.inl ⟨arg, rfl⟩) hc, hfatal, nofun, hbound, hbusy⟩
  | encEnd =>
    cases h
    have hbound := acc_closeStream (writeCode Config.eob s) (accBound_putBits _ s hacc)
    rw [closeStream_frame, accCnt_closeStream, hbound, writeCode_frame]
    exact ⟨hrun, nofun, hfatal, fun _ => rfl, show (0#8).toNat < 2 ^ (0#3).toNat by decide, hbusy⟩
  | decStart =>
    cases h
    exact ⟨fun _ => treeValid_of_checks (.inr (.inr rfl)) hc, hopen, hfatal, hcnt, hacc, hbusy⟩
  | decByte arg =>
    have hw : walkBits (byteBits (argByte arg)) s = .next t := h
    by_cases hr : s.decState = .run
    · obtain ⟨c, d, new, rfl⟩ := walkBits_writes hw
      exact ⟨fun _ => hrun hr, hopen, hfatal, hcnt, hacc, hbusy⟩
    · rw [walkBits_stopped _ hr] at hw
      cases hw
      exact hs
  | decEnd =>
    cases h
    split
    · exact ⟨nofun, hopen, hfatal, hcnt, hacc, hbusy⟩
    · exact hs
  | clrerr => cases h; exact ⟨hrun, hopen, fun h => absurd (hf.symm.trans h) (by decide), hcnt, hacc, hbusy⟩

theorem step_keeps_registers {s t : State} (hs : RegistersConsistent s) (h : step s = .next t) :
    RegistersConsistent t :=
  step_keeps (fun _ hs => hs) raiseErr_keeps_registers (fun _ _ _ => effectOf_keeps_registers) hs h

/-! ### The cursor -/

/-- The cursor's invariant reads the tables, CUR and DEC_STATE alone. -/
theorem CursorInTree.congr {s t : State} (hs : CursorInTree s) (htab : SameTables s t) (hcur : t.cur = s.cur)
    (hdec : t.decState = s.decState) : CursorInTree t := by
  obtain ⟨hrun, hdone⟩ := hs
  unfold CursorInTree
  rw [htab.inTree_eq, hcur, hdec]
  exact ⟨hrun, hdone⟩

theorem BlockInvariant.cursorInTree {s : State} (hs : BlockInvariant s) : CursorInTree s := by
  obtain ⟨-, -, -, hcur⟩ := hs
  exact hcur

/-- With no walk, the tables are free to change. -/
theorem CursorInTree.of_not_run {s t : State} (hs : CursorInTree s) (hr : s.decState ≠ .run) (hcur : t.cur = s.cur)
    (hdec : t.decState = s.decState) : CursorInTree t :=
  ⟨fun h => absurd (hdec ▸ h) hr, fun h => hcur ▸ hs.2 (hdec ▸ h)⟩

/-- A command whose checks pass answers a next state with the cursor in the tree (10_state.md R38). -/
theorem effectOf_keeps_cursor {i : Instr} {s : State} (hs : BlockInvariant s)
    (hc : firstFailing (checksOf i s) = none) : ∃ t, effectOf i s = .next t ∧ CursorInTree t := by
  obtain ⟨-, htop, -, hcur⟩ := id hs
  cases i with
  | nop => exact ⟨_, rfl, hcur⟩
  | clear => exact ⟨_, rfl, hcur.of_not_run (closed_of_checks rfl hc).2 rfl rfl⟩
  | ldfreq sym count => exact ⟨_, rfl, hcur.of_not_run (closed_of_checks rfl hc).2 rfl rfl⟩
  | build =>
    refine ⟨_, rfl, ?_⟩
    obtain ⟨n, r, l, c, hb⟩ := buildTree_writes s
    rw [hb]
    exact hcur.of_not_run (closed_of_checks rfl hc).2 rfl rfl
  | enc arg =>
    exact ⟨_, rfl, hcur.congr (effectOf_sameTables (i := .enc arg) rfl rfl) (by rw [writeCode_frame])
      (by rw [writeCode_frame])⟩
  | encEnd =>
    exact ⟨_, rfl, hcur.congr (effectOf_sameTables (i := .encEnd) rfl rfl) (by rw [closeStream_frame, writeCode_frame])
      (by rw [closeStream_frame, writeCode_frame])⟩
  | decStart =>
    obtain ⟨-, -, hroot, -⟩ := htop (treeValid_of_checks (.inr (.inr rfl)) hc)
    refine ⟨_, rfl, fun _ => hroot, fun h => ?_⟩
    by_contra hne
    exact absurd ((if_neg hne).symm.trans h) (by decide)
  | decByte arg =>
    obtain ⟨t, ht, -, -, -, hcur'⟩ := walkBits_keeps (byteBits (argByte arg)) hs
    exact ⟨t, ht, hcur'⟩
  | decEnd =>
    refine ⟨_, rfl, ?_⟩
    split
    · exact ⟨nofun, nofun⟩
    · exact hcur
  | clrerr => exact ⟨_, rfl, hcur⟩

/-- Every word is answered, with the cursor in the tree. -/
theorem wordOutcome_exists (w : Word) {s : State} (hs : BlockInvariant s) : ∃ u, WordOutcome w s u ∧ CursorInTree u := by
  have hraise : ∀ e, CursorInTree (raiseErr e s) := fun e =>
    hs.cursorInTree.congr (raiseErr_sameTables e s) (raiseErr_cur s e) (raiseErr_decState s e)
  cases hf : s.fatal with
  | true => exact ⟨s, .dropped hf, hs.cursorInTree⟩
  | false =>
    cases hd : decode w with
    | error e => exact ⟨_, .illegal hf (decode_ne_ok hd), hraise _⟩
    | ok i =>
      cases hc : firstFailing (checksOf i s) with
      | some e => exact ⟨_, .rejected hf hd hc, hraise _⟩
      | none =>
        obtain ⟨u, he, hcur⟩ := effectOf_keeps_cursor hs hc
        exact ⟨u, .performed hf hd hc he, hcur⟩

theorem step_answers {s : State} (hs : BlockInvariant s) : ∃ t, step s = .next t ∧ CursorInTree t := by
  cases hn : nextWord s with
  | none => exact ⟨s, by simp [step, hn], hs.cursorInTree⟩
  | some w =>
    obtain ⟨u, ho, hcur⟩ := wordOutcome_exists w hs
    exact ⟨advance u, by simp [step, hn, performWord_next_iff.2 ho, afterCommand], hcur⟩

end Sys2Proof.Machine
end

section
/-! Settled statements: the invariants that every step keeps. -/

namespace Sys2Proof.Machine

/-- Settles O42: raised errors and each command's effect keep the registers consistent. -/
theorem stepKeepsTheRegisterInvariants : Obligations.StepKeepsTheRegisterInvariants :=
  fun _ _ => step_keeps_registers

/-- Settles O43: each of the four is an invariant of the tables that BUILD establishes. -/
theorem stepKeepsTheTreeFull : Obligations.StepKeepsTheTreeFull :=
  fun _ _ htop hfull hparent hsums h =>
    ⟨rootIsTop_tableInvariant.step htop h, treeIsFull_tableInvariant.step hfull h,
      oneParent_tableInvariant.step hparent h, countsAreSums_tableInvariant.step hsums h⟩

/-- Settles O44: both are invariants of the tables that BUILD establishes. -/
theorem stepKeepsCodesOnTheTree : Obligations.StepKeepsCodesOnTheTree :=
  fun _ _ hcodes hshort h =>
    ⟨codesFollowTree_tableInvariant.step hcodes h, codesAreShort_tableInvariant.step hshort h⟩

/-- Settles O45: BUILD is idempotent, and reads of the state only what the tables hold. -/
theorem stepKeepsTheTreeBuiltFromFreq : Obligations.StepKeepsTheTreeBuiltFromFreq :=
  fun _ _ => treeIsBuilt_tableInvariant.step

/-- Settles O46: the step answers with the cursor in the tree; the other parts are kept by every step. -/
theorem stepAnswersAndKeepsTheBlockInvariant : Obligations.StepAnswersAndKeepsTheBlockInvariant := by
  intro s hs
  obtain ⟨hreg, htop, hfull, -⟩ := id hs
  obtain ⟨t, ht, hcur⟩ := step_answers hs
  exact ⟨t, ht, step_keeps_registers hreg ht, rootIsTop_tableInvariant.step htop ht,
    treeIsFull_tableInvariant.step hfull ht, hcur⟩

/-- Settles O41: with TREE_VALID = 0 the invariants of the tables say nothing, and the registers are at rest. -/
theorem resetMeetsTheInvariants : Obligations.ResetMeetsTheInvariants := by
  have hv : State.reset.treeValid = false := rfl
  refine ⟨⟨by decide, rootIsTop_tableInvariant.invalid hv, treeIsFull_tableInvariant.invalid hv, nofun, nofun⟩, ?_⟩
  exact ⟨oneParent_tableInvariant.invalid hv, countsAreSums_tableInvariant.invalid hv,
    codesFollowTree_tableInvariant.invalid hv, codesAreShort_tableInvariant.invalid hv,
    treeIsBuilt_tableInvariant.invalid hv⟩

end Sys2Proof.Machine
end

section
/-! SUPPORT. What one performed word changes: the position, the error state, the tables and the channels. -/

namespace Sys2Proof.Machine

/-- No word changes the host's list of words or the position; the advance comes after it. -/
theorem WordOutcome.frame {w : Word} {s u : State} (h : WordOutcome w s u) : u.prog = s.prog ∧ u.pos = s.pos := by
  cases h with
  | dropped => exact ⟨rfl, rfl⟩
  | illegal => exact ⟨raiseErr_prog _ _, raiseErr_pos _ _⟩
  | rejected => exact ⟨raiseErr_prog _ _, raiseErr_pos _ _⟩
  | performed _ _ _ he =>
    obtain ⟨hprog, hpos, -⟩ := effectOf_frame he
    exact ⟨hprog, hpos⟩

/-- A raised error is fatal, or the first one since ERR_CODE was 0, or leaves ERR_CODE (60_exceptions.md R181, R183). -/
theorem raiseErr_errCode_cases (e : ErrCode) (s : State) :
    (e = .nocode ∧ raiseErr e s = afterFatal s) ∨
      (e ≠ .nocode ∧ (raiseErr e s).fatal = s.fatal ∧ ((raiseErr e s).errCode = s.errCode ∨ s.errCode = .none)) := by
  by_cases he : e = .nocode
  · subst he; exact .inl ⟨rfl, rfl⟩
  · refine .inr ⟨he, by simp [raiseErr_nonfatal s he], ?_⟩
    rw [raiseErr_errCode_of_nonfatal s he]
    split
    · exact .inr ‹_›
    · exact .inl rfl

/-- What a word does to ERR_CODE and FATAL: nothing, a first error, CLRERR, or the fatal error of a symbol without a
code (60_exceptions.md R180, R183, R189). -/
theorem WordOutcome.errors {w : Word} {s u : State} (h : WordOutcome w s u) :
    (u.fatal = s.fatal ∧
      (u.errCode = s.errCode ∨ s.errCode = .none ∨ (decode w = .ok .clrerr ∧ u.errCode = .none))) ∨
    (s.fatal = false ∧ u = afterFatal s ∧
      ∃ i, decode w = .ok i ∧ firstFailing (checksOf i s) = some .nocode) := by
  cases h with
  | dropped => exact .inl ⟨rfl, .inl rfl⟩
  | illegal =>
    obtain ⟨he, -⟩ | ⟨-, hfatal, hcode⟩ := raiseErr_errCode_cases .illegal s
    · cases he
    · exact .inl ⟨hfatal, hcode.imp_right .inl⟩
  | @rejected i e hf hd hc =>
    obtain ⟨rfl, hu⟩ | ⟨-, hfatal, hcode⟩ := raiseErr_errCode_cases e s
    · exact .inr ⟨hf, hu, i, hd, hc⟩
    · exact .inl ⟨hfatal, hcode.imp_right .inl⟩
  | @performed i u _ hd _ he =>
    obtain ⟨-, -, hfatal, -, -, hcode | ⟨rfl, hcode⟩⟩ := effectOf_frame he
    · exact .inl ⟨hfatal, .inl hcode⟩
    · exact .inl ⟨hfatal, .inr (.inr ⟨hd, hcode⟩)⟩

/-- A word leaves the tables, or is a CLEAR, LDFREQ or BUILD that is performed. -/
theorem WordOutcome.tables {w : Word} {s u : State} (h : WordOutcome w s u) :
    SameTables s u ∨ ∃ i, decode w = .ok i ∧ writesTables i = true ∧ effectOf i s = .next u := by
  cases h with
  | dropped => exact .inl (by constructor <;> rfl)
  | illegal => exact .inl (raiseErr_sameTables _ _)
  | rejected => exact .inl (raiseErr_sameTables _ _)
  | @performed i u _ hd _ he =>
    cases hi : writesTables i with
    | false => exact .inl (effectOf_sameTables hi he)
    | true => exact .inr ⟨i, hd, hi, he⟩

/-! ### The channels -/

/-- Both channels were appended to, and their registers hold the last new byte (10_state.md R36, R39, R40). -/
def ChannelsGrow (s t : State) : Prop :=
  (∃ new, t.eout = s.eout ++ new ∧ t.eoutReg = new.getLast?.getD s.eoutReg) ∧
  (∃ new, t.dout = s.dout ++ new ∧ t.doutReg = new.getLast?.getD s.doutReg)

/-- Nothing was appended. -/
theorem channelsGrow_of_eq {s t : State} (heout : t.eout = s.eout) (hereg : t.eoutReg = s.eoutReg)
    (hdout : t.dout = s.dout) (hdreg : t.doutReg = s.doutReg) : ChannelsGrow s t :=
  ⟨⟨[], by simp [heout, hereg]⟩, ⟨[], by simp [hdout, hdreg]⟩⟩

theorem ChannelsGrow.trans {s t u : State} (h : ChannelsGrow s t) (h' : ChannelsGrow t u) : ChannelsGrow s u := by
  obtain ⟨⟨e, he, her⟩, ⟨d, hd, hdr⟩⟩ := h
  obtain ⟨⟨e', he', her'⟩, ⟨d', hd', hdr'⟩⟩ := h'
  refine ⟨⟨e ++ e', ?_, ?_⟩, ⟨d ++ d', ?_, ?_⟩⟩
  · rw [he', he, List.append_assoc]
  · simp [her', her, List.getLast?_append]
  · rw [hd', hd, List.append_assoc]
  · simp [hdr', hdr, List.getLast?_append]

theorem putBits_channelsGrow (l : List Bool) (s : State) : ChannelsGrow s (putBits l s) := by
  refine ⟨putBits_eout l s, [], ?_, ?_⟩ <;> rw [putBits_frame] <;> simp

theorem closeStream_channelsGrow (s : State) : ChannelsGrow s (closeStream s) := by
  unfold closeStream
  split
  · exact ⟨⟨[_], rfl, rfl⟩, [], by simp, rfl⟩
  · exact channelsGrow_of_eq rfl rfl rfl rfl

theorem effectOf_channelsGrow {i : Instr} {s t : State} (h : effectOf i s = .next t) : ChannelsGrow s t := by
  cases i with
  | nop | clear | ldfreq _ _ | decStart | clrerr => cases h; exact channelsGrow_of_eq rfl rfl rfl rfl
  | build =>
    cases h
    obtain ⟨n, r, l, c, hb⟩ := buildTree_writes s
    rw [hb]
    exact channelsGrow_of_eq rfl rfl rfl rfl
  | enc arg => cases h; exact putBits_channelsGrow _ s
  | encEnd => cases h; exact (putBits_channelsGrow _ s).trans (closeStream_channelsGrow _)
  | decByte arg =>
    obtain ⟨c, d, new, rfl⟩ := walkBits_writes (s := s) (t := t) h
    exact ⟨⟨[], by simp⟩, ⟨new, rfl, rfl⟩⟩
  | decEnd => cases h; split <;> exact channelsGrow_of_eq rfl rfl rfl rfl

theorem step_channelsGrow {s t : State} (h : step s = .next t) : ChannelsGrow s t :=
  step_keeps (P := ChannelsGrow s) (fun _ hs => hs)
    (fun e u _ hs => hs.trans (channelsGrow_of_eq (raiseErr_eout u e) (raiseErr_eoutReg u e) (raiseErr_dout u e)
      (raiseErr_doutReg u e)))
    (fun _ _ _ _ _ hs he => hs.trans (effectOf_channelsGrow he)) (channelsGrow_of_eq rfl rfl rfl rfl) h

/-! ### Codes, bits and the reset table -/

/-- A code that begins another code is that code: no path leads on from a leaf (10_state.md R34). -/
theorem CodesFollowTree.eq_of_code_begins {s : State} (h : CodesFollowTree s) (htv : s.treeValid = true) {a b : Nat}
    (ha : a < 257) (hb : b < 257) (hva : (codeAt s a).valid = true) (hvb : (codeAt s b).valid = true)
    (hpre : codeBits (codeAt s a) <+: codeBits (codeAt s b)) : a = b := by
  obtain ⟨-, hpa, -⟩ := h htv a ha
  obtain ⟨-, hpb, -⟩ := h htv b hb
  have ha' := hpa hva
  have hb' := hpb hvb
  obtain ⟨rest, hrest⟩ := hpre
  rw [← hrest, pathEnd_append] at hb'
  by_cases hnil : rest = []
  · rw [hnil, pathEnd, ha'] at hb'
    exact hb'
  · rw [pathEnd_leaf (isLeaf_iff.2 (by omega)) hnil] at hb'
    have : Config.noNode.toNat = 1023 := rfl
    omega

/-- A present code of length 0 is the path to a ROOT that is a leaf, so the tree has that leaf alone. -/
theorem CodesFollowTree.nleaf_of_empty_code {s : State} (h : CodesFollowTree s) (htop : RootIsTop s)
    (htv : s.treeValid = true) {a : Nat} (ha : a < 257) (hv : (codeAt s a).valid = true)
    (hlen : (codeAt s a).len = 0#9) : s.nleaf = 1#9 := by
  obtain ⟨-, hp, -⟩ := h htv a ha
  obtain ⟨-, hpos, -, hroot⟩ := htop htv
  have hempty : codeBits (codeAt s a) = [] := by rw [codeBits, hlen]; rfl
  have ha' : s.root.toNat = a := by simpa only [hempty, pathEnd] using hp hv
  by_cases h1 : s.nleaf.toNat = 1
  · exact BitVec.eq_of_toNat_eq h1
  · rw [if_neg h1] at hroot
    omega

theorem bitsDown_eq_map {w : Nat} (v : BitVec w) (n : Nat) :
    bitsDown v n = ((List.range n).reverse).map v.getLsbD := by
  induction n with
  | zero => rfl
  | succ n ih => simp [bitsDown, ih, List.range_succ]

/-- The reset table counts the end-of-block symbol alone (10_state.md R47). -/
theorem freqAt_reset {k : Nat} (hk : k < 257) : freqAt State.reset k = if k = 256 then 1#32 else 0#32 := by
  have h : (State.reset.freq[k]?) = if 256 = k then some 1#32 else some 0#32 := by
    show ((Vector.replicate 257 0#32).set 256 1#32)[k]? = _
    rw [Vector.getElem?_set, Vector.getElem?_replicate, if_pos hk]
  rw [freqAt, entry, h]
  by_cases hk' : k = 256
  · simp [hk']
  · simp [hk', Ne.symm hk']

end Sys2Proof.Machine
end

section
/-! Settled statements: what a step does to each part of the state, and the views of the state. -/

namespace Sys2Proof.Machine

/-- Settles O8: no word writes the position, and the step adds 1. -/
theorem positionAdvancesByOne : Obligations.PositionAdvancesByOne := by
  intro s t w hb hw h
  obtain ⟨u, ho, rfl⟩ := step_outcome hb hw h
  obtain ⟨hprog, hpos⟩ := ho.frame
  exact ⟨congrArg (· + 1) hpos, hprog⟩

/-- Settles O18: the codes are paths to leaves, and ROOT is a leaf only when it is the one leaf. -/
theorem presentCodesAreAPrefixCode : Obligations.PresentCodesAreAPrefixCode :=
  fun _ htv htop hcodes =>
    ⟨fun _ _ ha hb hva hvb hpre => hcodes.eq_of_code_begins htv ha hb hva hvb hpre,
      fun _ ha hv hlen => hcodes.nleaf_of_empty_code htop htv ha hv hlen⟩

/-- Settles O35: the outcomes of a word, of which the fatal one is NOCODE of ENC or ENC_END. -/
theorem errorStateChangesOnlyByRule : Obligations.ErrorStateChangesOnlyByRule := by
  intro s t w hb hw h
  obtain ⟨u, ho, rfl⟩ := step_outcome hb hw h
  obtain ⟨hfatal, hcode⟩ | ⟨hf, rfl, i, hd, hc⟩ := ho.errors
  · refine ⟨?_, fun hs => hfatal.trans hs, fun hs ht => ?_⟩
    · obtain hcode | hcode | hcode := hcode
      · exact .inl hcode
      · exact .inr (.inl hcode)
      · exact .inr (.inr (.inl hcode))
    · exact absurd (ht.symm.trans (hfatal.trans hs)) (by decide)
  · refine ⟨.inr (.inr (.inr ⟨rfl, rfl⟩)), fun _ => rfl, fun _ _ => ⟨rfl, ?_⟩⟩
    obtain ⟨htv, ⟨arg, rfl, hv⟩ | ⟨rfl, hv⟩⟩ := nocode_of_checks hc
    · exact ⟨htv, .inl ⟨arg, hd, hv⟩⟩
    · exact ⟨htv, .inr ⟨hd, hv⟩⟩

/-- Settles O36: a word leaves the tables, or is one of the three commands that write them. -/
theorem tablesChangeOnlyByTheirCommands : Obligations.TablesChangeOnlyByTheirCommands := by
  intro s t w hb hw h
  obtain ⟨u, ho, rfl⟩ := step_outcome hb hw h
  obtain hsame | ⟨i, hd, hi, he⟩ := ho.tables
  · exact ⟨.inl hsame.freq, .inl ⟨hsame.nodes, hsame.root, hsame.nleaf, hsame.code⟩, .inl hsame.treeValid⟩
  · cases i with
    | clear => cases he; exact ⟨.inr (.inl hd), .inl ⟨rfl, rfl, rfl, rfl⟩, .inr (.inr ⟨rfl, .inl hd⟩)⟩
    | ldfreq sym count =>
      cases he
      exact ⟨.inr (.inr ⟨sym, count, hd⟩), .inl ⟨rfl, rfl, rfl, rfl⟩, .inr (.inr ⟨rfl, .inr ⟨sym, count, hd⟩⟩)⟩
    | build =>
      cases he
      obtain ⟨n, r, l, c, hbuild⟩ := buildTree_writes s
      rw [hbuild]
      exact ⟨.inl rfl, .inr hd, .inr (.inl ⟨rfl, hd⟩)⟩
    | nop | enc _ | encEnd | decStart | decByte _ | decEnd | clrerr => cases hi

/-- Settles O38: raised errors leave the channels, and each command's effect appends. -/
theorem channelsAreOnlyAppendedTo : Obligations.ChannelsAreOnlyAppendedTo :=
  fun _ _ => step_channelsGrow

/-- Settles O6: the word at the port is performed, and `afterCommand` is the advance. -/
theorem stepRunsTheDecodedCommand : Obligations.StepRunsTheDecodedCommand := by
  intro s w i hb hw hd
  rw [step_eq_of_word hb hw, performWord_of_decode hd]
  cases exec i s <;> rfl

/-- Settles O20, by the recursion of `bitsDown`. -/
theorem bitsRunFromTheTop : Obligations.BitsRunFromTheTop :=
  ⟨fun e => bitsDown_eq_map e.bits e.len.toNat, fun b => bitsDown_eq_map b 8⟩

/-- Settles O48: FREQ by its one nonzero entry, the registers as the reset state gives them. -/
theorem resetLeavesTheStatedValues : Obligations.ResetLeavesTheStatedValues := by
  refine ⟨fun k hk => ?_, freqAt_reset (by omega), by decide⟩
  rw [freqAt_reset (by omega), if_neg (by omega)]

/-- Settles O49: each field is found by peeling off the lower parts of the word. -/
theorem statusShowsTheRegisters : Obligations.StatusShowsTheRegisters := by
  intro s
  unfold statusWord
  refine ⟨?_, ?_, ?_, ?_, ?_, ?_, ?_, ?_⟩
  · simp only [BitVec.getLsbD_append]; simp
  · simp only [BitVec.getLsbD_append]; simp
  · simp (disch := omega) only [BitVec.extractLsb'_append_eq_of_le, BitVec.extractLsb'_append_eq_of_add_le]
    exact BitVec.extractLsb'_eq_self
  · simp (disch := omega) only [BitVec.extractLsb'_append_eq_of_le, BitVec.extractLsb'_append_eq_of_add_le]
    exact BitVec.extractLsb'_eq_self
  · simp (disch := omega) only [BitVec.extractLsb'_append_eq_of_le, BitVec.extractLsb'_append_eq_of_add_le]
    exact BitVec.extractLsb'_eq_self
  · simp only [BitVec.getLsbD_append]; simp
  · simp only [BitVec.getLsbD_append]; simp
  · simp (disch := omega) only [BitVec.extractLsb'_append_eq_of_le]
    exact BitVec.extractLsb'_eq_self

end Sys2Proof.Machine
end

section
/-! SUPPORT. What the spec leaves unspecified is never seen: a step of a state with other internal slots outside the tree,
or with another code table while TREE_VALID = 0, does the same (10_state.md R30, R47). -/

namespace Sys2Proof.Machine

/-- The same state with other internal slots and another code table. -/
def withTables (n : Vector Node Config.ninternal) (c : Vector CodeEntry Config.nsym) (s : State) : State :=
  { s with nodes := n, code := c }

theorem SameButUnspecified.eq_withTables {s t : State} (h : SameButUnspecified s t) : ∃ n c, t = withTables n c s :=
  ⟨t.nodes, t.code, h.1⟩

/-- Two states that agree but in what is unspecified stay so while the tables stay, or once the tree is invalid. -/
theorem SameButUnspecified.transfer {s u : State} {n : Vector Node Config.ninternal} {c : Vector CodeEntry Config.nsym}
    (h : SameButUnspecified s (withTables n c s)) (hu : SameTables s u ∨ u.treeValid = false) :
    SameButUnspecified u (withTables n c u) := by
  obtain ⟨-, hslots, hcode⟩ := h
  refine ⟨rfl, fun m hm hin => ?_, fun htv => ?_⟩
  · obtain hu | hu := hu
    · rw [hu.inTree_eq] at hin
      rw [hu.nodes]
      exact hslots m hm hin
    · simp [inTree, hu] at hin
  · obtain hu | hu := hu
    · rw [hu.code]
      exact hcode (hu.treeValid ▸ htv)
    · rw [hu] at htv; cases htv

/-! ### What the two states share -/

theorem SameButUnspecified.inTree_eq {s t : State} (h : SameButUnspecified s t) (i : Nat) : inTree t i = inTree s i := by
  obtain ⟨n, c, rfl⟩ := h.eq_withTables
  rfl

theorem SameButUnspecified.codeAt_eq {s t : State} (h : SameButUnspecified s t) (htv : s.treeValid = true) (sym : Nat) :
    codeAt t sym = codeAt s sym := by
  rw [codeAt, codeAt, h.2.2 htv]

theorem SameButUnspecified.internalNode_eq {s t : State} (h : SameButUnspecified s t) {i : NodeIdx}
    (hl : isLeaf i = false) (hin : inTree s i.toNat = true) : internalNode t i = internalNode s i := by
  have h257 : 257 ≤ i.toNat := by rw [Bool.eq_false_iff, ne_eq, isLeaf_iff] at hl; omega
  unfold internalNode
  by_cases hm : i.toNat - Config.nsym < Config.ninternal
  · exact h.2.1 _ hm (by rwa [Nat.add_sub_cancel' h257])
  · rw [entry_outside _ _ _ (Nat.le_of_not_lt hm), entry_outside _ _ _ (Nat.le_of_not_lt hm)]

/-- A node that is a leaf or in the tree has the same fields. -/
theorem SameButUnspecified.node_eq {s t : State} (h : SameButUnspecified s t) {i : NodeIdx}
    (hi : (isLeaf i || inTree s i.toNat) = true) :
    nodeLeft t i = nodeLeft s i ∧ nodeRight t i = nodeRight s i ∧ nodeCount t i = nodeCount s i := by
  cases hl : isLeaf i with
  | true =>
    have hf : t.freq = s.freq := by rw [h.1]
    simp [nodeLeft, nodeRight, nodeCount, hl, freqAt, hf]
  | false =>
    have hn := h.internalNode_eq hl (by simpa [hl] using hi)
    simp [nodeLeft, nodeRight, nodeCount, hl, hn]

theorem SameButUnspecified.childOn_eq {s t : State} (h : SameButUnspecified s t) (v : Bool) {i : NodeIdx}
    (hin : inTree s i.toNat = true) : childOn t v i = childOn s v i := by
  obtain ⟨hl, hr, -⟩ := h.node_eq (i := i) (by simp [hin])
  cases v
  · exact hl
  · exact hr

/-! ### Readback -/

theorem SameButUnspecified.nodeWord_eq {s t : State} (h : SameButUnspecified s t) (any : Word) {i : Nat} (hi : i ≤ 512) :
    nodeWord any t i = nodeWord any s i := by
  have hidx : (BitVec.ofNat 10 i).toNat = i := by simp; omega
  unfold nodeWord
  rw [h.inTree_eq]
  cases hd : isLeaf (BitVec.ofNat 10 i) || inTree s i with
  | true =>
    obtain ⟨hl, hr, hc⟩ := h.node_eq (i := BitVec.ofNat 10 i) (by rwa [hidx])
    simp only [hl, hr, hc]
  | false => simp only [hd, Bool.false_eq_true, if_false]

theorem SameButUnspecified.codeWords_eq {s t : State} (h : SameButUnspecified s t) (htv : s.treeValid = true)
    (sym k : Nat) : codeMetaWord t sym = codeMetaWord s sym ∧ codeBitsWord t sym k = codeBitsWord s sym k := by
  simp only [codeMetaWord, codeBitsWord, h.codeAt_eq htv, and_self]

theorem SameButUnspecified.memRead_eq {s t : State} (h : SameButUnspecified s t) (any : Word) (addr : RbAddr) :
    memRead any t addr = memRead any s addr := by
  have hnode := fun hi => h.nodeWord_eq any (i := addr.toNat - 0x1000) hi
  have hcode := h.codeWords_eq
  obtain ⟨n, c, rfl⟩ := h.eq_withTables
  unfold memRead
  dsimp only [withTables]
  iterate 9 refine ite_congr rfl (fun _ => rfl) fun _ => ?_
  refine ite_congr rfl (fun hi => hnode (by omega)) fun _ => ?_
  refine ite_congr rfl (fun _ => ite_congr rfl (fun htv => (hcode htv _ 0).1) fun _ => rfl) fun _ => ?_
  exact ite_congr rfl (fun _ => ite_congr rfl (fun htv => (hcode htv _ _).2) fun _ => rfl) fun _ => rfl

/-! ### Performing a word -/

theorem SameButUnspecified.after_raiseErr {s t : State} (h : SameButUnspecified s t) (e : ErrCode) :
    SameButUnspecified (raiseErr e s) (raiseErr e t) := by
  obtain ⟨n, c, rfl⟩ := h.eq_withTables
  have he : raiseErr e (withTables n c s) = withTables n c (raiseErr e s) := by
    unfold raiseErr raiseError raiseFatal
    split
    · rfl
    · show (if s.errCode = .none then _ else _) = _
      split <;> rfl
  rw [he]
  exact h.transfer (.inl (raiseErr_sameTables e s))

theorem SameButUnspecified.after_advance {s t : State} (h : SameButUnspecified s t) :
    SameButUnspecified (advance s) (advance t) := by
  obtain ⟨n, c, rfl⟩ := h.eq_withTables
  exact h.transfer (u := advance s) (.inl (by constructor <;> rfl))

/-- A check of a code stands behind the check of TREE_VALID, so the same check fails first. -/
theorem SameButUnspecified.firstFailing_eq {s t : State} (h : SameButUnspecified s t) (i : Instr) :
    firstFailing (checksOf i t) = firstFailing (checksOf i s) := by
  have hcode := h.codeAt_eq
  obtain ⟨n, c, rfl⟩ := h.eq_withTables
  cases i with
  | enc arg =>
    cases htv : s.treeValid with
    | true => simp only [checksOf, hcode htv]; rfl
    | false => simp [checksOf, firstFailing, withTables, htv]
  | encEnd =>
    cases htv : s.treeValid with
    | true => simp only [checksOf, hcode htv]; rfl
    | false => simp [checksOf, firstFailing, withTables, htv]
  | nop | clear | ldfreq _ _ | build | decStart | decByte _ | decEnd | clrerr => rfl

theorem putBits_withTables (n : Vector Node Config.ninternal) (c : Vector CodeEntry Config.nsym) (l : List Bool)
    (s : State) : putBits l (withTables n c s) = withTables n c (putBits l s) := by
  induction l generalizing s with
  | nil => rfl
  | cons v l ih =>
    have hv : putBit v (withTables n c s) = withTables n c (putBit v s) := by
      unfold putBit
      dsimp only [withTables]
      split <;> rfl
    rw [putBits, hv, ih, putBits]

theorem closeStream_withTables (n : Vector Node Config.ninternal) (c : Vector CodeEntry Config.nsym) (s : State) :
    closeStream (withTables n c s) = withTables n c (closeStream s) := by
  unfold closeStream
  by_cases h : 0 < s.accCnt.toNat
  · rw [if_pos h, if_pos (show 0 < (withTables n c s).accCnt.toNat from h)]
    rfl
  · rw [if_neg h, if_neg (show ¬ 0 < (withTables n c s).accCnt.toNat from h)]

/-- A move reads one child of the cursor's node, and no other slot. -/
theorem walkBit_withTables {v : Bool} {s t : State} {n : Vector Node Config.ninternal}
    {c : Vector CodeEntry Config.nsym} (hchild : childOn (withTables n c s) v s.cur = childOn s v s.cur)
    (ht : walkBit v s = .next t) : walkBit v (withTables n c s) = .next (withTables n c t) := by
  have hcur : (withTables n c s).cur = s.cur := rfl
  unfold walkBit at ht ⊢
  rw [hcur, hchild]
  dsimp only at ht ⊢
  split_ifs at ht ⊢ <;> cases ht <;> rfl

/-- A walk in the tree reads the slots of the tree alone. -/
theorem walkBits_withTables (l : List Bool) {s u : State} {n : Vector Node Config.ninternal}
    {c : Vector CodeEntry Config.nsym} (hs : BlockInvariant s) (h : SameButUnspecified s (withTables n c s))
    (hu : walkBits l s = .next u) : walkBits l (withTables n c s) = .next (withTables n c u) := by
  induction l generalizing s with
  | nil => cases hu; rfl
  | cons v l ih =>
    by_cases hr : s.decState = .run
    · obtain ⟨⟨hvalid, -⟩, -⟩ := id hs
      obtain ⟨t, ht, hcur⟩ := walkBit_keeps (v := v) hs hr
      obtain ⟨c', d, new, hw⟩ := walkBit_writes ht
      have hkeep : SameTables s t := by rw [hw]; constructor <;> rfl
      have ht' := walkBit_withTables (h.childOn_eq v (hs.cursorInTree.1 hr)) ht
      rw [walkBits, if_pos hr, ht] at hu
      rw [walkBits, if_pos (show (withTables n c s).decState = .run from hr), ht']
      exact ih (BlockInvariant.of_decoder hs hw (fun _ => hvalid hr) hcur) (h.transfer (.inl hkeep)) hu
    · rw [walkBits_stopped _ hr] at hu
      cases hu
      exact walkBits_stopped _ hr

/-- BUILD's tree is a function of FREQ, so what it leaves differs in the slots it does not write alone. -/
theorem buildTree_sameButUnspecified {s t : State} (h : SameButUnspecified s t) (hq : leafQueue s ≠ []) :
    SameButUnspecified (buildTree s) (buildTree t) := by
  have hfreq : s.freq = t.freq := by rw [h.1]
  have hb := built_buildTree hq
  have hb' : Built t (buildTree t) := built_buildTree (by rwa [← leafQueue_congr hfreq])
  obtain ⟨hroot, hnleaf, hslots⟩ := buildTree_congr hfreq hq
  refine ⟨?_, fun m hm hin => ?_, fun _ => (buildTree_code_congr hfreq hq).symm⟩
  · obtain ⟨n, c, rfl⟩ := h.eq_withTables
    rw [hb'.frame, hb.frame, ← hroot, ← hnleaf]
    rfl
  · have hle := hb.nleaf_le
    have hm : m < 256 := hm
    have hidx : (mergeIndex m).toNat = 257 + m := mergeIndex_toNat hm
    obtain ⟨m', hm', hidx', -⟩ := hb.internal (i := mergeIndex m) (by omega) (by rw [hidx]; exact hin)
    exact (hslots m (by rw [hb.merges]; omega)).symm

/-- What a command does in the two states. -/
theorem effectOf_sameButUnspecified {i : Instr} {s t u : State} (hs : BlockInvariant s) (h : SameButUnspecified s t)
    (hc : firstFailing (checksOf i s) = none) (he : effectOf i s = .next u) :
    ∃ u', effectOf i t = .next u' ∧ SameButUnspecified u u' := by
  have hcode := h.codeAt_eq
  obtain ⟨n, c, rfl⟩ := h.eq_withTables
  cases i with
  | build => cases he; exact ⟨_, rfl, buildTree_sameButUnspecified h (leafQueue_ne_nil_of_checks hc)⟩
  | clear | ldfreq _ _ => cases he; exact ⟨_, rfl, h.transfer (.inr rfl)⟩
  | nop | decStart | clrerr => cases he; exact ⟨_, rfl, h.transfer (.inl (by constructor <;> rfl))⟩
  | enc arg =>
    have hkeep := effectOf_sameTables (i := .enc arg) rfl he
    have htv := treeValid_of_checks (.inl ⟨arg, rfl⟩) hc
    cases he
    refine ⟨_, ?_, h.transfer (.inl hkeep)⟩
    rw [effectOf, writeCode, hcode htv, putBits_withTables]
    rfl
  | encEnd =>
    have hkeep := effectOf_sameTables (i := .encEnd) rfl he
    have htv := treeValid_of_checks (.inr (.inl rfl)) hc
    cases he
    refine ⟨_, ?_, h.transfer (.inl hkeep)⟩
    rw [effectOf, writeCode, hcode htv, putBits_withTables, closeStream_withTables]
    rfl
  | decByte arg =>
    exact ⟨_, walkBits_withTables _ hs h he, h.transfer (.inl (effectOf_sameTables (i := .decByte arg) rfl he))⟩
  | decEnd =>
    have hkeep := effectOf_sameTables (i := .decEnd) rfl he
    cases he
    refine ⟨_, ?_, h.transfer (.inl hkeep)⟩
    rw [effectOf]
    by_cases hr : s.decState = .run
    · rw [if_pos hr, if_pos (show (withTables n c s).decState = .run from hr)]
      rfl
    · rw [if_neg hr, if_neg (show ¬ (withTables n c s).decState = .run from hr)]

theorem WordOutcome.sameButUnspecified {w : Word} {s t u : State} (ho : WordOutcome w s u) (hs : BlockInvariant s)
    (h : SameButUnspecified s t) : ∃ u', WordOutcome w t u' ∧ SameButUnspecified u u' := by
  have hfatal : t.fatal = s.fatal := by rw [h.1]
  cases ho with
  | dropped hf => exact ⟨t, .dropped (hfatal.trans hf), h⟩
  | illegal hf hd => exact ⟨_, .illegal (hfatal.trans hf) hd, h.after_raiseErr _⟩
  | rejected hf hd hc =>
    exact ⟨_, .rejected (hfatal.trans hf) hd ((h.firstFailing_eq _).trans hc), h.after_raiseErr _⟩
  | performed hf hd hc he =>
    obtain ⟨u', he', hu⟩ := effectOf_sameButUnspecified hs h hc he
    exact ⟨u', .performed (hfatal.trans hf) hd ((h.firstFailing_eq _).trans hc) he', hu⟩

theorem step_sameButUnspecified {s t s' : State} (h : SameButUnspecified s t) (hs : BlockInvariant s)
    (hstep : step s = .next s') : ∃ t', step t = .next t' ∧ SameButUnspecified s' t' := by
  have hnext : nextWord t = nextWord s := by rw [h.1]; rfl
  obtain ⟨hn, rfl⟩ | ⟨w, u, hn, hp, rfl⟩ := step_cases hstep
  · exact ⟨t, by simp [step, hnext, hn], h⟩
  · obtain ⟨u', ho, hu⟩ := (performWord_next_iff.1 hp).sameButUnspecified hs h
    exact ⟨advance u', by simp [step, hnext, hn, performWord_next_iff.2 ho, afterCommand], hu.after_advance⟩

/-- Settles O40: each readback and each command reads only the slots of the tree and the codes of a valid tree. -/
theorem unspecifiedTablesAreNeverSeen : Obligations.UnspecifiedTablesAreNeverSeen :=
  fun _ _ h hs => ⟨h.memRead_eq, fun _ => step_sameButUnspecified h hs⟩

end Sys2Proof.Machine
end

section
/-! SUPPORT. The readback port, row by row of its map (20_memory.md R55, R56), the byte lanes of the bus, and the counter
of free draws. -/

namespace Sys2Proof.Machine

/-! ### The rows of the readback map -/

@[simp] theorem memRead_status (any : Word) (s : State) : memRead any s 0#16 = statusWord s := rfl

/-- While BUSY = 1 every address but that of STATUS reads the draw (20_memory.md R56). -/
theorem memRead_busy (any : Word) {s : State} {addr : RbAddr} (h0 : addr ≠ 0#16) (hb : s.busy = true) :
    memRead any s addr = any := by
  have h : addr.toNat ≠ 0 := fun h => h0 (BitVec.eq_of_toNat_eq h)
  rw [memRead, if_neg h, if_pos hb]

section Idle

variable (any : Word) {s : State} {addr : RbAddr} (hb : s.busy = false)

include hb

/-- The six registers beside STATUS, in the order of their addresses. -/
theorem memRead_registers :
    memRead any s 0x0001#16 = s.root.setWidth 64 ∧ memRead any s 0x0002#16 = s.nleaf.setWidth 64 ∧
    memRead any s 0x0003#16 = s.acc.setWidth 64 ∧ memRead any s 0x0004#16 = s.cur.setWidth 64 ∧
    memRead any s 0x0005#16 = s.eoutReg.setWidth 64 ∧ memRead any s 0x0006#16 = s.doutReg.setWidth 64 := by
  simp [memRead, hb]

theorem memRead_freq {k : Nat} (ha : addr.toNat = 0x0100 + k) (hk : k ≤ 256) :
    memRead any s addr = (freqAt s k).setWidth 64 := by
  simp (disch := omega) only [memRead, hb, ha, if_neg, if_pos, if_false, Bool.false_eq_true, Nat.add_sub_cancel_left]

theorem memRead_node {i : Nat} (ha : addr.toNat = 0x1000 + i) (hi : i ≤ 512) :
    memRead any s addr = nodeWord any s i := by
  simp (disch := omega) only [memRead, hb, ha, if_neg, if_pos, if_false, Bool.false_eq_true, Nat.add_sub_cancel_left]

theorem memRead_codeMeta {k : Nat} (ha : addr.toNat = 0x2000 + k) (hk : k ≤ 256) :
    memRead any s addr = if s.treeValid then codeMetaWord s k else any := by
  simp (disch := omega) only [memRead, hb, ha, if_neg, if_pos, if_false, Bool.false_eq_true, Nat.add_sub_cancel_left]

theorem memRead_codeBits {k : Nat} (ha : addr.toNat = 0x3000 + k) (hk : k ≤ 1027) :
    memRead any s addr = if s.treeValid then codeBitsWord s (k / 4) (k % 4) else any := by
  simp (disch := omega) only [memRead, hb, ha, if_neg, if_pos, if_false, Bool.false_eq_true, Nat.add_sub_cancel_left]

theorem memRead_unmapped (ha : 6 < addr.toNat ∧ addr.toNat < 0x0100 ∨ 0x0200 < addr.toNat ∧ addr.toNat < 0x1000 ∨
    0x1200 < addr.toNat ∧ addr.toNat < 0x2000 ∨ 0x2100 < addr.toNat ∧ addr.toNat < 0x3000 ∨ 0x3403 < addr.toNat) :
    memRead any s addr = 0#64 := by
  simp (disch := omega) only [memRead, hb, if_neg, if_false, Bool.false_eq_true]

end Idle

/-! ### The NODE word -/

/-- The fields of a NODE word at their bits (20_memory.md R55). -/
def nodeLayout (left right : NodeIdx) (leaf tree : Bool) (count : Count) : Word :=
  count ++ 0#1 ++ BitVec.ofBool tree ++ BitVec.ofBool leaf ++ right ++ left

section Fields

variable (left right : NodeIdx) (leaf tree : Bool) (count : Count)

@[simp] theorem nodeLayout_left : (nodeLayout left right leaf tree count).extractLsb' 0 10 = left := by
  unfold nodeLayout
  simp (disch := omega) only [BitVec.extractLsb'_append_eq_of_add_le]
  exact BitVec.extractLsb'_eq_self

@[simp] theorem nodeLayout_right : (nodeLayout left right leaf tree count).extractLsb' 10 10 = right := by
  unfold nodeLayout
  simp (disch := omega) only [BitVec.extractLsb'_append_eq_of_le, BitVec.extractLsb'_append_eq_of_add_le]
  exact BitVec.extractLsb'_eq_self

@[simp] theorem nodeLayout_count : (nodeLayout left right leaf tree count).extractLsb' 23 41 = count := by
  unfold nodeLayout
  simp (disch := omega) only [BitVec.extractLsb'_append_eq_of_le]
  exact BitVec.extractLsb'_eq_self

theorem nodeLayout_leaf : (nodeLayout left right leaf tree count).getLsbD 20 = leaf := by
  simp only [nodeLayout, BitVec.getLsbD_append]
  simp

theorem nodeLayout_tree : (nodeLayout left right leaf tree count).getLsbD 21 = tree := by
  simp only [nodeLayout, BitVec.getLsbD_append]
  simp

theorem nodeLayout_reserved : (nodeLayout left right leaf tree count).getLsbD 22 = false := by
  simp only [nodeLayout, BitVec.getLsbD_append]
  simp

/-- The layout of a slot outside the tree, its bits 22:20 one field of zeros. -/
theorem nodeLayout_outside : nodeLayout left right false false count = count ++ 0#3 ++ right ++ left := by
  have hflags : count ++ 0#1 ++ BitVec.ofBool false ++ BitVec.ofBool false = count ++ 0#3 := by
    refine BitVec.eq_of_toNat_eq ?_
    simp only [BitVec.toNat_append]
    simp [← Nat.shiftLeft_add]
  rw [nodeLayout, hflags]

end Fields

/-- A NODE word names IS_LEAF and IN_TREE whatever the draw. -/
theorem nodeWord_flags (any : Word) (s : State) (i : Nat) :
    ∃ left right count, nodeWord any s i = nodeLayout left right (isLeaf (BitVec.ofNat 10 i)) (inTree s i) count :=
  ⟨_, _, _, rfl⟩

theorem nodeWord_defined (any : Word) {s : State} {i : Nat} (h : (isLeaf (BitVec.ofNat 10 i) || inTree s i) = true) :
    nodeWord any s i = nodeLayout (nodeLeft s (BitVec.ofNat 10 i)) (nodeRight s (BitVec.ofNat 10 i))
      (isLeaf (BitVec.ofNat 10 i)) (inTree s i) (nodeCount s (BitVec.ofNat 10 i)) := by
  simp only [nodeWord, nodeLayout, h, if_true]

/-- A slot number is the value of its node index. -/
theorem toNat_slotIndex {i : Nat} (hi : i ≤ 512) : (BitVec.ofNat 10 i).toNat = i := by
  rw [BitVec.toNat_ofNat]
  omega

theorem isLeaf_ofNat {i : Nat} (hi : i ≤ 512) : isLeaf (BitVec.ofNat 10 i) = decide (i ≤ 256) := by
  rw [Bool.eq_iff_iff, isLeaf_iff, toNat_slotIndex hi, decide_eq_true_iff]
  omega

/-- The word of a leaf slot (10_state.md R26). -/
theorem nodeWord_leaf (any : Word) (s : State) {i : Nat} (hi : i ≤ 256) :
    nodeWord any s i = nodeLayout Config.noNode Config.noNode true (inTree s i) ((freqAt s i).setWidth 41) := by
  have hl : isLeaf (BitVec.ofNat 10 i) = true := by rw [isLeaf_ofNat (by omega), decide_eq_true hi]
  rw [nodeWord_defined any (by rw [hl, Bool.true_or])]
  simp only [nodeLeft, nodeRight, nodeCount, hl, if_true, toNat_slotIndex (show i ≤ 512 by omega)]

/-- The word of an internal slot in the tree (10_state.md R27). -/
theorem nodeWord_internal (any : Word) {s : State} {k : Nat} (hk : k < 256) (ht : inTree s (257 + k) = true) :
    nodeWord any s (257 + k) =
      nodeLayout (slotAt s k).left (slotAt s k).right false true (slotAt s k).count := by
  have hl : isLeaf (BitVec.ofNat 10 (257 + k)) = false := by rw [isLeaf_ofNat (by omega), decide_eq_false (by omega)]
  have hnode : internalNode s (BitVec.ofNat 10 (257 + k)) = slotAt s k := by
    show internalNode s (mergeIndex k) = _
    rw [internalNode_eq, mergeIndex_toNat hk, Nat.add_sub_cancel_left]
  rw [nodeWord_defined any (by rw [ht, Bool.or_true])]
  simp only [nodeLeft, nodeRight, nodeCount, hl, ht, hnode, Bool.false_eq_true, if_false]

/-- The word of an internal slot outside the tree holds the draw's bits (20_memory.md R56). -/
theorem nodeWord_free (any : Word) {s : State} {i : Nat} (hi : 257 ≤ i ∧ i ≤ 512) (ht : inTree s i = false) :
    nodeWord any s i =
      nodeLayout (any.extractLsb' 0 10) (any.extractLsb' 10 10) false false (any.extractLsb' 23 41) := by
  have hl : isLeaf (BitVec.ofNat 10 i) = false := by rw [isLeaf_ofNat (by omega), decide_eq_false (by omega)]
  simp only [nodeWord, nodeLayout, hl, ht, Bool.or_false, Bool.false_eq_true, if_false]

theorem inTree_iff {s : State} {i : Nat} :
    inTree s i = true ↔
      s.treeValid = true ∧ (if i ≤ 256 then freqAt s i ≠ 0#32 else i ≤ 255 + s.nleaf.toNat) := by
  have hns : i < Config.nsym ↔ i ≤ 256 := by show i < 257 ↔ _; omega
  simp only [inTree, Bool.and_eq_true, hns]
  split
  · rw [decide_eq_true_iff, ← BitVec.toNat_ne_iff_ne, Nat.pos_iff_ne_zero]; rfl
  · rw [decide_eq_true_iff]

/-! ### The CODE_META word -/

theorem codeMetaWord_len (s : State) (sym : Nat) : (codeMetaWord s sym).extractLsb' 0 9 = (codeAt s sym).len := by
  unfold codeMetaWord
  simp (disch := omega) only [BitVec.extractLsb'_append_eq_of_add_le]
  exact BitVec.extractLsb'_eq_self

theorem codeMetaWord_valid (s : State) (sym : Nat) : (codeMetaWord s sym).getLsbD 9 = (codeAt s sym).valid := by
  simp only [codeMetaWord, BitVec.getLsbD_append]
  simp

theorem codeMetaWord_reserved (s : State) (sym : Nat) : (codeMetaWord s sym).extractLsb' 10 54 = 0#54 := by
  unfold codeMetaWord
  simp (disch := omega) only [BitVec.extractLsb'_append_eq_of_le]
  exact BitVec.extractLsb'_eq_self

/-! ### Where a readback is defined -/

theorem readsAnyValue_eq_false {s : State} {addr : RbAddr} (h : readsAnyValue s addr = false) :
    (addr ≠ 0#16 → s.busy = false) ∧
    (0x1101 ≤ addr.toNat → addr.toNat ≤ 0x1200 → inTree s (addr.toNat - 0x1000) = true) ∧
    ((0x2000 ≤ addr.toNat ∧ addr.toNat ≤ 0x2100) ∨ (0x3000 ≤ addr.toNat ∧ addr.toNat ≤ 0x3403) →
      s.treeValid = true) := by
  simp only [readsAnyValue, Bool.or_eq_false_iff, Bool.and_eq_false_imp, decide_eq_true_iff, Bool.not_eq_false'] at h
  obtain ⟨⟨hbusy, hnode⟩, hcode⟩ := h
  exact ⟨hbusy, fun hlo hhi => hnode ⟨hlo, hhi⟩, hcode⟩

/-- A defined word does not depend on the draw, row by row (20_memory.md R56). -/
theorem memRead_eq_of_defined {s : State} {addr : RbAddr} (h : readsAnyValue s addr = false) (any any' : Word) :
    memRead any s addr = memRead any' s addr := by
  obtain ⟨hbusy, hnode, hcode⟩ := readsAnyValue_eq_false h
  unfold memRead
  refine ite_congr rfl (fun _ => rfl) fun h0 => ?_
  have hidle : s.busy = false := hbusy fun ha => h0 (by rw [ha]; rfl)
  refine ite_congr rfl (fun hb => absurd (hidle.symm.trans hb) nofun) fun _ => ?_
  iterate 7 refine ite_congr rfl (fun _ => rfl) fun _ => ?_
  refine ite_congr rfl (fun hi => ?_) fun _ => ?_
  · have hdef : (isLeaf (BitVec.ofNat 10 (addr.toNat - 0x1000)) || inTree s (addr.toNat - 0x1000)) = true := by
      rw [isLeaf_ofNat (by omega), Bool.or_eq_true, decide_eq_true_iff]
      exact (Nat.lt_or_ge addr.toNat 0x1101).imp (by omega) fun hlo => hnode hlo hi.2
    rw [nodeWord_defined any hdef, nodeWord_defined any' hdef]
  refine ite_congr rfl (fun hi => ?_) fun _ => ite_congr rfl (fun hi => ?_) fun _ => rfl
  · rw [if_pos (hcode (.inl hi)), if_pos (hcode (.inl hi))]
  · rw [if_pos (hcode (.inr hi)), if_pos (hcode (.inr hi))]

/-! ### The host bus -/

/-- The lane that carries byte `j` is `order.symm j`. -/
theorem wordToBus_lane_of_byte (order : Equiv.Perm (Fin 8)) (w : Word) (j : Fin 8) :
    (wordToBus order w)[(order.symm j).val] = wordByte w j := by
  simp [wordToBus]

/-- The eight bytes of a word, the most significant first, make the word. -/
theorem wordByte_join (w : Word) :
    wordByte w 7 ++ wordByte w 6 ++ wordByte w 5 ++ wordByte w 4 ++ wordByte w 3 ++ wordByte w 2 ++ wordByte w 1 ++
      wordByte w 0 = w := by
  unfold wordByte
  simp (disch := decide) only [BitVec.extractLsb'_append_extractLsb'_eq_extractLsb']
  exact BitVec.extractLsb'_eq_self

theorem wordFromBus_wordToBus (order : Equiv.Perm (Fin 8)) (w : Word) :
    wordFromBus order (wordToBus order w) = w := by
  simp only [wordFromBus, wordToBus_lane_of_byte]
  exact wordByte_join w

/-! ### The free draws -/

theorem hostMove_draws (m : HostMove) (s : State) : s.draws ≤ (hostMove m s).2.draws := by
  cases m with
  | read addr => exact Nat.le_succ s.draws
  | write w => exact Nat.le_refl s.draws
  | drainEout => exact (drainE_draws s).ge
  | drainDout => exact (drainD_draws s).ge
  | reset => exact Nat.le_refl s.draws

theorem step_draws {s t : State} (h : step s = .next t) : t.draws = s.draws :=
  step_keeps (P := fun u => u.draws = s.draws) (fun _ hu => hu) (fun e u _ hu => (raiseErr_draws u e).trans hu)
    (fun i u v _ _ hu he => by
      obtain ⟨-, -, -, -, hdraws, -⟩ := effectOf_frame he
      exact hdraws.trans hu)
    rfl h

end Sys2Proof.Machine
end

section
/-! Settled statements: the readback port, the host bus and the free draws. -/

namespace Sys2Proof.Machine

/-- Settles O50, row by row of the map. -/
theorem readbackFollowsTheMap : Obligations.ReadbackFollowsTheMap := by
  intro any s hb
  obtain ⟨hroot, hnleaf, hacc, hcur, heout, hdout⟩ := memRead_registers any hb
  have haddr : ∀ a, a < 0x10000 → (BitVec.ofNat 16 a).toNat = a := fun a ha => by
    rw [BitVec.toNat_ofNat, Nat.mod_eq_of_lt ha]
  have hnode : ∀ i, i ≤ 512 → memRead any s (BitVec.ofNat 16 (0x1000 + i)) = nodeWord any s i := fun i hi =>
    memRead_node any hb (haddr _ (by omega)) hi
  refine ⟨memRead_status any s, hroot, hnleaf, hacc, hcur, heout, hdout, fun k hk => ?_, fun i hi => ?_,
    fun k hk htv hin => ?_, fun i hi => ?_, fun htv k hk => ?_, fun a ha hun => ?_⟩
  · exact memRead_freq any hb (haddr _ (by omega)) hk
  · rw [hnode i (by omega), nodeWord_leaf any s hi]
    simp
  · have ht : inTree s (257 + k) = true := inTree_iff.2 ⟨htv, by rwa [if_neg (by omega)]⟩
    have hw := hnode (257 + k) (by omega)
    rw [← Nat.add_assoc] at hw
    rw [hw, nodeWord_internal any hk ht]
    simp [slotAt]
  · obtain ⟨left, right, count, hw⟩ := nodeWord_flags any s i
    rw [hnode i hi, hw, isLeaf_ofNat hi, ← inTree_iff, nodeLayout_tree]
    exact ⟨nodeLayout_leaf .., Iff.rfl, nodeLayout_reserved ..⟩
  · have hmeta := memRead_codeMeta any hb (haddr (0x2000 + k) (by omega)) hk
    rw [if_pos htv] at hmeta
    rw [hmeta]
    refine ⟨codeMetaWord_len s k, codeMetaWord_valid s k, codeMetaWord_reserved s k, fun j hj => ?_⟩
    rw [Nat.add_assoc, memRead_codeBits any hb (haddr _ (by omega)) (by omega), if_pos htv, codeBitsWord,
      show (4 * k + j) / 4 = k by omega, show (4 * k + j) % 4 = j by omega]
  · exact memRead_unmapped any hb (by rwa [haddr a ha])

/-- Settles O51: the defined words by the rows of the map; where a field is open, the draw that holds the wanted value. -/
theorem onlyTheAnyValueCasesAreFree : Obligations.OnlyTheAnyValueCasesAreFree := by
  intro s addr
  refine ⟨memRead_eq_of_defined, fun h0 hb v => ⟨v, memRead_busy v h0 hb⟩, fun hb htv hrange v => ⟨v, ?_⟩,
    fun hb hlo hhi ht l r c => ⟨nodeLayout l r false false c, ?_⟩⟩
  · obtain ⟨hlo, hhi⟩ | ⟨hlo, hhi⟩ := hrange
    · rw [memRead_codeMeta v hb (Nat.add_sub_of_le hlo).symm (by omega), htv]
      rfl
    · rw [memRead_codeBits v hb (Nat.add_sub_of_le hlo).symm (by omega), htv]
      rfl
  · rw [memRead_node _ hb (i := addr.toNat - 0x1000) (by omega) (by omega), nodeWord_free _ (by omega) ht]
    rw [nodeLayout_left, nodeLayout_right, nodeLayout_count, nodeLayout_outside]

/-- Settles O54: lane `order.symm j` carries byte `j`, and the eight bytes make the word. -/
theorem busOrderIsInvisible : Obligations.BusOrderIsInvisible :=
  fun order w s => ⟨wordFromBus_wordToBus order w, congrArg (writeCommand · s) (wordFromBus_wordToBus _ w)⟩

/-- Settles O57: only a readback moves the counter, by 1. -/
theorem everyReadTakesAFreshDraw : Obligations.EveryReadTakesAFreshDraw :=
  ⟨fun s addr => ⟨rfl, readPort_draws addr s⟩, fun s m => hostMove_draws m s, fun _ _ => step_draws⟩

/-- Settles O52: the second read finds the same state but for the counter, so only its draw differs. -/
theorem readbackHasNoSideEffect : Obligations.ReadbackHasNoSideEffect :=
  fun _ _ => ⟨rfl, fun h => congrArg HostReply.word (memRead_eq_of_defined h _ _)⟩

end Sys2Proof.Machine
end

section
/-! SUPPORT. Which words are legal, field by field (30_encoding.md R71 to R76), and what an illegal word does. -/

namespace Sys2Proof

/-! ### The fields of a word -/

@[simp] theorem opField_and (w v : Word) : opField (w &&& v) = opField w &&& opField v := BitVec.extractLsb'_and

@[simp] theorem rsvField_and (w v : Word) : rsvField (w &&& v) = rsvField w &&& rsvField v := BitVec.extractLsb'_and

@[simp] theorem argField_and (w v : Word) : argField (w &&& v) = argField w &&& argField v := BitVec.extractLsb'_and

@[simp] theorem dataField_and (w v : Word) : dataField (w &&& v) = dataField w &&& dataField v :=
  BitVec.extractLsb'_and

/-- OP, RSV, ARG and DATA cover the word (30_encoding.md R71). -/
theorem append_fields (w : Word) : opField w ++ rsvField w ++ argField w ++ dataField w = w := by
  simp only [opField, rsvField, argField, dataField]
  rw [BitVec.extractLsb'_append_extractLsb'_eq_extractLsb' (show 60 = 41 + 19 from rfl),
    BitVec.extractLsb'_append_extractLsb'_eq_extractLsb' (show 41 = 32 + 9 from rfl),
    BitVec.extractLsb'_append_extractLsb'_eq_extractLsb' (show 32 = 0 + 32 from rfl)]
  exact BitVec.extractLsb'_eq_self

theorem word_eq_iff_fields {w v : Word} : w = v ↔
    opField w = opField v ∧ rsvField w = rsvField v ∧ argField w = argField v ∧ dataField w = dataField v := by
  constructor
  · rintro rfl
    exact ⟨rfl, rfl, rfl, rfl⟩
  · rintro ⟨hop, hrsv, harg, hdata⟩
    rw [← append_fields w, hop, hrsv, harg, hdata, append_fields v]

/-! ### The decoder and the encoder -/

/-- The decoder inverts the encoder, on operands out of the command's range too (30_encoding.md R76). -/
theorem decode_encode (i : Instr) : decode (encode i) = .ok i := by
  obtain ⟨hop, hrsv, harg, hdata⟩ := Laws.EncodedFields.of_encode i
  rw [decode, if_neg (not_not.2 hrsv), hop]
  cases i with
  | ldfreq sym count => exact congrArg Except.ok (congrArg₂ Instr.ldfreq harg hdata)
  | enc arg => exact (if_pos hdata).trans (congrArg (Except.ok ∘ Instr.enc) harg)
  | decByte arg => exact (if_pos hdata).trans (congrArg (Except.ok ∘ Instr.decByte) harg)
  | nop | clear | build | encEnd | decStart | decEnd | clrerr => exact if_pos ⟨harg, hdata⟩

theorem encode_of_fields {w : Word} {i : Instr} (hrsv : rsvField w = 0#19) (hop : opField w = opcode i)
    (harg : argField w = encodedArg i) (hdata : dataField w = encodedData i) : encode i = w := by
  rw [encode, ← hop, ← harg, ← hdata, commandWord_fields w hrsv]

theorem encode_of_decode {w : Word} {i : Instr} (h : decode w = .ok i) : encode i = w := by
  obtain ⟨hrsv, hop, harg, hdata⟩ := decode_ok_fields h
  exact encode_of_fields hrsv hop harg hdata

theorem decode_eq_ok_iff {w : Word} {i : Instr} : decode w = .ok i ↔ w = encode i :=
  ⟨fun h => (encode_of_decode h).symm, fun h => h ▸ decode_encode i⟩

theorem decode_eq_ok_iff_fields {w : Word} {i : Instr} : decode w = .ok i ↔
    rsvField w = 0#19 ∧ opField w = opcode i ∧ argField w = encodedArg i ∧ dataField w = encodedData i :=
  ⟨decode_ok_fields, fun ⟨hrsv, hop, harg, hdata⟩ =>
    decode_eq_ok_iff.2 (encode_of_fields hrsv hop harg hdata).symm⟩

/-! ### Legal words by match and mask (30_encoding.md R73, R74) -/

/-- A mask and match, field by field. -/
theorem and_eq_commandWord_iff (w mask : Word) (op : BitVec 4) :
    w &&& mask = commandWord op 0#9 0#32 ↔
      opField w &&& opField mask = op ∧ rsvField w &&& rsvField mask = 0#19 ∧
        argField w &&& argField mask = 0#9 ∧ dataField w &&& dataField mask = 0#32 := by
  rw [word_eq_iff_fields, opField_commandWord, rsvField_commandWord, argField_commandWord, dataField_commandWord,
    opField_and, rsvField_and, argField_and, dataField_and]

/-- The mask of LDFREQ covers OP and RSV. -/
theorem and_opRsvMask_eq_iff (w : Word) (op : BitVec 4) :
    w &&& 0xFFFFFE0000000000#64 = commandWord op 0#9 0#32 ↔ rsvField w = 0#19 ∧ opField w = op := by
  rw [and_eq_commandWord_iff, show opField 0xFFFFFE0000000000#64 = BitVec.allOnes 4 from rfl,
    show rsvField 0xFFFFFE0000000000#64 = BitVec.allOnes 19 from rfl,
    show argField 0xFFFFFE0000000000#64 = 0#9 from rfl, show dataField 0xFFFFFE0000000000#64 = 0#32 from rfl]
  simp only [BitVec.and_allOnes, BitVec.and_zero, and_true]
  exact and_comm

/-- The mask of ENC and DEC_BYTE covers OP, RSV and DATA. -/
theorem and_opRsvDataMask_eq_iff (w : Word) (op : BitVec 4) :
    w &&& 0xFFFFFE00FFFFFFFF#64 = commandWord op 0#9 0#32 ↔
      rsvField w = 0#19 ∧ opField w = op ∧ dataField w = 0#32 := by
  rw [and_eq_commandWord_iff, show opField 0xFFFFFE00FFFFFFFF#64 = BitVec.allOnes 4 from rfl,
    show rsvField 0xFFFFFE00FFFFFFFF#64 = BitVec.allOnes 19 from rfl,
    show argField 0xFFFFFE00FFFFFFFF#64 = 0#9 from rfl,
    show dataField 0xFFFFFE00FFFFFFFF#64 = BitVec.allOnes 32 from rfl]
  simp only [BitVec.and_allOnes, BitVec.and_zero, true_and]
  exact and_left_comm

theorem exists_decode_ldfreq_iff {w : Word} :
    (∃ sym count, decode w = .ok (.ldfreq sym count)) ↔ rsvField w = 0#19 ∧ opField w = 0x2#4 := by
  simp [decode_eq_ok_iff_fields, opcode, encodedArg, encodedData]

theorem exists_decode_enc_iff {w : Word} :
    (∃ arg, decode w = .ok (.enc arg)) ↔ rsvField w = 0#19 ∧ opField w = 0x4#4 ∧ dataField w = 0#32 := by
  simp [decode_eq_ok_iff_fields, opcode, encodedArg, encodedData]

theorem exists_decode_decByte_iff {w : Word} :
    (∃ arg, decode w = .ok (.decByte arg)) ↔ rsvField w = 0#19 ∧ opField w = 0x7#4 ∧ dataField w = 0#32 := by
  simp [decode_eq_ok_iff_fields, opcode, encodedArg, encodedData]

/-! ### What each command's fields say -/

theorem opcode_toNat_lt (i : Instr) : (opcode i).toNat < 0xA := by
  cases i <;> simp [opcode]

/-- Only LDFREQ uses DATA (30_encoding.md R73). -/
theorem encodedData_eq_zero {i : Instr} (h : opcode i ≠ 0x2#4) : encodedData i = 0#32 := by
  cases i with
  | ldfreq sym count => exact absurd rfl h
  | nop | clear | build | enc _ | encEnd | decStart | decByte _ | decEnd | clrerr => rfl

/-- Only LDFREQ, ENC and DEC_BYTE use ARG (30_encoding.md R73). -/
theorem encodedArg_eq_zero {i : Instr} (h2 : opcode i ≠ 0x2#4) (h4 : opcode i ≠ 0x4#4) (h7 : opcode i ≠ 0x7#4) :
    encodedArg i = 0#9 := by
  cases i with
  | ldfreq sym count => exact absurd rfl h2
  | enc arg => exact absurd rfl h4
  | decByte arg => exact absurd rfl h7
  | nop | clear | build | encEnd | decStart | decEnd | clrerr => rfl

namespace Machine

/-- An illegal word is dropped while FATAL, and else raises ILLEGAL alone (30_encoding.md R74, 60_exceptions.md
R184). -/
theorem performWord_illegal {w : Word} (h : ∀ i, decode w ≠ .ok i) (s : State) :
    performWord w s = .next (if s.fatal = true then s else afterError .illegal s) := by
  rw [performWord_of_illegal h, rejectIllegal_eq, raiseError_eq]

theorem performWord_illegal_of_not_fatal {w : Word} (h : ∀ i, decode w ≠ .ok i) {s : State} (hf : s.fatal = false) :
    performWord w s = .next (afterError .illegal s) := by
  rw [performWord_illegal h, hf]
  rfl

end Machine

end Sys2Proof
end

section
/-! SUPPORT. The assembler: what the pseudo-commands expand to (30_encoding.md R79), and that a line's instructions are
well formed (R78). -/

namespace Sys2Proof.Machine

/-! ### Pseudo-commands -/

theorem loadCounts_eq_mapIdx (sym : Nat) (counts : List Freq) :
    loadCounts sym counts = counts.mapIdx fun k c => .ldfreq (BitVec.ofNat 9 (sym + k)) c := by
  induction counts generalizing sym with
  | nil => rfl
  | cons c counts ih =>
    rw [loadCounts, ih, List.mapIdx_cons]
    simp only [Nat.add_zero, Nat.add_assoc, Nat.add_comm 1]

theorem expand_ldtable (counts : Vector Freq Config.nsym) :
    expand (.ldtable counts) = counts.toList.mapIdx fun k c => .ldfreq (BitVec.ofNat 9 k) c := by
  rw [expand, loadCounts_eq_mapIdx]
  simp only [Nat.zero_add]

theorem ldfreq_wellFormed {sym : Nat} (count : Freq) (h : sym < Config.nsym) :
    (Instr.ldfreq (BitVec.ofNat 9 sym) count).wellFormed = true := by
  have h' : sym < 257 := h
  rw [Instr.wellFormed, decide_eq_true_eq, BitVec.toNat_ofNat, Nat.mod_eq_of_lt (by omega)]
  exact h

/-- The commands with one byte operand. -/
def IsByteCommand (mk : Arg → Instr) : Prop := ∀ arg : Arg, arg.toNat < Config.nbyte → (mk arg).wellFormed = true

theorem isByteCommand_enc : IsByteCommand .enc := fun _ h => decide_eq_true h

theorem isByteCommand_decByte : IsByteCommand .decByte := fun _ h => decide_eq_true h

theorem byteArg_lt (b : Byte) : (byteArg b).toNat < Config.nbyte := by
  rw [byteArg, BitVec.toNat_setWidth_of_le (by omega)]
  exact b.isLt

theorem expand_wellFormed (p : Pseudo) : ∀ i ∈ expand p, i.wellFormed = true := by
  intro i hi
  cases p with
  | ldtable counts =>
    rw [expand_ldtable, List.mem_mapIdx] at hi
    obtain ⟨k, hk, rfl⟩ := hi
    exact ldfreq_wellFormed _ (by simpa using hk)
  | encstream bytes =>
    obtain ⟨b, -, rfl⟩ | rfl : (∃ b ∈ bytes, .enc (byteArg b) = i) ∨ i = .encEnd := by simpa [expand] using hi
    · exact isByteCommand_enc _ (byteArg_lt b)
    · rfl
  | decstream body =>
    obtain rfl | ⟨b, -, rfl⟩ | rfl : i = .decStart ∨ (∃ b ∈ body, .decByte (byteArg b) = i) ∨ i = .decEnd := by
      simpa [expand] using hi
    · rfl
    · exact isByteCommand_decByte _ (byteArg_lt b)
    · rfl

/-! ### Lines -/

/-- What a line is assembled to, if anything, is well formed. -/
def LineWellFormed (r : Option (List Instr)) : Prop := ∀ is, r = some is → ∀ i ∈ is, i.wellFormed = true

theorem lineWellFormed_none : LineWellFormed none := nofun

theorem lineWellFormed_nil : LineWellFormed (some []) := by
  rintro _ ⟨⟩
  nofun

theorem lineWellFormed_single {i : Instr} (h : i.wellFormed = true) : LineWellFormed (some [i]) := by
  rintro _ ⟨⟩ j hj
  rwa [List.mem_singleton.1 hj]

theorem lineWellFormed_expand (p : Pseudo) : LineWellFormed (some (expand p)) := by
  rintro _ ⟨⟩
  exact expand_wellFormed p

theorem LineWellFormed.ite {c : Prop} [Decidable c] {r r' : Option (List Instr)} (h : LineWellFormed r)
    (h' : LineWellFormed r') : LineWellFormed (if c then r else r') :=
  iteInduction (fun _ => h) fun _ => h'

theorem lt_of_inBound {bound n : Nat} {v : Option Nat} (h : inBound bound v = some n) : n < bound := by
  obtain ⟨-, hn⟩ := Option.filter_eq_some_iff.1 h
  exact of_decide_eq_true hn

theorem plainLine_wellFormed {i : Instr} (h : i.wellFormed = true) (ops : List Token) :
    LineWellFormed (plainLine i ops) := by
  cases ops with
  | nil => exact lineWellFormed_single h
  | cons t ts => exact lineWellFormed_none

theorem byteLine_wellFormed {mk : Arg → Instr} (hmk : IsByteCommand mk) (ops : List Token) :
    LineWellFormed (byteLine mk ops) := by
  unfold byteLine
  split
  · rename_i t
    cases hn : inBound Config.nbyte (byteOf t) with
    | none => exact lineWellFormed_none
    | some n =>
      have hlt : n < 256 := lt_of_inBound hn
      refine lineWellFormed_single (hmk _ ?_)
      rw [BitVec.toNat_ofNat, Nat.mod_eq_of_lt (by omega)]
      exact hlt
  · exact lineWellFormed_none

theorem ldfreqLine_wellFormed (ops : List Token) : LineWellFormed (ldfreqLine ops) := by
  unfold ldfreqLine
  split
  · split
    · rename_i sym count hsym hcount
      exact lineWellFormed_single (ldfreq_wellFormed _ (lt_of_inBound hsym))
    · exact lineWellFormed_none
  · exact lineWellFormed_none

theorem ldtableLine_wellFormed (ops : List Token) : LineWellFormed (ldtableLine ops) := by
  unfold ldtableLine
  split
  · split
    · exact lineWellFormed_expand _
    · exact lineWellFormed_none
  · exact lineWellFormed_none

theorem streamLine_wellFormed (mk : List Byte → Pseudo) (ops : List Token) : LineWellFormed (streamLine mk ops) := by
  unfold streamLine
  cases valuesOf byteOf Config.nbyte ops with
  | none => exact lineWellFormed_none
  | some ns => exact lineWellFormed_expand _

/-- Mnemonic by mnemonic, in the order of `commandLine`. -/
theorem commandLine_wellFormed (mnemonic : List Char) (ops : List Token) : LineWellFormed (commandLine mnemonic ops) :=
  .ite (plainLine_wellFormed rfl ops) <|
  .ite (plainLine_wellFormed rfl ops) <|
  .ite (ldfreqLine_wellFormed ops) <|
  .ite (plainLine_wellFormed rfl ops) <|
  .ite (byteLine_wellFormed isByteCommand_enc ops) <|
  .ite (plainLine_wellFormed rfl ops) <|
  .ite (plainLine_wellFormed rfl ops) <|
  .ite (byteLine_wellFormed isByteCommand_decByte ops) <|
  .ite (plainLine_wellFormed rfl ops) <|
  .ite (plainLine_wellFormed rfl ops) <|
  .ite (ldtableLine_wellFormed ops) <|
  .ite (streamLine_wellFormed _ ops) <|
  .ite (streamLine_wellFormed _ ops) lineWellFormed_none

theorem assembleLine_wellFormed (line : List Char) : LineWellFormed (assembleLine line) := by
  unfold assembleLine
  split
  · exact lineWellFormed_none
  · exact lineWellFormed_nil
  · rename_i m rest htokens
    cases operands rest with
    | none => exact lineWellFormed_none
    | some ops => exact commandLine_wellFormed m ops
  · exact lineWellFormed_none
  · exact lineWellFormed_none

/-! ### BADARG -/

theorem firstFailing_mem {cs : List (Bool × ErrCode)} {e : ErrCode} (h : firstFailing cs = some e) :
    (true, e) ∈ cs := by
  induction cs with
  | nil => cases h
  | cons c cs ih =>
    obtain ⟨fails, e'⟩ := c
    cases fails with
    | true => cases h; exact List.mem_cons_self
    | false => exact List.mem_cons_of_mem _ (ih h)

/-- BADARG is the failing check of exactly the ill-formed instructions (30_encoding.md R72, R78). -/
theorem badarg_mem_checksOf_iff (i : Instr) (s : State) :
    (true, ErrCode.badarg) ∈ checksOf i s ↔ i.wellFormed = false := by
  cases i with
  | ldfreq sym count => simp [checksOf, Instr.wellFormed, symbolInRange]
  | enc arg => simp [checksOf, Instr.wellFormed, byteInRange]
  | decByte arg => simp [checksOf, Instr.wellFormed, byteInRange]
  | nop | clear | build | encEnd | decStart | decEnd | clrerr => simp [checksOf, Instr.wellFormed]

theorem exec_badarg_of_wellFormed {i : Instr} {s t : State} (hi : i.wellFormed = true) (h : exec i s = .next t)
    (ht : t.errCode = .badarg) : s.errCode = .badarg := by
  obtain ⟨-, rfl⟩ | ⟨-, e, hc, rfl⟩ | ⟨-, -, he⟩ := exec_cases h
  · exact ht
  · have hbadarg : e ≠ .badarg := by
      rintro rfl
      simp [(badarg_mem_checksOf_iff i s).1 (firstFailing_mem hc)] at hi
    by_cases hnocode : e = .nocode
    · subst hnocode; cases ht
    · rw [raiseErr_errCode_of_nonfatal s hnocode] at ht
      split at ht
      · exact absurd ht hbadarg
      · exact ht
  · obtain ⟨-, -, -, -, -, hcode | ⟨-, hcode⟩⟩ := effectOf_frame he
    · exact hcode ▸ ht
    · rw [hcode] at ht; cases ht

end Sys2Proof.Machine
end

section
/-! Settled statements: the encoding of commands, illegal words and the assembler. -/

namespace Sys2Proof.Machine

/-- Settles O1: the encoder's fields lead the decoder to the same command. -/
theorem decodeOfEncodeIsTheInstruction : Obligations.DecodeOfEncodeIsTheInstruction := decode_encode

/-- Settles O2: the fields of a legal word are those of its command, and the fields make the word. -/
theorem encodeOfDecodeIsTheWord : Obligations.EncodeOfDecodeIsTheWord := fun _ _ => encode_of_decode

/-- Settles O3: a plain command has one word, the others are selected by the fields their mask covers. -/
theorem legalWordsMatchTheTable : Obligations.LegalWordsMatchTheTable := by
  intro w
  refine ⟨decode_eq_ok_iff, decode_eq_ok_iff, exists_decode_ldfreq_iff.trans (and_opRsvMask_eq_iff w 0x2#4).symm,
    decode_eq_ok_iff, exists_decode_enc_iff.trans (and_opRsvDataMask_eq_iff w 0x4#4).symm,
    decode_eq_ok_iff, decode_eq_ok_iff, exists_decode_decByte_iff.trans (and_opRsvDataMask_eq_iff w 0x7#4).symm,
    decode_eq_ok_iff, decode_eq_ok_iff, fun hrsv i hd => ?_, fun hop hdata i hd => ?_,
    fun h2 h4 h7 harg i hd => ?_, fun h s hf => performWord_illegal_of_not_fatal h hf⟩
  all_goals obtain ⟨hrsv', hop', harg', hdata'⟩ := decode_ok_fields hd
  · exact hrsv hrsv'
  · exact hdata (hdata'.trans (encodedData_eq_zero (hop' ▸ hop)))
  · exact harg (harg'.trans (encodedArg_eq_zero (hop' ▸ h2) (hop' ▸ h4) (hop' ▸ h7)))

/-- Settles O55: LDFREQ of the k-th count stands at place k; the streams expand by definition. -/
theorem pseudoCommandsExpandAsWritten : Obligations.PseudoCommandsExpandAsWritten := by
  refine ⟨fun counts => ?_, fun _ => rfl, fun _ => rfl⟩
  rw [expand_ldtable]
  refine ⟨by simp, fun k hk => ?_⟩
  rw [List.getElem?_mapIdx, List.getElem?_eq_getElem (by simpa using hk)]
  simp

/-- Settles O56: each kind of line bounds its operands, and only an ill-formed instruction fails a BADARG check. -/
theorem assembledCodeNeverRaisesBadarg : Obligations.AssembledCodeNeverRaisesBadarg :=
  ⟨assembleLine_wellFormed, fun _ _ _ => exec_badarg_of_wellFormed⟩

/-- Settles O4: no command has such an OP. -/
theorem reservedOpcodesAreIllegal : Obligations.ReservedOpcodesAreIllegal := by
  intro w hw
  have hillegal : ∀ i, decode w ≠ .ok i := by
    intro i hd
    obtain ⟨-, hop, -⟩ := decode_ok_fields hd
    exact absurd (opcode_toNat_lt i) (Nat.not_lt.2 (hop ▸ hw))
  exact ⟨hillegal, fun s hf => performWord_illegal_of_not_fatal hillegal hf⟩

/-- Settles O5: each legal example is the word of its command; the four illegal ones are read by the decoder. -/
theorem exampleWordsDecodeAsWritten : Obligations.ExampleWordsDecodeAsWritten :=
  ⟨decode_encode .nop, decode_encode .clear, decode_encode (.ldfreq 97#9 2#32), decode_encode (.ldfreq 256#9 1#32),
    decode_encode .build, decode_encode (.enc 0x61#9), decode_encode .encEnd, decode_encode .decStart,
    decode_encode (.decByte 0x2C#9), decode_encode .decEnd, decode_encode .clrerr,
    by decide, by decide, by decide, by decide,
    decode_encode (.ldfreq 257#9 5#32), decode_encode (.enc 256#9)⟩

/-- Settles O7: the step performs the word at the port, an illegal one. -/
theorem stepRejectsAnIllegalWord : Obligations.StepRejectsAnIllegalWord := by
  intro s w hb hw hd
  rw [step_eq_of_word hb hw, performWord_illegal hd]
  cases hf : s.fatal <;> rfl

end Sys2Proof.Machine
end

section
/-! SUPPORT. Checks that fail, illegal words by their OP, the word of LDFREQ, and the table that CLEAR leaves. -/

namespace Sys2Proof

/-- With an OP that uses neither ARG nor DATA, only the word with those fields 0 is legal (30_encoding.md R73, R74). -/
theorem decode_ne_ok_of_plain_op {w : Word} {op : BitVec 4} (h2 : op ≠ 0x2#4) (h4 : op ≠ 0x4#4) (h7 : op ≠ 0x7#4)
    (hop : opField w = op) (hw : w ≠ commandWord op 0#9 0#32) (i : Instr) : decode w ≠ .ok i := by
  intro hd
  obtain ⟨-, hopi, -⟩ := decode_ok_fields hd
  have hi : opcode i = op := hopi.symm.trans hop
  apply hw
  rw [← encode_of_decode hd, encode, encodedData_eq_zero (hi ▸ h2),
    encodedArg_eq_zero (hi ▸ h2) (hi ▸ h4) (hi ▸ h7), hi]

theorem decode_ne_ok_of_rsvField {w : Word} (h : rsvField w ≠ 0#19) (i : Instr) : decode w ≠ .ok i := by
  intro hd
  obtain ⟨hrsv, -⟩ := decode_ok_fields hd
  exact h hrsv

/-- The word of LDFREQ as the OR of its fields at their places (30_encoding.md R71). -/
theorem encode_ldfreq_eq_or (sym : Arg) (count : Freq) :
    encode (.ldfreq sym count) = 0x2000000000000000#64 ||| (sym.setWidth 64 <<< 32) ||| count.setWidth 64 := by
  apply BitVec.eq_of_getLsbD_eq
  intro j hj
  rw [encode, commandWord_getLsbD, show opcode (.ldfreq sym count) = BitVec.twoPow 4 1 from rfl,
    show 0x2000000000000000#64 = BitVec.twoPow 64 61 from rfl]
  simp only [encodedArg, encodedData, BitVec.getLsbD_or, BitVec.getLsbD_shiftLeft, BitVec.getLsbD_setWidth,
    BitVec.getLsbD_twoPow]
  have hlow : j < 60 → 61 ≠ j := by omega
  split_ifs with h32 h41 h60
  · simp [h32, hj, hlow (by omega)]
  · simp [h32, show j - 32 < 64 by omega, hlow (by omega), BitVec.getLsbD_of_ge count j (by omega), hj]
  · simp [hlow h60, BitVec.getLsbD_of_ge count j (by omega), BitVec.getLsbD_of_ge sym (j - 32) (by omega)]
  · have hbit : 1 = j - 60 ↔ 61 = j := by omega
    simp [hbit, BitVec.getLsbD_of_ge count j (by omega), BitVec.getLsbD_of_ge sym (j - 32) (by omega)]

namespace Machine

theorem streamOpen_eq_true {s : State} : streamOpen s = true ↔ s.encOpen = true ∨ s.decState = .run := by
  simp [streamOpen]

/-- A check that fails with a code other than NOCODE records that code alone (60_exceptions.md R181). -/
theorem exec_rejected_nonfatal {i : Instr} {s : State} {e : ErrCode} (hf : s.fatal = false) (he : e ≠ .nocode)
    (hc : firstFailing (checksOf i s) = some e) : exec i s = .next (afterError e s) := by
  rw [exec_rejected hf hc, raiseErr_nonfatal s he, raiseError_eq]

theorem exec_clear_of_open {s : State} (hf : s.fatal = false) (ho : s.encOpen = true ∨ s.decState = .run) :
    exec .clear s = .next (afterError .seq s) :=
  exec_rejected_nonfatal hf (by decide) (by rw [checksOf, streamOpen_eq_true.2 ho]; rfl)

theorem exec_clear_of_closed {s : State} (hf : s.fatal = false) (hc : s.encOpen = false ∧ s.decState ≠ .run) :
    exec .clear s = .next { s with freq := preScanTable, treeValid := false } :=
  exec_performed hf (by rw [checksOf, streamOpen_eq_false.2 hc]; rfl)

theorem symbolInRange_iff {sym : Arg} : symbolInRange sym = true ↔ sym.toNat ≤ 256 := by
  rw [symbolInRange, decide_eq_true_iff]
  exact Nat.lt_succ_iff

theorem exec_ldfreq_out_of_range {sym : Arg} (count : Freq) {s : State} (hf : s.fatal = false) (hs : 256 < sym.toNat) :
    exec (.ldfreq sym count) s = .next (afterError .badarg s) := by
  have hr : symbolInRange sym = false := Bool.eq_false_iff.2 fun h => Nat.not_le.2 hs (symbolInRange_iff.1 h)
  exact exec_rejected_nonfatal hf (by decide) (by rw [checksOf, hr]; rfl)

theorem exec_ldfreq_of_open {sym : Arg} (count : Freq) {s : State} (hf : s.fatal = false) (hs : sym.toNat ≤ 256)
    (ho : s.encOpen = true ∨ s.decState = .run) : exec (.ldfreq sym count) s = .next (afterError .seq s) :=
  exec_rejected_nonfatal hf (by decide)
    (by rw [checksOf, symbolInRange_iff.2 hs, streamOpen_eq_true.2 ho]; rfl)

theorem exec_ldfreq_of_closed {sym : Arg} (count : Freq) {s : State} (hf : s.fatal = false) (hs : sym.toNat ≤ 256)
    (hc : s.encOpen = false ∧ s.decState ≠ .run) :
    exec (.ldfreq sym count) s = .next { setFreq s sym.toNat count with treeValid := false } :=
  exec_performed hf (by rw [checksOf, symbolInRange_iff.2 hs, streamOpen_eq_false.2 hc]; rfl)

/-- The pre-scan table is the one of reset (40_freq_table.md R100, 10_state.md R47). -/
theorem freqAt_of_preScanTable {s : State} (h : s.freq = preScanTable) {k : Nat} (hk : k < 257) :
    freqAt s k = if k = 256 then 1#32 else 0#32 := by
  rw [← freqAt_reset hk, freqAt, h]
  rfl

end Machine

end Sys2Proof
end

section
/-! SUPPORT. The decoder reaches DONE only by way of an end-of-block leaf in the tree (43_decoder.md R150, R151). -/

namespace Sys2Proof.Machine

/-- A child of a node in the tree is in the tree (10_state.md R31). -/
theorem TreeIsFull.childOn_inTree {s : State} (hfull : TreeIsFull s) (htv : s.treeValid = true) {i : NodeIdx}
    (hin : inTree s i.toNat = true) {v : Bool} (hc : childOn s v i ≠ Config.noNode) :
    inTree s (childOn s v i).toNat = true := by
  cases hl : isLeaf i with
  | true => exact absurd (childOn_leaf v hl) hc
  | false =>
    have h257 : 257 ≤ i.toNat := Nat.not_lt.1 fun h => by simp [isLeaf_iff.2 h] at hl
    obtain ⟨hleft, hright, -⟩ := hfull htv i h257 hin
    cases v
    · exact hleft
    · exact hright

theorem inTree_eob_of_walkBit_done {v : Bool} {s t : State} (hs : BlockInvariant s) (hr : s.decState = .run)
    (h : walkBit v s = .next t) (ht : t.decState = .done) : inTree s 256 = true := by
  obtain ⟨⟨hvalid, -⟩, -, hfull, hcur, -⟩ := hs
  obtain ⟨-, ⟨-, rfl⟩ | ⟨heob, rfl⟩ | ⟨-, rfl⟩ | ⟨-, -, rfl⟩⟩ := walkBit_cases h
  · cases ht
  · have hc : childOn s v s.cur ≠ Config.noNode := fun hn => absurd (hn ▸ heob) (by decide)
    exact heob ▸ hfull.childOn_inTree (hvalid hr) (hcur hr) hc
  · exact absurd (hr.symm.trans ht) (by decide)
  · exact absurd (hr.symm.trans ht) (by decide)

theorem inTree_eob_of_walkBits_done (l : List Bool) {s t : State} (hs : BlockInvariant s) (hd : s.decState ≠ .done)
    (h : walkBits l s = .next t) (ht : t.decState = .done) : inTree s 256 = true := by
  induction l generalizing s with
  | nil => cases h; exact absurd ht hd
  | cons v l ih =>
    by_cases hr : s.decState = .run
    · obtain ⟨u, hu, hcur⟩ := walkBit_keeps (v := v) hs hr
      rw [walkBits, if_pos hr, hu] at h
      by_cases hud : u.decState = .done
      · exact inTree_eob_of_walkBit_done hs hr hu hud
      · obtain ⟨c, d, new, hw⟩ := walkBit_writes hu
        have hvalid : s.treeValid = true := hs.1.1 hr
        have hin := ih (hs.of_decoder hw (fun _ => hvalid) hcur) hud h
        rwa [hw] at hin
    · rw [walkBits_stopped _ hr] at h
      cases h
      exact absurd ht hd

/-- Only DEC_START on a lone end-of-block leaf and DEC_BYTE enter DONE. -/
theorem inTree_eob_of_effectOf_done {i : Instr} {s t : State} (hs : BlockInvariant s)
    (hc : firstFailing (checksOf i s) = none) (hd : s.decState ≠ .done) (h : effectOf i s = .next t)
    (ht : t.decState = .done) : inTree s 256 = true := by
  cases i with
  | nop | clear | ldfreq _ _ | clrerr => cases h; exact absurd ht hd
  | build =>
    cases h
    obtain ⟨n, r, l, c, hb⟩ := buildTree_writes s
    rw [hb] at ht
    exact absurd ht hd
  | enc arg => cases h; rw [writeCode_frame] at ht; exact absurd ht hd
  | encEnd => cases h; rw [closeStream_frame, writeCode_frame] at ht; exact absurd ht hd
  | decStart =>
    obtain ⟨-, htop, -⟩ := hs
    obtain ⟨-, -, hroot, -⟩ := htop (treeValid_of_checks (.inr (.inr rfl)) hc)
    cases h
    by_cases heob : s.root.toNat = 256
    · exact heob ▸ hroot
    · exact absurd ((if_neg heob).symm.trans ht) (by decide)
  | decByte arg => exact inTree_eob_of_walkBits_done _ hs hd h ht
  | decEnd =>
    cases h
    split at ht
    · cases ht
    · exact absurd ht hd

theorem inTree_eob_of_step_done {s t : State} (hs : BlockInvariant s) (hd : s.decState ≠ .done) (h : step s = .next t)
    (ht : t.decState = .done) : inTree s 256 = true := by
  obtain rfl | ⟨w, hb, hw⟩ := step_idle_or h
  · exact absurd ht hd
  obtain ⟨u, ho, rfl⟩ := step_outcome hb hw h
  cases ho with
  | dropped => exact absurd ht hd
  | illegal | rejected => exact absurd ((raiseErr_decState ..).symm.trans ht) hd
  | performed _ _ hc he => exact inTree_eob_of_effectOf_done hs hc hd he ht

end Sys2Proof.Machine
end

section
/-! Settled statements: the frequency table (40_freq_table.md). -/

namespace Sys2Proof.Machine

/-- Settles O32: a symbol with count 0 is not in the tree, so it has no code, and DONE is not reached. -/
theorem withoutEobLeafNoStreamEndsNormally : Obligations.WithoutEobLeafNoStreamEndsNormally := by
  intro s htv hfreq hs hcodes
  have hout : inTree s 256 ≠ true := fun h => (inTree_iff.1 h).2 hfreq
  refine ⟨fun hf => ?_, fun hd t h ht => hout (inTree_eob_of_step_done hs hd h ht)⟩
  obtain ⟨hvalid, -⟩ := hcodes htv 256 (by decide)
  have hcode : (codeAt s 256).valid = false := Bool.eq_false_iff.2 (hout ∘ hvalid.1)
  exact exec_rejected hf (e := .nocode) (by rw [checksOf, htv, hcode]; rfl)

/-- Settles O12: the one check, the effect on the table, and the readbacks by the map's FREQ row. -/
theorem clearFollowsItsRule : Obligations.ClearFollowsItsRule := by
  refine ⟨rfl, fun _ => exec_dropped _, fun _ => exec_clear_of_open, fun s hf he hd => ?_, fun w s hop hw hf => ?_⟩
  · refine ⟨_, exec_clear_of_closed hf ⟨he, hd⟩, rfl, ?_⟩
    generalize ht : { s with freq := preScanTable, treeValid := false } = t
    have hfreq : ∀ k, k < 257 → freqAt t k = if k = 256 then 1#32 else 0#32 :=
      fun k => freqAt_of_preScanTable (by rw [← ht])
    refine ⟨fun k hk => ?_, hfreq 256 (by decide), fun hb any => ?_⟩
    · rw [hfreq k (by omega), if_neg (by omega)]
    · have hbusy : t.busy = false := by rw [← ht]; exact hb
      rw [memRead_freq any hbusy (k := 256) rfl (by decide), memRead_freq any hbusy (k := 0x61) rfl (by decide),
        hfreq 256 (by decide), hfreq 0x61 (by decide)]
      decide
  · exact performWord_illegal_of_not_fatal
      (decode_ne_ok_of_plain_op (by decide) (by decide) (by decide) hop hw) hf

/-- Settles O13: the two checks in order, then the write of one entry. -/
theorem ldfreqFollowsItsRule : Obligations.LdfreqFollowsItsRule := by
  refine ⟨encode_ldfreq_eq_or, fun _ _ _ => exec_dropped _, fun _ count _ => exec_ldfreq_out_of_range count,
    fun _ count _ => exec_ldfreq_of_open count, fun sym count s hf hs he hd => ?_, fun w s _ hrsv hf => ?_⟩
  · refine ⟨_, exec_ldfreq_of_closed count hf hs ⟨he, hd⟩, rfl, ?_, fun k hk hne => ?_⟩
    · exact (freqAt_setFreq s _ _ count (Nat.lt_succ_of_le hs)).trans (if_pos rfl)
    · exact (freqAt_setFreq s _ _ count hk).trans (if_neg hne.symm)
  · exact performWord_illegal_of_not_fatal (decode_ne_ok_of_rsvField hrsv) hf

end Sys2Proof.Machine
end

section
/-! SUPPORT. BUILD by its table of counts: its checks, the leaves it queues, the codes of the smallest trees, its first
merge, and the sums over the symbols. -/

namespace Sys2Proof.Machine

/-! ### The leaf queue, by its counts (41_tree_builder.md R111) -/

theorem leafQueue_eq_filter_ne (s : State) : leafQueue s =
    ((List.range 257).filter fun k => decide (freqAt s k ≠ 0#32)).map (BitVec.ofNat 10) := by
  simp only [leafQueue_eq_filter, Nat.pos_iff_ne_zero, ← BitVec.toNat_ne_iff_ne]
  rfl

theorem length_leafQueue (s : State) :
    (leafQueue s).length = ((List.range 257).filter fun k => decide (freqAt s k ≠ 0#32)).length := by
  rw [leafQueue_eq_filter_ne, List.length_map]

theorem leafQueue_eq_nil {s : State} (h : ∀ k, k < 257 → freqAt s k = 0#32) : leafQueue s = [] := by
  rw [leafQueue_eq_filter_ne, List.map_eq_nil_iff, List.filter_eq_nil_iff]
  intro k hk
  simpa using h k (List.mem_range.1 hk)

/-- The symbols counted, listed once each, number the leaves. -/
theorem length_leafQueue_of_counted {s : State} {l : List Nat} (hl : l.Nodup) (hlt : ∀ k ∈ l, k < 257)
    (h : ∀ k, k < 257 → (freqAt s k ≠ 0#32 ↔ k ∈ l)) : (leafQueue s).length = l.length := by
  rw [length_leafQueue]
  refine ((List.perm_ext_iff_of_nodup (List.nodup_range.filter _) hl).2 fun k => ?_).length_eq
  rw [List.mem_filter, List.mem_range, decide_eq_true_iff]
  exact ⟨fun ⟨hk, hf⟩ => (h k hk).1 hf, fun hk => ⟨hlt k hk, (h k (hlt k hk)).2 hk⟩⟩

theorem mem_leafQueue_iff_ne {s : State} {i : NodeIdx} :
    i ∈ leafQueue s ↔ i.toNat < 257 ∧ freqAt s i.toNat ≠ 0#32 := by
  rw [mem_leafQueue, Nat.pos_iff_ne_zero, ← BitVec.toNat_ne_iff_ne]
  rfl

/-- The count of a leaf is read from FREQ (10_state.md R26). -/
theorem nodeCount_toNat_of_leaf {s u : State} (hfreq : u.freq = s.freq) {i : NodeIdx} (hi : i.toNat < 257) :
    (nodeCount u i).toNat = (freqAt s i.toNat).toNat := by
  have := (freqAt s i.toNat).isLt
  rw [nodeCount, isLeaf_iff.2 hi, if_pos rfl, BitVec.toNat_setWidth, freqAt, hfreq, ← freqAt,
    Nat.mod_eq_of_lt (by omega)]

/-- A weighted sum over the leaves is that over all symbols: a symbol without a leaf has the weight 0. -/
theorem weightedSum_leafQueue {s u : State} (hfreq : u.freq = s.freq) (f : Nat → Nat) :
    ((leafQueue s).map fun i => (nodeCount u i).toNat * f i.toNat).sum =
      ((List.range 257).map fun k => (freqAt s k).toNat * f k).sum := by
  have hleaves : ((leafQueue s).map fun i => (nodeCount u i).toNat * f i.toNat).sum =
      (((List.range 257).filter fun k => decide (freqAt s k ≠ 0#32)).map fun k => (freqAt s k).toNat * f k).sum := by
    rw [leafQueue_eq_filter_ne, List.map_map]
    refine congrArg List.sum (List.map_congr_left fun k hk => ?_)
    have hk : k < 257 := List.mem_range.1 (List.mem_of_mem_filter hk)
    have hidx : (BitVec.ofNat 10 k).toNat = k := toNat_slotIndex (by omega)
    rw [Function.comp_apply, nodeCount_toNat_of_leaf hfreq (by omega), hidx]
  have hrest : (((List.range 257).filter fun k => decide (¬ freqAt s k ≠ 0#32)).map
      fun k => (freqAt s k).toNat * f k).sum = 0 := by
    refine List.sum_eq_zero fun x hx => ?_
    obtain ⟨k, hk, rfl⟩ := List.mem_map.1 hx
    have hz : freqAt s k = 0#32 := by simpa using (List.mem_filter.1 hk).2
    rw [hz, BitVec.toNat_zero, Nat.zero_mul]
  rw [hleaves, ← List.sum_map_filter_add_sum_map_filter_not (fun k => freqAt s k ≠ 0#32) _ (List.range 257), hrest,
    Nat.add_zero]

/-! ### The checks of BUILD (41_tree_builder.md R110) -/

theorem exec_build_of_open {s : State} (hf : s.fatal = false) (ho : s.encOpen = true ∨ s.decState = .run) :
    exec .build s = .next (afterError .seq s) :=
  exec_rejected_nonfatal hf (by decide) (by rw [checksOf, streamOpen_eq_true.2 ho]; rfl)

theorem exec_build_of_empty {s : State} (hf : s.fatal = false) (hc : s.encOpen = false ∧ s.decState ≠ .run)
    (hq : leafQueue s = []) : exec .build s = .next (afterError .empty s) :=
  exec_rejected_nonfatal hf (by decide) (by rw [checksOf, streamOpen_eq_false.2 hc, hq]; rfl)

theorem exec_build_of_closed {s : State} (hf : s.fatal = false) (hc : s.encOpen = false ∧ s.decState ≠ .run)
    (hq : leafQueue s ≠ []) : exec .build s = .next (buildTree s) :=
  exec_performed hf (by rw [checksOf, streamOpen_eq_false.2 hc, List.isEmpty_eq_false_iff.2 hq]; rfl)

/-! ### What a built tree holds -/

section
variable {s t : State}

theorem Built.treeValid (h : Built s t) : t.treeValid = true := by rw [h.frame]

theorem Built.freq (h : Built s t) : t.freq = s.freq := by rw [h.frame]

/-- A symbol has a leaf in the tree exactly when its count is nonzero (10_state.md R26). -/
theorem Built.symbol_inTree (h : Built s t) {k : Nat} (hk : k < 257) : inTree t k = true ↔ freqAt s k ≠ 0#32 := by
  rw [Machine.inTree_iff, if_pos (by omega), h.freqAt_eq]
  exact and_iff_right h.treeValid

theorem Built.code_valid (h : Built s t) {k : Nat} (hk : k < 257) :
    (codeAt t k).valid = true ↔ freqAt s k ≠ 0#32 :=
  (h.codesFollowTree h.treeValid k hk).1.trans (h.symbol_inTree hk)

/-- The code of a symbol is whichever path leads to its leaf (41_tree_builder.md R117). -/
theorem Built.codeBits_of_path (h : Built s t) {p : List Bool} {k : Nat} (hk : k < 257) (hin : inTree t k = true)
    (hp : (pathEnd t t.root p).toNat = k) : codeBits (codeAt t k) = p := by
  obtain ⟨hvalid, hpath, -⟩ := h.codesFollowTree h.treeValid k hk
  have hend := hpath (hvalid.2 hin)
  exact h.path_unique _ p (by rwa [hend]) (BitVec.eq_of_toNat_eq (hend.trans hp.symm))

/-- A tree of one leaf holds no internal node: ROOT is the leaf (41_tree_builder.md R118). -/
theorem Built.root_of_one_leaf (h : Built s t) (h1 : t.nleaf.toNat = 1) :
    t.root.toNat < 257 ∧ freqAt s t.root.toNat ≠ 0#32 := by
  obtain ⟨-, -, hin, hroot⟩ := h.rootIsTop h.treeValid
  rw [if_pos h1] at hroot
  have hlt := isLeaf_iff.1 hroot
  exact ⟨hlt, (h.symbol_inTree hlt).1 hin⟩

/-- The code of the one leaf is the empty path (41_tree_builder.md R118). -/
theorem Built.code_of_one_leaf (h : Built s t) (h1 : t.nleaf.toNat = 1) {k : Nat} (hk : k < 257)
    (hf : freqAt s k ≠ 0#32) : codeAt t k = ⟨true, 0#9, 0#256⟩ := by
  obtain ⟨p, -, hlen, hcode⟩ := h.code_leaf hk ((h.symbol_inTree hk).2 hf)
  have hnil : p = [] := List.eq_nil_of_length_eq_zero (by omega)
  rw [hcode, hnil]
  rfl

/-- A tree of two leaves has the one slot 257, its ROOT (41_tree_builder.md R121). -/
theorem Built.root_of_two_leaves (h : Built s t) (h2 : t.nleaf.toNat = 2) : t.root = mergeIndex 0 := by
  obtain ⟨-, -, -, hroot⟩ := h.rootIsTop h.treeValid
  rw [h2] at hroot
  exact BitVec.eq_of_toNat_eq hroot

/-- The codes of its two leaves are the single bits that lead to them from ROOT. -/
theorem Built.code_of_two_leaves (h : Built s t) (h2 : t.nleaf.toNat = 2) (v : Bool) :
    codeBits (codeAt t (childOn t v (mergeIndex 0)).toNat) = [v] := by
  have hroot := h.root_of_two_leaves h2
  obtain ⟨hin, hlt⟩ := h.child_inTree (i := mergeIndex 0) (Nat.le_refl 257) (h.slot_inTree (by omega)) v
  exact h.codeBits_of_path hlt hin (by rw [hroot]; rfl)

end

/-- The first merge takes two leaves, the one of lesser key as LEFT, and sums their counts (41_tree_builder.md R112,
R113). -/
theorem buildTree_first_merge {s : State} (h2 : 1 < (leafQueue s).length) {i j : NodeIdx}
    (hi : nodeLeft (buildTree s) (mergeIndex 0) = i) (hj : nodeRight (buildTree s) (mergeIndex 0) = j) :
    i ∈ leafQueue s ∧ j ∈ leafQueue s ∧ i ≠ j ∧
      ((freqAt s i.toNat).toNat < (freqAt s j.toNat).toNat ∨
        ((freqAt s i.toNat).toNat = (freqAt s j.toNat).toNat ∧ i.toNat < j.toNat)) ∧
      (nodeCount (buildTree s) (mergeIndex 0)).toNat = (freqAt s i.toNat).toNat + (freqAt s j.toNat).toNat := by
  have hq : leafQueue s ≠ [] := List.length_pos_iff.1 (by omega)
  have h := built_buildTree hq
  obtain ⟨hl, hr, hne, hleast, -, hsum⟩ := buildTree_takes_least hq 0 (by omega)
  rw [hi] at hl hne hleast hsum
  rw [hj] at hr hne hsum
  have hqueued : ∀ k, queuedBefore (buildTree s) 0 k → k ∈ leafQueue s := fun k hk =>
    h.leafQueue_eq ▸ ((Merging.start _).mem_queue (Nat.zero_le _) k).2 hk
  have hil := (mem_leafQueue.1 (hqueued i hl)).1
  have hjl := (mem_leafQueue.1 (hqueued j hr)).1
  have hkey := hleast j hr hne.symm
  rw [precedes, decide_eq_true_iff, nodeCount_toNat_of_leaf h.freq hil, nodeCount_toNat_of_leaf h.freq hjl] at hkey
  rw [nodeCount_toNat_of_leaf h.freq hil, nodeCount_toNat_of_leaf h.freq hjl] at hsum
  exact ⟨hqueued i hl, hqueued j hr, hne, hkey, hsum⟩

end Sys2Proof.Machine
end

section
/-! Settled statements: the tree builder (41_tree_builder.md). -/

namespace Sys2Proof.Machine

/-- Settles O14: the checks in order; the merges by what the arbiter grants; ROOT and the codes as BUILD leaves them. -/
theorem buildFollowsItsRule : Obligations.BuildFollowsItsRule := by
  refine ⟨rfl, fun _ => exec_dropped _, fun _ => exec_build_of_open,
    fun s hf he hd hz => exec_build_of_empty hf ⟨he, hd⟩ (leafQueue_eq_nil hz), fun s hf he hd hk => ?_,
    fun w s hop hw hf => ?_⟩
  · have hq := leafQueue_ne_nil hk
    have h := built_buildTree hq
    refine ⟨_, exec_build_of_closed hf ⟨he, hd⟩ hq, h.frame, h.nleaf.trans (length_leafQueue s), fun k hk => ?_,
      fun k _ hk => h.slot_eq (by omega), h.rootIsTop, h.codesFollowTree⟩
    exact buildTree_takes_least hq k (by rw [h.merges]; omega)
  · exact performWord_illegal_of_not_fatal
      (decode_ne_ok_of_plain_op (by decide) (by decide) (by decide) hop hw) hf

/-- Settles O15: the loop and the traversal read FREQ and the slots they have written. -/
theorem buildDependsOnFreqAlone : Obligations.BuildDependsOnFreqAlone := by
  intro s s' hfreq hf he hd hf' he' hd' hk
  have hq := leafQueue_ne_nil hk
  have hq' : leafQueue s' ≠ [] := by rwa [← leafQueue_congr hfreq]
  have h := built_buildTree hq
  obtain ⟨hroot, hnleaf, hslots⟩ := buildTree_congr hfreq hq
  refine ⟨_, _, exec_build_of_closed hf ⟨he, hd⟩ hq, exec_build_of_closed hf' ⟨he', hd'⟩ hq', hnleaf, hroot,
    buildTree_code_congr hfreq hq, fun i hlo hhi => ?_⟩
  have hl : isLeaf i = false := by rw [Bool.eq_false_iff, ne_eq, isLeaf_iff]; omega
  have hslot : internalNode (buildTree s) i = internalNode (buildTree s') i :=
    hslots (i.toNat - 257) (by rw [h.merges]; omega)
  simp only [nodeLeft, nodeRight, nodeCount, hl, Bool.false_eq_true, if_false, hslot, and_self]

/-- Settles O16: NLEAF is 1, so no slot is merged and the path to the one leaf is empty. -/
theorem oneSymbolGivesASingleLeaf : Obligations.OneSymbolGivesASingleLeaf := by
  intro s sym hf he hd hsym hone
  have hcount : freqAt s sym ≠ 0#32 := (hone sym hsym).2 rfl
  have hq := leafQueue_ne_nil ⟨sym, hsym, hcount⟩
  have h := built_buildTree hq
  have h1 : (buildTree s).nleaf.toNat = 1 :=
    h.nleaf.trans (length_leafQueue_of_counted (l := [sym]) (by simp) (by simpa using hsym) (by simpa using hone))
  obtain ⟨hlt, hroot⟩ := h.root_of_one_leaf h1
  refine ⟨_, exec_build_of_closed hf ⟨he, hd⟩ hq, BitVec.eq_of_toNat_eq h1, (hone _ hlt).1 hroot,
    nodes_ext fun m _ => h.slot_eq (by omega), h.code_of_one_leaf h1 hsym hcount, fun k hk hne => ?_⟩
  exact Bool.eq_false_iff.2 fun hv => hne ((hone k hk).1 ((h.code_valid hk).1 hv))

/-- Settles O17: the one merge takes the two leaves, the lesser key first, and each code is one step from ROOT. -/
theorem twoSymbolsGiveTwoLeaves : Obligations.TwoSymbolsGiveTwoLeaves := by
  intro s b hf he hd hb htwo
  have hq := leafQueue_ne_nil ⟨256, by decide, (htwo 256 (by decide)).2 (.inr rfl)⟩
  have h := built_buildTree hq
  have hlen : (leafQueue s).length = 2 :=
    length_leafQueue_of_counted (l := [b, 256]) (by simp; omega) (by simp; omega) (by simpa using htwo)
  have h2 : (buildTree s).nleaf.toNat = 2 := h.nleaf.trans hlen
  have hcl := h.code_of_two_leaves h2 false
  have hcr := h.code_of_two_leaves h2 true
  refine ⟨_, exec_build_of_closed hf ⟨he, hd⟩ hq, BitVec.eq_of_toNat_eq h2, h.root_of_two_leaves h2, ?_⟩
  rw [show 257#10 = mergeIndex 0 from rfl]
  simp only [childOn, Bool.false_eq_true, if_false, if_true] at hcl hcr
  generalize hi : nodeLeft (buildTree s) (mergeIndex 0) = i at hcl ⊢
  generalize hj : nodeRight (buildTree s) (mergeIndex 0) = j at hcr ⊢
  obtain ⟨hiq, hjq, hne, hkey, hsum⟩ := buildTree_first_merge (by omega) hi hj
  obtain ⟨hil, hif⟩ := mem_leafQueue_iff_ne.1 hiq
  obtain ⟨hjl, hjf⟩ := mem_leafQueue_iff_ne.1 hjq
  have hne' := BitVec.toNat_ne_iff_ne.2 hne
  rw [hsum]
  obtain ⟨hib, hje⟩ | ⟨hie, hjb⟩ : i.toNat = b ∧ j.toNat = 256 ∨ i.toNat = 256 ∧ j.toNat = b := by
    have := (htwo _ hil).1 hif
    have := (htwo _ hjl).1 hjf
    omega
  · rw [hib, hje] at hkey ⊢
    rw [hib] at hcl
    rw [hje] at hcr
    rw [if_neg (by omega)]
    exact ⟨rfl, rfl, rfl, hcl, hcr⟩
  · rw [hie, hjb] at hkey ⊢
    rw [hie] at hcl
    rw [hjb] at hcr
    rw [if_pos (by omega)]
    exact ⟨Nat.add_comm _ _, rfl, rfl, hcl, hcr⟩

/-- Settles O19: a code is the path to its leaf, so none begins another; the cost of the merges is the least by Kraft's
inequality and the exchange of the two least weights. -/
theorem builtCodesCostTheLeast : Obligations.BuiltCodesCostTheLeast := by
  intro s c hf he hd hk hc
  have hq := leafQueue_ne_nil hk
  have h := built_buildTree hq
  refine ⟨_, exec_build_of_closed hf ⟨he, hd⟩ hq, fun a b ha hb hfa hfb => ?_, ?_⟩
  · exact h.codesFollowTree.eq_of_code_begins h.treeValid ha hb ((h.code_valid ha).2 hfa) ((h.code_valid hb).2 hfb)
  · have hfree : (leafQueue s).Pairwise fun i j => noPrefix (c i.toNat) (c j.toNat) := by
      refine (leafQueue_nodup s).pairwise_of_forall_ne fun i hi j hj hne => ?_
      obtain ⟨hil, hif⟩ := mem_leafQueue_iff_ne.1 hi
      obtain ⟨hjl, hjf⟩ := mem_leafQueue_iff_ne.1 hj
      have hne' := BitVec.toNat_ne_iff_ne.2 hne
      exact ⟨fun hp => hne' (hc _ _ hil hjl hif hjf hp), fun hp => hne'.symm (hc _ _ hjl hil hjf hif hp)⟩
    have hcost := buildTree_cost_le hq (fun i => c i.toNat) hfree
    rwa [weightedSum_leafQueue h.freq fun k => (codeAt (buildTree s) k).len.toNat,
      weightedSum_leafQueue rfl fun k => (c k).length] at hcost

end Sys2Proof.Machine
end

section
/-! SUPPORT. The encoder's commands: the words they have, one put bit by its two cases, what a command or a stream of
commands sends, and that the encoder and the decoder commute. -/

namespace Sys2Proof

/-- A command word as the OR of its fields at their places (30_encoding.md R71). -/
theorem commandWord_eq_or (op : BitVec 4) (arg : Arg) (data : Freq) :
    commandWord op arg data = (op.setWidth 64 <<< 60) ||| (arg.setWidth 64 <<< 32) ||| data.setWidth 64 := by
  apply BitVec.eq_of_getLsbD_eq
  intro j hj
  rw [commandWord_getLsbD]
  simp only [BitVec.getLsbD_or, BitVec.getLsbD_shiftLeft, BitVec.getLsbD_setWidth]
  split_ifs with h32 h41 h60
  · simp [h32, hj, show j < 60 by omega]
  · simp [h32, hj, show j < 60 by omega, show j - 32 < 64 by omega, BitVec.getLsbD_of_ge data j (by omega)]
  · simp [h60, BitVec.getLsbD_of_ge data j (by omega), BitVec.getLsbD_of_ge arg (j - 32) (by omega)]
  · simp [h60, hj, show j - 60 < 64 by omega, BitVec.getLsbD_of_ge data j (by omega),
      BitVec.getLsbD_of_ge arg (j - 32) (by omega)]

theorem encode_enc_eq_or (arg : Arg) : encode (.enc arg) = 0x4000000000000000#64 ||| (arg.setWidth 64 <<< 32) := by
  rw [encode, commandWord_eq_or, opcode, encodedArg, encodedData, BitVec.setWidth_zero, BitVec.or_zero]
  rfl

/-- Only LDFREQ uses DATA, so a word with another OP and DATA not 0 is illegal (30_encoding.md R74). -/
theorem decode_ne_ok_of_dataField {w : Word} (hop : opField w ≠ 0x2#4) (h : dataField w ≠ 0#32) (i : Instr) :
    decode w ≠ .ok i := by
  intro hd
  obtain ⟨-, hopi, -, hdata⟩ := decode_ok_fields hd
  exact h (hdata.trans (encodedData_eq_zero (hopi ▸ hop)))

namespace Machine

/-! ### One put bit (42_encoder.md R131) -/

theorem getLsbD_zero_shiftIn {w : Nat} (x : BitVec (w + 1)) (v : Bool) :
    ((x <<< 1) ||| bitValue (w + 1) v).getLsbD 0 = v := by
  simp [bitValue]

theorem getLsbD_succ_shiftIn {w : Nat} (x : BitVec (w + 1)) (v : Bool) {j : Nat} (hj : j < w) :
    ((x <<< 1) ||| bitValue (w + 1) v).getLsbD (j + 1) = x.getLsbD j := by
  simp [bitValue, hj, BitVec.getLsbD_eq_getElem (show j < w + 1 by omega)]

theorem putBit_waits (v : Bool) {s : State} (h : s.accCnt.toNat < 7) :
    putBit v s = { s with acc := (s.acc <<< 1) ||| bitValue 8 v, accCnt := BitVec.ofNat 3 (s.accCnt.toNat + 1) } :=
  if_neg (by omega)

theorem putBit_emits (v : Bool) {s : State} (h : s.accCnt.toNat = 7) :
    putBit v s = { emitE ((s.acc <<< 1) ||| bitValue 8 v) s with acc := 0#8, accCnt := 0#3 } :=
  if_pos (by omega)

/-! ### What the encoder sends -/

theorem length_codeBits (e : CodeEntry) : (codeBits e).length = e.len.toNat := bitsDown_length _ _

theorem length_sentBits (s : State) : (sentBits s).length = 8 * s.eout.length + s.accCnt.toNat := by
  simp [sentBits, byteBits, List.length_flatMap, Nat.mul_comm]

theorem sentBits_of_empty_acc {s : State} (h : s.accCnt = 0#3) : sentBits s = s.eout.flatMap byteBits := by
  simp [sentBits, h, bitsDown]

/-- From `s` to `t` the encoder has sent the bits: it wrote its own state alone, its channel grew, and ACC still holds
nothing above its ACC_CNT bits (10_state.md R36, R46). -/
structure Sends (s t : State) (bits : List Bool) : Prop where
  frame : t = withEncoder t s
  channels : ChannelsGrow s t
  sent : sentBits t = sentBits s ++ bits
  accBound : s.acc.toNat < 2 ^ s.accCnt.toNat → t.acc.toNat < 2 ^ t.accCnt.toNat

theorem Sends.trans {s t u : State} {p q : List Bool} (h : Sends s t p) (h' : Sends t u q) : Sends s u (p ++ q) where
  frame := by
    have hu := h'.frame
    rw [h.frame] at hu
    exact hu
  channels := h.channels.trans h'.channels
  sent := by rw [h'.sent, h.sent, List.append_assoc]
  accBound hs := h'.accBound (h.accBound hs)

/-- ENC_OPEN is no part of what is sent. -/
theorem Sends.withEncOpen {s t : State} {bits : List Bool} (h : Sends s t bits) (o : Bool) :
    Sends s { t with encOpen := o } bits where
  frame := congrArg (fun u : State => { u with encOpen := o }) h.frame
  channels := h.channels
  sent := h.sent
  accBound := h.accBound

/-- ACC_CNT counts the bits sent, modulo 8. -/
theorem Sends.accCnt_eq {s t : State} {bits : List Bool} (h : Sends s t bits) :
    t.accCnt.toNat = (s.accCnt.toNat + bits.length) % 8 := by
  have hlen := congrArg List.length h.sent
  rw [List.length_append, length_sentBits, length_sentBits] at hlen
  have := t.accCnt.isLt
  omega

theorem putBits_sends (l : List Bool) (s : State) : Sends s (putBits l s) l where
  frame := by
    obtain ⟨a, c, r, e, h⟩ := putBits_writes l s
    rw [h]
    rfl
  channels := putBits_channelsGrow l s
  sent := sentBits_putBits l s
  accBound := accBound_putBits l s

/-- The zero bits that complete the last byte of `n` bits (42_encoder.md R135, R137). -/
def padding (n : Nat) : List Bool := List.replicate ((8 - n % 8) % 8) false

theorem padding_congr {m n : Nat} (h : m % 8 = n % 8) : padding m = padding n := by
  rw [padding, padding, h]

theorem closeStream_sends (s : State) : Sends s (closeStream s) (padding s.accCnt.toNat) where
  frame := by
    unfold closeStream
    split <;> rfl
  channels := closeStream_channelsGrow s
  sent := sentBits_closeStream s
  accBound h := by
    rw [acc_closeStream s h]
    exact Nat.two_pow_pos _

/-! ### ENC and ENC_END (42_encoder.md R130, R134) -/

theorem byteInRange_iff {arg : Arg} : byteInRange arg = true ↔ arg.toNat ≤ 255 := by
  rw [byteInRange, decide_eq_true_iff]
  exact Nat.lt_succ_iff

theorem exec_enc_out_of_range {arg : Arg} {s : State} (hf : s.fatal = false) (ha : 255 < arg.toNat) :
    exec (.enc arg) s = .next (afterError .badarg s) := by
  have hr : byteInRange arg = false := Bool.eq_false_iff.2 fun h => Nat.not_le.2 ha (byteInRange_iff.1 h)
  exact exec_rejected_nonfatal hf (by decide) (by rw [checksOf, hr]; rfl)

theorem exec_enc_without_tree {arg : Arg} {s : State} (hf : s.fatal = false) (ha : arg.toNat ≤ 255)
    (htv : s.treeValid = false) : exec (.enc arg) s = .next (afterError .notree s) :=
  exec_rejected_nonfatal hf (by decide) (by rw [checksOf, byteInRange_iff.2 ha, htv]; rfl)

theorem exec_enc_without_code {arg : Arg} {s : State} (hf : s.fatal = false) (ha : arg.toNat ≤ 255)
    (htv : s.treeValid = true) (hv : (codeAt s arg.toNat).valid = false) : exec (.enc arg) s = .next (afterFatal s) :=
  exec_rejected hf (e := .nocode) (by rw [checksOf, byteInRange_iff.2 ha, htv, hv]; rfl)

theorem exec_enc_sends {arg : Arg} {s : State} (hf : s.fatal = false) (ha : arg.toNat ≤ 255) (htv : s.treeValid = true)
    (hv : (codeAt s arg.toNat).valid = true) :
    ∃ t, exec (.enc arg) s = .next t ∧ t.encOpen = true ∧ Sends s t (codeBits (codeAt s arg.toNat)) :=
  ⟨_, exec_performed hf (by rw [checksOf, byteInRange_iff.2 ha, htv, hv]; rfl), rfl, (putBits_sends _ s).withEncOpen true⟩

theorem exec_encEnd_without_tree {s : State} (hf : s.fatal = false) (htv : s.treeValid = false) :
    exec .encEnd s = .next (afterError .notree s) :=
  exec_rejected_nonfatal hf (by decide) (by rw [checksOf, htv]; rfl)

theorem exec_encEnd_without_code {s : State} (hf : s.fatal = false) (htv : s.treeValid = true)
    (hv : (codeAt s 256).valid = false) : exec .encEnd s = .next (afterFatal s) :=
  exec_rejected hf (e := .nocode) (by rw [checksOf, htv, hv]; rfl)

theorem exec_encEnd_sends {s : State} (hf : s.fatal = false) (htv : s.treeValid = true)
    (hv : (codeAt s 256).valid = true) :
    ∃ t, exec .encEnd s = .next t ∧ t.encOpen = false ∧ t.accCnt = 0#3 ∧
      Sends s t (codeBits (codeAt s 256) ++ padding (s.accCnt.toNat + (codeAt s 256).len.toNat)) := by
  have hcode := putBits_sends (codeBits (codeAt s 256)) s
  have hclose := closeStream_sends (putBits (codeBits (codeAt s 256)) s)
  rw [hcode.accCnt_eq, padding_congr (Nat.mod_mod _ _), length_codeBits] at hclose
  exact ⟨_, exec_performed hf (by rw [checksOf, htv, hv]; rfl), rfl, accCnt_closeStream _,
    (hcode.trans hclose).withEncOpen false⟩

/-! ### Streams (42_encoder.md R137) -/

/-- The codes of the bytes in order, then the end-of-block code (42_encoder.md R137). -/
def payload (s : State) (xs : List Byte) : List Bool :=
  (xs.flatMap fun x => codeBits (codeAt s x.toNat)) ++ codeBits (codeAt s 256)

theorem payload_cons (s : State) (x : Byte) (xs : List Byte) :
    payload s (x :: xs) = codeBits (codeAt s x.toNat) ++ payload s xs := by
  simp [payload]

theorem length_payload (s : State) (xs : List Byte) : (payload s xs).length =
    (xs.map fun x => (codeAt s x.toNat).len.toNat).sum + (codeAt s 256).len.toNat := by
  simp [payload, List.length_flatMap, length_codeBits]

theorem toNat_byteArg (b : Byte) : (byteArg b).toNat = b.toNat := by
  rw [byteArg, BitVec.toNat_setWidth]
  exact Nat.mod_eq_of_lt (by omega)

theorem execAll_cons {i : Instr} {s t : State} (h : exec i s = .next t) (is : List Instr) :
    execAll (i :: is) s = execAll is t := by
  rw [execAll, h]

/-- ENCSTREAM of bytes that have codes sends the payload and completes its last byte. -/
theorem execAll_encstream_sends {xs : List Byte} {s : State} (hf : s.fatal = false) (htv : s.treeValid = true)
    (hv : ∀ x ∈ xs, (codeAt s x.toNat).valid = true) (heob : (codeAt s 256).valid = true) :
    ∃ t, execAll (expand (.encstream xs)) s = .next t ∧ t.encOpen = false ∧ t.accCnt = 0#3 ∧
      Sends s t (payload s xs ++ padding (s.accCnt.toNat + (payload s xs).length)) := by
  induction xs generalizing s with
  | nil =>
    obtain ⟨t, ht, hopen, hcnt, hsends⟩ := exec_encEnd_sends hf htv heob
    exact ⟨t, execAll_cons ht [], hopen, hcnt, by simpa [payload, length_codeBits] using hsends⟩
  | cons x xs ih =>
    have hx : (byteArg x).toNat = x.toNat := toNat_byteArg x
    obtain ⟨u, hu, -, hsends⟩ := exec_enc_sends (arg := byteArg x) hf (by omega) htv
      (hx.symm ▸ hv x List.mem_cons_self)
    rw [hx] at hsends
    have hcode : ∀ k, codeAt u k = codeAt s k := fun k => by rw [hsends.frame]; rfl
    have hpayload : payload u xs = payload s xs := by rw [hsends.frame]; rfl
    obtain ⟨t, ht, hopen, hcnt, hrest⟩ := ih (s := u) ((congrArg State.fatal hsends.frame).trans hf)
      ((congrArg State.treeValid hsends.frame).trans htv)
      (fun y hy => hcode y.toNat ▸ hv y (List.mem_cons_of_mem x hy)) (hcode 256 ▸ heob)
    refine ⟨t, (execAll_cons hu _).trans ht, hopen, hcnt, ?_⟩
    rw [hpayload, hsends.accCnt_eq, padding_congr (Nat.mod_add_mod _ _ _)] at hrest
    rw [payload_cons, List.append_assoc, List.length_append, ← Nat.add_assoc]
    exact hsends.trans hrest

/-- A whole number of bytes that holds `n` bits and their padding is ceil(n / 8) bytes. -/
theorem length_of_padded {body : List Byte} {bits : List Bool}
    (h : body.flatMap byteBits = bits ++ padding bits.length) : body.length = (bits.length + 7) / 8 := by
  have hlen := congrArg List.length h
  simp only [List.length_flatMap, byteBits, bitsDown_length, List.map_const', List.sum_replicate, smul_eq_mul,
    List.length_append, padding, List.length_replicate] at hlen
  omega

/-! ### Encoder and decoder (42_encoder.md R138) -/

/-- A change of the state that a command's checks and effect do not see, and that raising an error keeps, passes through
the command. -/
theorem exec_commutes {f : State → State} {i : Instr} {s : State} (hfatal : (f s).fatal = s.fatal)
    (hraise : ∀ e, raiseErr e (f s) = f (raiseErr e s)) (hchecks : checksOf i (f s) = checksOf i s)
    (heffect : effectOf i (f s) = mapNext f (effectOf i s)) : exec i (f s) = mapNext f (exec i s) := by
  rw [exec_eq, exec_eq, hchecks, heffect, checked, checked, hfatal]
  split
  · rfl
  · split
    · exact congrArg Host.Outcome.next (hraise _)
    · rfl

/-- Raising an error, as one record update for a fatal and one for a non-fatal code (60_exceptions.md R181, R183). -/
theorem raiseErr_eq (e : ErrCode) (s : State) :
    raiseErr e s = if errIsFatal e = true then afterFatal s else afterError e s := by
  rw [raiseErr, raiseError_eq]
  rfl

section
variable (d s : State)

theorem raiseErr_withDecoder (e : ErrCode) : raiseErr e (withDecoder d s) = withDecoder d (raiseErr e s) := by
  rw [raiseErr_eq, raiseErr_eq]
  split <;> rfl

theorem putBits_withDecoder (l : List Bool) : putBits l (withDecoder d s) = withDecoder d (putBits l s) := by
  induction l generalizing s with
  | nil => rfl
  | cons v l ih =>
    have hv : putBit v (withDecoder d s) = withDecoder d (putBit v s) := by
      unfold putBit
      dsimp only [withDecoder]
      split <;> rfl
    rw [putBits, hv, ih, putBits]

theorem writeCode_withDecoder (sym : Nat) : writeCode sym (withDecoder d s) = withDecoder d (writeCode sym s) :=
  putBits_withDecoder d s _

theorem closeStream_withDecoder : closeStream (withDecoder d s) = withDecoder d (closeStream s) := by
  rw [closeStream, closeStream, apply_ite (withDecoder d)]
  rfl

end

section
variable (e s : State)

theorem raiseErr_withEncoder (c : ErrCode) : raiseErr c (withEncoder e s) = withEncoder e (raiseErr c s) := by
  rw [raiseErr_eq, raiseErr_eq]
  split <;> rfl

theorem walkBit_withEncoder (v : Bool) : walkBit v (withEncoder e s) = mapNext (withEncoder e) (walkBit v s) := by
  simp only [walkBit, apply_ite (mapNext (withEncoder e))]
  rfl

theorem walkBits_withEncoder (l : List Bool) : walkBits l (withEncoder e s) = mapNext (withEncoder e) (walkBits l s) := by
  induction l generalizing s with
  | nil => rfl
  | cons v l ih =>
    have hstate : (withEncoder e s).decState = s.decState := rfl
    rw [walkBits, walkBits, hstate, walkBit_withEncoder]
    split
    · cases walkBit v s with
      | next t => exact ih t
      | fault r => rfl
      | refused r => rfl
    · exact ih s

end

end Machine

end Sys2Proof
end

section
/-! Settled statements: the encoder (42_encoder.md). -/

namespace Sys2Proof.Machine

/-- Settles O22: the checks in order; a performed ENC sends the bits of the code. -/
theorem encFollowsItsRule : Obligations.EncFollowsItsRule := by
  refine ⟨encode_enc_eq_or, fun _ _ => exec_dropped _, fun _ _ => exec_enc_out_of_range,
    fun _ _ => exec_enc_without_tree, fun _ _ => exec_enc_without_code, fun arg s hf ha htv hv => ?_,
    fun w s hop hillegal hf => performWord_illegal_of_not_fatal ?_ hf⟩
  · obtain ⟨t, ht, hopen, hsends⟩ := exec_enc_sends hf ha htv hv
    obtain ⟨⟨new, heout, hreg⟩, -⟩ := hsends.channels
    refine ⟨t, new, ht, hsends.frame.trans ?_, hsends.sent, ?_, hreg, hsends.accBound⟩
    · rw [withEncoder, hopen, heout]
    · rw [hsends.accCnt_eq, length_codeBits]
  · obtain hrsv | hdata := hillegal
    · exact decode_ne_ok_of_rsvField hrsv
    · exact decode_ne_ok_of_dataField (hop.trans_ne (by decide)) hdata

/-- Settles O23: the checks in order; a performed ENC_END sends the end-of-block code and the padding, so ACC holds no
bit. -/
theorem encEndFollowsItsRule : Obligations.EncEndFollowsItsRule := by
  refine ⟨rfl, fun _ => exec_dropped _, fun _ => exec_encEnd_without_tree, fun _ => exec_encEnd_without_code,
    fun s hf htv hv => ?_, fun w s hop hw hf => ?_⟩
  · obtain ⟨t, ht, hopen, hcnt, hsends⟩ := exec_encEnd_sends hf htv hv
    obtain ⟨⟨new, heout, hreg⟩, -⟩ := hsends.channels
    refine ⟨t, new, ht, hsends.frame.trans ?_, ?_, hreg, fun hs => ?_⟩
    · rw [withEncoder, hcnt, hopen, heout]
    · rw [hsends.sent, List.append_assoc, padding]
    · have hacc := hsends.accBound hs
      rw [hcnt] at hacc
      exact BitVec.eq_of_toNat_eq (Nat.lt_one_iff.1 hacc)
  · exact performWord_illegal_of_not_fatal
      (decode_ne_ok_of_plain_op (by decide) (by decide) (by decide) hop hw) hf

/-- Settles O24: before and after the stream no bit waits in ACC, so the bits sent are those of the body. -/
theorem encodedBodyHasThePayloadsLength : Obligations.EncodedBodyHasThePayloadsLength := by
  intro s xs hf htv hcnt hv heob
  obtain ⟨t, ht, -, htcnt, hsends⟩ := execAll_encstream_sends hf htv hv heob
  obtain ⟨⟨body, heout, -⟩, -⟩ := hsends.channels
  have hbody : body.flatMap byteBits = payload s xs ++ padding (payload s xs).length := by
    have hsent := hsends.sent
    rw [sentBits_of_empty_acc htcnt, sentBits_of_empty_acc hcnt, heout, List.flatMap_append, hcnt] at hsent
    simpa using hsent
  refine ⟨t, body, ht, heout, ?_, ?_⟩
  · rw [length_of_padded hbody, length_payload]
  · rw [hbody, padding, length_payload, payload]

/-- Settles O21: below 7 the bit waits in ACC, at 7 the shifted byte is emitted. -/
theorem putBitFollowsItsRule : Obligations.PutBitFollowsItsRule := by
  refine fun v s => ⟨fun h => ?_, fun h => ?_⟩
  · have hcnt : (s.accCnt.toNat + 1) % 2 ^ 3 = s.accCnt.toNat + 1 := Nat.mod_eq_of_lt (by omega)
    exact ⟨_, putBit_waits v h, rfl, hcnt, getLsbD_zero_shiftIn _ v, fun _ => getLsbD_succ_shiftIn _ v⟩
  · exact ⟨_, putBit_emits v h, getLsbD_zero_shiftIn _ v, fun _ => getLsbD_succ_shiftIn _ v⟩

/-- Settles O39: another decoder passes through what the encoder reads and writes, and another encoder through a walk. -/
theorem encoderAndDecoderShareNoState : Obligations.EncoderAndDecoderShareNoState := by
  refine ⟨fun s d arg => ?_, fun s e arg => ?_⟩
  · have hraise := raiseErr_withDecoder d s
    refine ⟨exec_commutes rfl hraise rfl ?_, exec_commutes rfl hraise rfl ?_⟩
    · rw [effectOf, writeCode_withDecoder]
      rfl
    · rw [effectOf, writeCode_withDecoder, closeStream_withDecoder]
      rfl
  · have hraise := raiseErr_withEncoder e s
    refine ⟨exec_commutes rfl hraise rfl rfl, exec_commutes rfl hraise rfl (walkBits_withEncoder e s _),
      exec_commutes rfl hraise rfl ?_⟩
    rw [effectOf, effectOf, mapNext, apply_ite (withEncoder e)]
    rfl

end Sys2Proof.Machine
end

section
/-! SUPPORT. The decoder's commands: the word of DEC_BYTE, one move of the cursor by its four cases, the bits of a byte
one by one, the walk of a code and of a payload, and a stream of body bytes. -/

namespace Sys2Proof

theorem encode_decByte_eq_or (arg : Arg) :
    encode (.decByte arg) = 0x7000000000000000#64 ||| (arg.setWidth 64 <<< 32) := by
  rw [encode, commandWord_eq_or, opcode, encodedArg, encodedData, BitVec.setWidth_zero, BitVec.or_zero]
  rfl

namespace Machine

/-! ### DEC_START, DEC_BYTE and DEC_END (43_decoder.md R150, R152, R158) -/

theorem exec_decStart_without_tree {s : State} (hf : s.fatal = false) (htv : s.treeValid = false) :
    exec .decStart s = .next (afterError .notree s) :=
  exec_rejected_nonfatal hf (by decide) (by rw [checksOf, htv]; rfl)

theorem exec_decStart_at_eob {s : State} (hf : s.fatal = false) (htv : s.treeValid = true) (hr : s.root.toNat = 256) :
    exec .decStart s = .next { s with cur := s.root, decState := .done } :=
  (exec_performed hf (by rw [checksOf, htv]; rfl)).trans (by rw [effectOf, if_pos hr])

theorem exec_decStart_runs {s : State} (hf : s.fatal = false) (htv : s.treeValid = true) (hr : s.root.toNat ≠ 256) :
    exec .decStart s = .next { s with cur := s.root, decState := .run } :=
  (exec_performed hf (by rw [checksOf, htv]; rfl)).trans (by rw [effectOf, if_neg hr])

theorem exec_decByte_out_of_range {arg : Arg} {s : State} (hf : s.fatal = false) (ha : 255 < arg.toNat) :
    exec (.decByte arg) s = .next (afterError .badarg s) := by
  have hr : byteInRange arg = false := Bool.eq_false_iff.2 fun h => Nat.not_le.2 ha (byteInRange_iff.1 h)
  exact exec_rejected_nonfatal hf (by decide) (by rw [checksOf, hr]; rfl)

theorem exec_decByte_of_idle {arg : Arg} {s : State} (hf : s.fatal = false) (ha : arg.toNat ≤ 255)
    (hd : s.decState = .idle) : exec (.decByte arg) s = .next (afterError .seq s) :=
  exec_rejected_nonfatal hf (by decide) (by rw [checksOf, byteInRange_iff.2 ha, hd]; rfl)

theorem exec_decByte_walks {arg : Arg} {s : State} (hf : s.fatal = false) (ha : arg.toNat ≤ 255)
    (hd : s.decState ≠ .idle) : exec (.decByte arg) s = walkBits (byteBits (argByte arg)) s :=
  exec_performed hf (by rw [checksOf, byteInRange_iff.2 ha, decide_eq_false hd]; rfl)

theorem exec_decEnd_of_idle {s : State} (hf : s.fatal = false) (hd : s.decState = .idle) :
    exec .decEnd s = .next (afterError .seq s) :=
  exec_rejected_nonfatal hf (by decide) (by rw [checksOf, hd]; rfl)

theorem exec_decEnd_of_run {s : State} (hf : s.fatal = false) (hd : s.decState = .run) :
    exec .decEnd s = .next { s with decState := .trunc } :=
  (exec_performed hf (by rw [checksOf, hd]; rfl)).trans (by rw [effectOf, if_pos hd])

theorem decStopped_iff {d : DecState} : decStopped d = true ↔ d = .done ∨ d = .trunc ∨ d = .malformed := by
  cases d <;> decide

theorem ne_idle_of_decStopped {d : DecState} (h : decStopped d = true) : d ≠ .idle := by
  rintro rfl
  cases h

theorem ne_run_of_decStopped {d : DecState} (h : decStopped d = true) : d ≠ .run := by
  rintro rfl
  cases h

/-- A stopped decoder reads no bit of a byte (43_decoder.md R156). -/
theorem exec_decByte_stopped {arg : Arg} {s : State} (ha : arg.toNat ≤ 255) (hd : decStopped s.decState = true) :
    exec (.decByte arg) s = .next s := by
  cases hf : s.fatal with
  | true => exact exec_dropped _ hf
  | false =>
    rw [exec_decByte_walks hf ha (ne_idle_of_decStopped hd), walkBits_stopped _ (ne_run_of_decStopped hd)]

theorem exec_decEnd_stopped {s : State} (hd : decStopped s.decState = true) : exec .decEnd s = .next s := by
  cases hf : s.fatal with
  | true => exact exec_dropped _ hf
  | false =>
    have hc : firstFailing (checksOf .decEnd s) = none := by
      rw [checksOf, decide_eq_false (ne_idle_of_decStopped hd)]
      rfl
    rw [exec_performed hf hc, effectOf, if_neg (ne_run_of_decStopped hd)]

/-! ### One move of the cursor (43_decoder.md R151) -/

theorem namesSlot_iff {i : NodeIdx} : namesSlot i = true ↔ i.toNat ≤ 512 := by
  rw [namesSlot, decide_eq_true_iff]
  exact Nat.lt_succ_iff

theorem ne_noNode_of_le {i : NodeIdx} (h : i.toNat ≤ 256) : i ≠ Config.noNode := by
  rintro rfl
  exact absurd h (by decide)

section
variable {v : Bool} {s : State}

theorem walkBit_of_no_child (hs : namesSlot s.cur = true) (hc : childOn s v s.cur = Config.noNode) :
    walkBit v s = .next { s with decState := .malformed } :=
  (if_pos hs).trans (if_pos hc)

theorem walkBit_to_eob (hs : namesSlot s.cur = true) (hc : (childOn s v s.cur).toNat = 256) :
    walkBit v s = .next { s with cur := childOn s v s.cur, decState := .done } :=
  (if_pos hs).trans ((if_neg (ne_noNode_of_le hc.le)).trans (if_pos hc))

theorem walkBit_to_byte (hs : namesSlot s.cur = true) (hc : (childOn s v s.cur).toNat ≤ 255) :
    walkBit v s = .next { emitByte (childOn s v s.cur) s with cur := s.root } :=
  (if_pos hs).trans ((if_neg (ne_noNode_of_le (by omega))).trans
    ((if_neg (show (childOn s v s.cur).toNat ≠ 256 by omega)).trans
      (if_pos (show (childOn s v s.cur).toNat < 256 by omega))))

theorem walkBit_to_internal (hs : namesSlot s.cur = true) (hc : 256 < (childOn s v s.cur).toNat)
    (hn : childOn s v s.cur ≠ Config.noNode) : walkBit v s = .next { s with cur := childOn s v s.cur } :=
  (if_pos hs).trans ((if_neg hn).trans
    ((if_neg (show (childOn s v s.cur).toNat ≠ 256 by omega)).trans
      (if_neg (show ¬ (childOn s v s.cur).toNat < 256 by omega))))

end

/-- The byte that a leaf below 256 emits (43_decoder.md R154). -/
theorem emitByte_eq (i : NodeIdx) (s : State) :
    emitByte i s = { s with dout := s.dout ++ [BitVec.ofNat 8 i.toNat], doutReg := BitVec.ofNat 8 i.toNat } := rfl

/-! ### The moves of a list of bits (43_decoder.md R152) -/

/-- The first bit is a move of the cursor in RUN and nothing otherwise; the others follow. -/
theorem walkBits_cons_iff {v : Bool} {l : List Bool} {s t : State} : walkBits (v :: l) s = .next t ↔
    ∃ u, (if s.decState = .run then walkBit v s = .next u else u = s) ∧ walkBits l u = .next t := by
  rw [walkBits]
  split_ifs with hr
  · cases walkBit v s <;> simp
  · simp

theorem walkBits_singleton_iff {v : Bool} {s t : State} :
    walkBits [v] s = .next t ↔ if s.decState = .run then walkBit v s = .next t else t = s := by
  rw [walkBits_cons_iff]
  simp [walkBits]

theorem walkBits_append_iff {p q : List Bool} {s t : State} : walkBits (p ++ q) s = .next t ↔
    ∃ u, walkBits p s = .next u ∧ walkBits q u = .next t := by
  refine ⟨fun h => ?_, fun ⟨u, hp, hq⟩ => (walkBits_append q hp).trans hq⟩
  induction p generalizing s with
  | nil => exact ⟨s, rfl, h⟩
  | cons v p ih =>
    obtain ⟨w, hv, hw⟩ := walkBits_cons_iff.1 h
    obtain ⟨u, hp, hq⟩ := ih hw
    exact ⟨u, walkBits_cons_iff.2 ⟨w, hv, hp⟩, hq⟩

/-- A move emits one byte at most and never enters IDLE. -/
theorem walkBit_bounds {v : Bool} {s t : State} (h : walkBit v s = .next t) :
    t.dout.length ≤ s.dout.length + 1 ∧ (s.decState ≠ .idle → t.decState ≠ .idle) := by
  obtain ⟨-, ⟨-, rfl⟩ | ⟨-, rfl⟩ | ⟨-, rfl⟩ | ⟨-, -, rfl⟩⟩ := walkBit_cases h
  · exact ⟨Nat.le_succ _, fun _ => nofun⟩
  · exact ⟨Nat.le_succ _, fun _ => nofun⟩
  · exact ⟨by simp [emitByte], id⟩
  · exact ⟨Nat.le_succ _, id⟩

/-- A list of bits emits one byte a bit at most and never enters IDLE. -/
theorem walkBits_bounds {l : List Bool} {s t : State} (h : walkBits l s = .next t) :
    t.dout.length ≤ s.dout.length + l.length ∧ (s.decState ≠ .idle → t.decState ≠ .idle) := by
  induction l generalizing s with
  | nil => cases h; exact ⟨Nat.le_refl _, id⟩
  | cons v l ih =>
    obtain ⟨u, hu, hrest⟩ := walkBits_cons_iff.1 h
    obtain ⟨hlen, hidle⟩ := ih hrest
    rw [List.length_cons]
    split_ifs at hu with hr
    · obtain ⟨hlen', hidle'⟩ := walkBit_bounds hu
      exact ⟨by omega, hidle ∘ hidle'⟩
    · subst hu
      exact ⟨by omega, hidle⟩

/-- The j-th of a list of bits, bit n - 1 first. -/
theorem getElem_bitsDown {w : Nat} (x : BitVec w) {n j : Nat} (hj : j < (bitsDown x n).length) :
    (bitsDown x n)[j] = x.getLsbD (n - 1 - j) := by
  simp [bitsDown_eq_map]

/-- The bits of a DEC_BYTE operand, bit 7 first (43_decoder.md R152). -/
theorem getElem_byteBits_argByte (arg : Arg) {j : Nat} (hj : j < (byteBits (argByte arg)).length) :
    (byteBits (argByte arg))[j] = arg.getLsbD (7 - j) := by
  have hj8 : j < 8 := by simpa [byteBits] using hj
  have hlt : 8 - 1 - j < 8 := by omega
  simp only [byteBits, getElem_bitsDown, argByte, BitVec.getLsbD_setWidth, hlt, decide_true, Bool.true_and]

/-- Where the invariants keep the walk on the tree, the moves of a list of bits pass through one state after each bit. -/
theorem walkBits_stages (l : List Bool) {s : State} (hi : BlockInvariant s) :
    ∃ stage : Nat → State, stage 0 = s ∧ walkBits l s = .next (stage l.length) ∧
      ∀ j (hj : j < l.length),
        if (stage j).decState = .run then walkBit l[j] (stage j) = .next (stage (j + 1))
        else stage (j + 1) = stage j := by
  choose stage hstage using fun j => walkBits_keeps (l.take j) hi
  have hwalk : ∀ j, walkBits (l.take j) s = .next (stage j) := fun j => (hstage j).1
  refine ⟨stage, ?_, ?_, fun j hj => walkBits_singleton_iff.1 ?_⟩
  · exact (Host.Outcome.next.inj (hwalk 0)).symm
  · simpa using hwalk l.length
  · rw [← walkBits_append [l[j]] (hwalk j), List.take_append_getElem hj]
    exact hwalk (j + 1)

/-! ### The walk of a code (41_tree_builder.md R117, 43_decoder.md R160) -/

/-- Where ROOT is a leaf, it is the leaf of every symbol with a code. -/
theorem CodesFollowTree.root_of_leaf {s : State} (h : CodesFollowTree s) (htv : s.treeValid = true)
    (hr : isLeaf s.root = true) {sym : Nat} (hs : sym < 257) (hv : (codeAt s sym).valid = true) :
    s.root.toNat = sym := by
  obtain ⟨-, hpath, -⟩ := h htv sym hs
  have hend := hpath hv
  by_cases hnil : codeBits (codeAt s sym) = []
  · rwa [hnil] at hend
  · rw [pathEnd_leaf hr hnil] at hend
    have : Config.noNode.toNat = 1023 := rfl
    omega

/-- The decoder walks from ROOT, an internal node, of a tree whose codes are its paths. -/
structure AtRoot (s : State) : Prop where
  treeValid : s.treeValid = true
  codes : CodesFollowTree s
  internal : isLeaf s.root = false
  run : s.decState = .run
  cur : s.cur = s.root

/-- The code of a byte emits it and returns to ROOT; that of the end-of-block symbol ends in DONE (43_decoder.md R151,
R154). -/
theorem AtRoot.walkBits_code {s : State} (h : AtRoot s) {sym : Nat} (hs : sym < 257)
    (hv : (codeAt s sym).valid = true) : walkBits (codeBits (codeAt s sym)) s = .next
      (if sym = 256 then { s with cur := 256#10, decState := .done }
       else { s with dout := s.dout ++ [BitVec.ofNat 8 sym], doutReg := BitVec.ofNat 8 sym }) := by
  obtain ⟨-, hpath, -⟩ := h.codes h.treeValid sym hs
  have hend : (pathEnd s s.cur (codeBits (codeAt s sym))).toNat = sym := by rw [h.cur, hpath hv]
  have hnil : codeBits (codeAt s sym) ≠ [] := by
    intro hnil
    rw [hnil, pathEnd, h.cur] at hend
    exact absurd (isLeaf_iff.2 (hend.trans_lt hs)) (by rw [h.internal]; decide)
  rw [walkBits_path _ h.run hnil (by omega), emitByte_eq, hend]
  split_ifs with heob
  · rw [BitVec.eq_of_toNat_eq (y := 256#10) (hend.trans heob)]
  · rw [← h.cur]

theorem AtRoot.of_sameTables {s t : State} (h : AtRoot s) (htab : SameTables s t) (hd : t.decState = s.decState)
    (hc : t.cur = s.cur) : AtRoot t where
  treeValid := htab.treeValid.trans h.treeValid
  codes := codesFollowTree_tableInvariant.congr htab h.codes
  internal := by rw [htab.root]; exact h.internal
  run := hd.trans h.run
  cur := by rw [hc, h.cur, htab.root]

theorem payload_congr {s t : State} (h : t.code = s.code) (xs : List Byte) : payload t xs = payload s xs := by
  simp only [payload, codeAt, h]

/-- The codes of the bytes and of the end-of-block symbol, walked from ROOT, emit the bytes and end in DONE. -/
theorem AtRoot.walkBits_payload {xs : List Byte} {s : State} (h : AtRoot s)
    (hv : ∀ x ∈ xs, (codeAt s x.toNat).valid = true) (heob : (codeAt s 256).valid = true) :
    ∃ t, walkBits (payload s xs) s = .next t ∧ t.dout = s.dout ++ xs ∧ t.decState = .done := by
  induction xs generalizing s with
  | nil => exact ⟨_, h.walkBits_code (by decide) heob, (List.append_nil _).symm, rfl⟩
  | cons x xs ih =>
    have hx := h.walkBits_code (sym := x.toNat) (by omega) (hv x List.mem_cons_self)
    rw [if_neg (by omega), BitVec.ofNat_toNat, BitVec.setWidth_eq] at hx
    have hnext : AtRoot { s with dout := s.dout ++ [x], doutReg := x } :=
      h.of_sameTables (by constructor <;> rfl) rfl rfl
    obtain ⟨t, ht, hdout, hdone⟩ := ih hnext (fun y hy => hv y (List.mem_cons_of_mem x hy)) heob
    refine ⟨t, ?_, ?_, hdone⟩
    · rw [payload_cons, walkBits_append _ hx]
      exact ht
    · rw [hdout, List.append_assoc]
      rfl

/-! ### Streams of body bytes (43_decoder.md R160) -/

theorem argByte_byteArg (b : Byte) : argByte (byteArg b) = b := by
  rw [argByte, byteArg, BitVec.setWidth_setWidth_of_le _ (by omega), BitVec.setWidth_eq]

/-- DEC_BYTE of each byte in turn moves the cursor on the bits of them all. -/
theorem execAll_decBytes {body : List Byte} {s t : State} (hf : s.fatal = false) (hd : s.decState ≠ .idle)
    (hw : walkBits (body.flatMap byteBits) s = .next t) (is : List Instr) :
    execAll (body.map (fun b => .decByte (byteArg b)) ++ is) s = execAll is t := by
  induction body generalizing s with
  | nil => cases hw; rfl
  | cons b body ih =>
    obtain ⟨u, hb, hrest⟩ := walkBits_append_iff.1 hw
    have hexec := exec_decByte_walks (arg := byteArg b) hf (Nat.le_of_lt_succ (byteArg_lt b)) hd
    rw [argByte_byteArg, hb] at hexec
    obtain ⟨c, d, new, hframe⟩ := walkBits_writes hb
    exact (execAll_cons hexec _).trans (ih (by rw [hframe, hf]) ((walkBits_bounds hb).2 hd) hrest)

/-- BUILD of a table that counts the bytes and the end-of-block symbol gives each of them a code. -/
theorem exec_build_codes {xs : List Byte} {s : State} (hf : s.fatal = false) (hopen : s.encOpen = false)
    (hd : s.decState ≠ .run) (heob : freqAt s 256 ≠ 0#32) (hxs : ∀ x ∈ xs, freqAt s x.toNat ≠ 0#32) :
    exec .build s = .next (buildTree s) ∧ Built s (buildTree s) ∧
      (∀ x ∈ xs, (codeAt (buildTree s) x.toNat).valid = true) ∧ (codeAt (buildTree s) 256).valid = true := by
  have hq := leafQueue_ne_nil ⟨256, by decide, heob⟩
  have h := built_buildTree hq
  exact ⟨exec_build_of_closed hf ⟨hopen, hd⟩ hq, h, fun x hx => (h.code_valid (by omega)).2 (hxs x hx),
    (h.code_valid (by decide)).2 heob⟩

/-- DECSTREAM of a body on which the walk ends in DONE. -/
theorem execAll_decstream {body : List Byte} {s u t : State} (hstart : exec .decStart s = .next u)
    (hf : u.fatal = false) (hd : u.decState ≠ .idle) (hw : walkBits (body.flatMap byteBits) u = .next t)
    (ht : t.decState = .done) : execAll (expand (.decstream body)) s = .next t := by
  have hend : exec .decEnd t = .next t := exec_decEnd_stopped (by rw [ht]; rfl)
  exact (execAll_cons hstart _).trans ((execAll_decBytes hf hd hw _).trans (execAll_cons hend []))

/-- DECSTREAM of a body that begins with the payload of bytes with codes gives the bytes and DONE. -/
theorem execAll_decstream_payload {body xs : List Byte} {rest : List Bool} {s : State} (hf : s.fatal = false)
    (htv : s.treeValid = true) (hcodes : CodesFollowTree s) (hv : ∀ x ∈ xs, (codeAt s x.toNat).valid = true)
    (heob : (codeAt s 256).valid = true) (hbody : body.flatMap byteBits = payload s xs ++ rest) :
    ∃ t, execAll (expand (.decstream body)) s = .next t ∧ t.dout = s.dout ++ xs ∧ t.decState = .done := by
  cases hl : isLeaf s.root with
  | true =>
    have hroot := hcodes.root_of_leaf htv hl (by decide) heob
    have hxs : xs = [] := List.eq_nil_iff_forall_not_mem.2 fun x hx => by
      have := hcodes.root_of_leaf htv hl (by omega) (hv x hx)
      omega
    exact ⟨_, execAll_decstream (exec_decStart_at_eob hf htv hroot) hf nofun (walkBits_stopped _ nofun) rfl,
      by rw [hxs, List.append_nil], rfl⟩
  | false =>
    have hroot : s.root.toNat ≠ 256 := fun h => by simp [isLeaf_iff.2 (h.trans_lt (by decide))] at hl
    have hstart : AtRoot { s with cur := s.root, decState := .run } :=
      { treeValid := htv
        codes := codesFollowTree_tableInvariant.congr (s := s) (by constructor <;> rfl) hcodes
        internal := hl, run := rfl, cur := rfl }
    obtain ⟨t, ht, hdout, hdone⟩ := hstart.walkBits_payload hv heob
    refine ⟨t, execAll_decstream (exec_decStart_runs hf htv hroot) hf nofun ?_ hdone, hdout, hdone⟩
    rw [hbody]
    exact (walkBits_append rest ht).trans (walkBits_stopped rest (by rw [hdone]; nofun))

end Machine

end Sys2Proof
end

section
/-! Settled statements: the decoder (43_decoder.md). -/

namespace Sys2Proof.Machine

/-- Settles O31: both trees give the same codes, so the body begins with the payload that the walk decodes. -/
theorem decodingAnEncodedStreamGivesTheInput : Obligations.DecodingAnEncodedStreamGivesTheInput := by
  intro s xs hf hopen hd hcnt heob hxs
  obtain ⟨hexec, hbuilt, hv, hveob⟩ := exec_build_codes hf hopen hd heob hxs
  have hframe := hbuilt.frame
  obtain ⟨t, body, ht, heout, -, hbody⟩ := encodedBodyHasThePayloadsLength (buildTree s) xs
    (by rw [hframe, hf]) hbuilt.treeValid (by rw [hframe, hcnt]) hv hveob
  refine ⟨t, body, (execAll_cons hexec _).trans ht, by rw [heout, hframe], fun s' hfreq hf' hopen' hd' => ?_⟩
  have hcount : ∀ k, freqAt s' k = freqAt s k := fun k => by rw [freqAt, freqAt, hfreq]
  obtain ⟨hexec', hbuilt', hv', hveob'⟩ := exec_build_codes hf' hopen' hd' (hcount 256 ▸ heob)
    fun x hx => hcount x.toNat ▸ hxs x hx
  have hcode : (buildTree s).code = (buildTree s').code :=
    buildTree_code_congr hfreq.symm (leafQueue_ne_nil ⟨256, by decide, heob⟩)
  have hframe' := hbuilt'.frame
  rw [← payload, payload_congr hcode] at hbody
  obtain ⟨t', ht', hdout, hdone⟩ := execAll_decstream_payload (by rw [hframe', hf']) hbuilt'.treeValid
    hbuilt'.codesFollowTree hv' hveob' hbody
  exact ⟨t', (execAll_cons hexec' _).trans ht', by rw [hdout, hframe'], hdone⟩

/-- Settles O26, by the child that the bit leads to. -/
theorem cursorMoveFollowsItsRule : Obligations.CursorMoveFollowsItsRule := by
  intro v s _ hcur
  have hs : namesSlot s.cur = true := namesSlot_iff.2 hcur
  refine ⟨fun hleaf => walkBit_of_no_child hs (childOn_leaf v (isLeaf_iff.2 (Nat.lt_succ_of_le hleaf))), ?_⟩
  rintro - nxt hnxt
  obtain rfl : nxt = childOn s v s.cur := hnxt
  refine ⟨walkBit_of_no_child hs, fun heob => ?_, walkBit_to_byte hs, walkBit_to_internal hs⟩
  rw [walkBit_to_eob hs heob, BitVec.eq_of_toNat_eq (y := 256#10) heob]

/-- Settles O27: the checks in order; the invariants keep the walk on the tree, with one stage after each bit. -/
theorem decByteFollowsItsRule : Obligations.DecByteFollowsItsRule := by
  refine ⟨encode_decByte_eq_or, fun _ _ => exec_dropped _, fun _ _ => exec_decByte_out_of_range,
    fun _ _ => exec_decByte_of_idle, fun arg s hf ha hd hi => ?_,
    fun w s hop hillegal hf => performWord_illegal_of_not_fatal ?_ hf⟩
  · obtain ⟨stage, hstart, hwalk, hmoves⟩ := walkBits_stages (byteBits (argByte arg)) hi
    have hlen : (byteBits (argByte arg)).length = 8 := bitsDown_length _ 8
    obtain ⟨hgrow, -⟩ := walkBits_bounds hwalk
    obtain ⟨c, d, new, hframe⟩ := walkBits_writes hwalk
    rw [hlen] at hwalk hgrow hframe
    refine ⟨stage 8, new, stage, (exec_decByte_walks hf ha hd).trans hwalk, ?_, ?_, ?_, hstart, rfl, fun j hj => ?_⟩
    · rw [hframe]
    · rw [hframe, List.length_append] at hgrow
      omega
    · rw [hframe]
    · have hj' : j < (byteBits (argByte arg)).length := hlen.symm ▸ hj
      rw [← getElem_byteBits_argByte arg hj']
      exact hmoves j hj'
  · obtain hrsv | hdata := hillegal
    · exact decode_ne_ok_of_rsvField hrsv
    · exact decode_ne_ok_of_dataField (hop.trans_ne (by decide)) hdata

/-- Settles O30: with two or more leaves ROOT is an internal node, so a code is a path of one step or more to its leaf. -/
theorem walkingACodeGivesItsSymbol : Obligations.WalkingACodeGivesItsSymbol := by
  intro s sym htv htop hcodes hrun hcur hleaves hsym hv
  obtain ⟨-, -, -, hroot⟩ := htop htv
  rw [if_neg hleaves.ne'] at hroot
  have hl : isLeaf s.root = false := Bool.eq_false_iff.2 fun h => by
    have := isLeaf_iff.1 h
    omega
  exact AtRoot.walkBits_code ⟨htv, hcodes, hl, hrun, hcur⟩ hsym hv

/-- Settles O25: the one check, then ROOT is the end-of-block leaf or not. -/
theorem decStartFollowsItsRule : Obligations.DecStartFollowsItsRule := by
  refine ⟨rfl, fun _ => exec_dropped _, fun _ => exec_decStart_without_tree,
    fun s hf htv hr => exec_decStart_at_eob hf htv (congrArg BitVec.toNat hr),
    fun s hf htv hr => exec_decStart_runs hf htv (BitVec.toNat_ne_iff_ne.2 hr), fun w s hop hw hf => ?_⟩
  exact performWord_illegal_of_not_fatal
    (decode_ne_ok_of_plain_op (by decide) (by decide) (by decide) hop hw) hf

/-- Settles O28: the one check, then RUN or a stopped state. -/
theorem decEndFollowsItsRule : Obligations.DecEndFollowsItsRule := by
  refine ⟨rfl, fun _ => exec_dropped _, fun _ => exec_decEnd_of_idle, fun _ => exec_decEnd_of_run,
    fun s _ hd => exec_decEnd_stopped (decStopped_iff.2 hd), fun w s hop hw hf => ?_⟩
  exact performWord_illegal_of_not_fatal
    (decode_ne_ok_of_plain_op (by decide) (by decide) (by decide) hop hw) hf

/-- Settles O29: outside RUN no bit is read, and DEC_END writes in RUN alone. -/
theorem stoppedDecoderReadsNoMoreBits : Obligations.StoppedDecoderReadsNoMoreBits :=
  fun _ _ hd ha => ⟨exec_decByte_stopped ha (decStopped_iff.2 hd), exec_decEnd_stopped (decStopped_iff.2 hd)⟩

end Sys2Proof.Machine
end

section
/-! Settled statements: NOP and CLRERR (44_control.md). -/

namespace Sys2Proof.Machine

/-- While FATAL = 1 NOP is dropped and otherwise it has no effect: the state is the same both ways. -/
theorem exec_nop (s : State) : exec .nop s = .next s := by
  cases hf : s.fatal with
  | true => exact exec_dropped _ hf
  | false => exact exec_performed hf rfl

theorem exec_clrerr_performed {s : State} (hf : s.fatal = false) : exec .clrerr s = .next (clearErr s) :=
  exec_performed hf rfl

/-- Settles O10: with or without FATAL the state is kept; no other word with OP 0 is a command. -/
theorem nopFollowsItsRule : Obligations.NopFollowsItsRule := by
  refine ⟨rfl, exec_nop, fun w s hop hw hf => ?_⟩
  exact performWord_illegal_of_not_fatal
    (decode_ne_ok_of_plain_op (by decide) (by decide) (by decide) hop hw) hf

/-- Settles O11: dropped while FATAL, else the one effect is `clearErr`; no other word with OP 9 is a command. -/
theorem clrerrFollowsItsRule : Obligations.ClrerrFollowsItsRule := by
  refine ⟨rfl, fun _ => exec_dropped _, fun _ => exec_clrerr_performed, fun w s hop hw hf => ?_⟩
  exact performWord_illegal_of_not_fatal
    (decode_ne_ok_of_plain_op (by decide) (by decide) (by decide) hop hw) hf

end Sys2Proof.Machine
end

section
/-! SUPPORT. A step with no word to take, a word dropped while FATAL, and what the host's moves do to the channels and to
FATAL (60_exceptions.md). -/

namespace Sys2Proof.Machine

/-! ### Steps and words -/

theorem nextWord_eq_none_iff {s : State} : nextWord s = none ↔ s.busy = true ∨ s.prog.length ≤ s.pos := by
  cases hb : s.busy <;> simp [nextWord, hb]

theorem step_of_no_word {s : State} (h : nextWord s = none) : step s = .next s := by
  rw [step, h]

theorem afterCommand_eq_mapNext (r : Result) : afterCommand r = mapNext advance r := by
  cases r <;> rfl

/-- While FATAL = 1 a word is dropped, legal or not (60_exceptions.md R185). -/
theorem performWord_dropped (w : Word) {s : State} (hf : s.fatal = true) : performWord w s = .next s :=
  performWord_next_iff.2 (.dropped hf)

/-! ### The host's moves (60_exceptions.md R195) -/

/-- A word written when none waits stands at the position. -/
theorem writeCommand_getElem?_pos (w : Word) {s : State} (hp : s.pos = s.prog.length) :
    (writeCommand w s).prog[(writeCommand w s).pos]? = some w := by
  rw [writeCommand_prog, writeCommand_pos, hp, List.getElem?_concat_length]

theorem drainE_of_cons {s : State} {b : Byte} {rest : List Byte} (h : s.eout = b :: rest) :
    drainE s = (some b, { s with eout := rest }) := by
  rw [drainE, h]

theorem drainD_of_cons {s : State} {b : Byte} {rest : List Byte} (h : s.dout = b :: rest) :
    drainD s = (some b, { s with dout := rest }) := by
  rw [drainD, h]

@[simp] theorem drainE_fatal (s : State) : (drainE s).2.fatal = s.fatal := by unfold drainE; split <;> rfl

@[simp] theorem drainD_fatal (s : State) : (drainD s).2.fatal = s.fatal := by unfold drainD; split <;> rfl

/-- Of the host's moves only reset writes FATAL (60_exceptions.md R185, R195). -/
theorem hostMove_fatal (m : HostMove) (s : State) :
    (hostMove m s).2.fatal = if m = .reset then false else s.fatal := by
  cases m with
  | write w => exact writeCommand_fatal s w
  | read addr => rfl
  | drainEout => exact drainE_fatal s
  | drainDout => exact drainD_fatal s
  | reset => exact assertReset_fatal s

end Sys2Proof.Machine
end

section
/-! Settled statements: errors, the fatal state and the host's moves (60_exceptions.md). -/

namespace Sys2Proof.Machine

/-- Settles O33: every word is dropped, so the step is the advance alone; reset is the one move that writes FATAL. -/
theorem fatalStateDropsEveryWord : Obligations.FatalStateDropsEveryWord := by
  intro s hf
  refine ⟨fun i => exec_dropped i hf, fun w => performWord_dropped w hf, fun w hb hw => ?_,
    fun any => memRead_status any s, fun m => ?_⟩
  · rw [step_eq_of_word hb hw, performWord_dropped w hf]
    rfl
  · rw [hostMove_fatal, hf]
    simp

/-- Settles O9: in both cases the command port offers no word. -/
theorem stepWithoutAWordHoldsTheState : Obligations.StepWithoutAWordHoldsTheState :=
  fun _ h => step_of_no_word (nextWord_eq_none_iff.2 h)

/-- Settles O34: NOCODE is the one fatal code; any other is recorded only where ERR_CODE was 0. -/
theorem errorsRecordOnlyTheirCode : Obligations.ErrorsRecordOnlyTheirCode :=
  ⟨fun e s he => (raiseErr_nonfatal s he).trans (raiseError_eq e s), raiseErr_nocode, fun _ => rfl⟩

/-- Settles O53: the written word stands at the position, so the step performs it; a channel's head is its oldest byte. -/
theorem hostMovesFollowTheirRows : Obligations.HostMovesFollowTheirRows := by
  refine ⟨fun s w hb hp t ht => ?_, fun s b rest h => ?_, fun s b rest h => ?_, fun _ => rfl⟩
  · subst ht
    exact (step_eq_of_word (s := writeCommand w s) hb (writeCommand_getElem?_pos w hp)).trans
      (afterCommand_eq_mapNext _)
  · rw [hostMove, drainE_of_cons h]
  · rw [hostMove, drainD_of_cons h]

end Sys2Proof.Machine
end

section
/-! SUPPORT. A step while a stream is open, and a run from a state that meets the block invariant
(70_reset_and_hazards.md). -/

namespace Sys2Proof.Machine

/-! ### The tables while a stream is open (70_reset_and_hazards.md R206) -/

/-- The commands that write the tables are not performed while a stream is open, and no other word writes them. -/
theorem WordOutcome.sameTables_of_open {w : Word} {s u : State} (h : WordOutcome w s u)
    (ho : s.encOpen = true ∨ s.decState = .run) : SameTables s u := by
  cases h with
  | dropped => constructor <;> rfl
  | illegal => exact raiseErr_sameTables _ _
  | rejected => exact raiseErr_sameTables _ _
  | @performed i u _ _ hc he =>
    cases hi : writesTables i with
    | false => exact effectOf_sameTables hi he
    | true =>
      have hopen := streamOpen_eq_true.2 ho
      have hclosed := streamOpen_eq_false.2 (closed_of_checks hi hc)
      exact absurd (hopen.symm.trans hclosed) (by decide)

/-! ### Runs (70_reset_and_hazards.md R211) -/

/-- The invariant reads neither the host's words nor the model's count of draws, in which the start of a run differs
from the reset state. -/
theorem loadProgram_invariant (s : State) (ws : List Word) : BlockInvariant (loadProgram s ws) := by
  obtain ⟨hreset, -⟩ := resetMeetsTheInvariants
  exact hreset

/-- A run of as many steps as words are left answers, at the end of the same list. -/
theorem run_reaches_end (n : Nat) {s : State} (hs : BlockInvariant s) (hn : s.pos + n = s.prog.length) :
    ∃ t, core.run n s = .next t ∧ atEnd t ∧ t.prog = s.prog := by
  induction n generalizing s with
  | zero => exact ⟨s, rfl, hn, rfl⟩
  | succ n ih =>
    obtain ⟨⟨-, -, -, -, -, hbusy⟩, -⟩ := id hs
    have hword : s.prog[s.pos]? = some s.prog[s.pos] := List.getElem?_eq_getElem (by omega)
    obtain ⟨u, hstep, hu⟩ := stepAnswersAndKeepsTheBlockInvariant s hs
    obtain ⟨hpos, hprog⟩ := positionAdvancesByOne s u _ hbusy hword hstep
    obtain ⟨t, hrun, hend, hlist⟩ := ih hu (by rw [hpos, hprog]; omega)
    exact ⟨t, (run_succ n hstep).trans hrun, hend, hlist.trans hprog⟩

end Sys2Proof.Machine
end

section
/-! Settled statements: an open stream and the end of a run (70_reset_and_hazards.md). -/

namespace Sys2Proof.Machine

/-- Settles O37: the three commands fail their check for an open stream, and no other word writes the tables. -/
theorem openStreamLocksTheTables : Obligations.OpenStreamLocksTheTables := by
  intro s ho
  refine ⟨fun hf => ⟨exec_clear_of_open hf ho, exec_build_of_open hf ho,
    fun _ count hs => exec_ldfreq_of_open count hf hs ho⟩, fun t h => ?_⟩
  obtain ⟨-, rfl⟩ | ⟨w, u, -, hp, rfl⟩ := step_cases h
  · exact ⟨rfl, rfl, rfl, rfl, rfl, rfl⟩
  · obtain ⟨hfreq, hnodes, hroot, hnleaf, hcode, hvalid⟩ := (performWord_next_iff.1 hp).sameTables_of_open ho
    exact ⟨hfreq, hnodes, hroot, hnleaf, hcode, hvalid⟩

/-- Settles O47: the start of a run meets the block invariant, under which every step answers and takes one word. -/
theorem everyRunEndsAtItsLastWord : Obligations.EveryRunEndsAtItsLastWord :=
  fun s ws => run_reaches_end ws.length (loadProgram_invariant s ws) (Nat.zero_add _)

end Sys2Proof.Machine
end
